-- ==== Sys2Proof/Word.lean ====
section
/-!
DEFINITION. The plain data words of the block: bytes, byte strings, the four address bytes, the five
configuration ids and their width, the image's cells. spec/00_scope.md R8: a byte is 8 bits, a byte string
is written index 0 first, an address is four bytes with index 0 the most significant.
-/
namespace Sys2Proof

/-- A byte (R8). -/
abbrev Byte := BitVec 8

/-- A byte string, index 0 first; on the wire index 0 is sent first (R8). -/
abbrev Bytes := List Byte

/-- An image name, as its bytes (R327: `imageName`). -/
abbrev Name := List Byte

/-- The working address `ADDR[0..3]`, `a0 = ADDR[0]` the most significant (R22, R66). -/
structure Addr where
  a0 : Byte
  a1 : Byte
  a2 : Byte
  a3 : Byte
deriving DecidableEq, Repr

/-- `ID_W`, the width of a line or channel id (R6, D17): the one parameter that is a width of registers, so
a constant of the types (log 31). -/
abbrev Config.idW : Nat := 8

/-- A line or channel id (R37). -/
abbrev Id := BitVec Config.idW

/-- The source's FlasherConfig: the ids of the reset line, the boot-mode line, the UART transmit and
receive lines and the UART channel (R37). -/
structure Cfg where
  reset : Id
  boot : Id
  tx : Id
  rx : Id
  ch : Id
deriving DecidableEq, Repr

/-- The image space as cells of (offset, byte) (R62). Canonical form: offsets strictly rising
(`Memory.wf`, Machine/Ops.lean). An offset that is not listed has no byte (log 25). -/
abbrev Memory := List Host.Cell

/-- The numeric value of an address (R8), used only in statements about it. -/
def Addr.value (a : Addr) : Nat :=
  a.a0.toNat * 2 ^ 24 + a.a1.toNat * 2 ^ 16 + a.a2.toNat * 2 ^ 8 + a.a3.toNat

end Sys2Proof
end

