-- ==== Sys2Proof/Config.lean ====
section
/-!
DEFINITION. The implementation parameters of spec/00_scope.md R6: every row of its table but `ID_W`
(Word.lean) is a field of `Params`, which a machine is built with and which is constant over its life
(R38); their reference values; and the free values: constants without a body that stand for what the spec
leaves to the environment (93_implementation_defined.md U6 to U9) or leaves OPEN (D1, D3, D23).
-/
namespace Sys2Proof

/-! ### The values R6's table gives to the rows the source fixes

The rules read the fields of `Params`; these are the values those fields have in the reference
configuration, and the lengths the formats of R90 to R104 are written for. -/

/-- `ACK`, the success sentinel byte (R6, R101). -/
def Config.ack : Byte := 0x79
/-- `BLOCK`, the bytes of a block (R6, R69). -/
def Config.block : Nat := 256
/-- `LEN_IND = BLOCK - 1`, the length-indicator byte of a page (R6, R97). -/
def Config.lenInd : Byte := 0xFF
/-- `PAD`, the fill byte of a short final block (R6, R27). -/
def Config.pad : Byte := 0xFF
/-- `RSP_SYNC` (R6, R100). -/
def Config.rspSync : Nat := 1
/-- `RSP_GET` (R6, R100). -/
def Config.rspGet : Nat := 15
/-- `RSP_GETVER` (R6, R100). -/
def Config.rspGetver : Nat := 5
/-- `RSP_GETID` (R6, R100). -/
def Config.rspGetid : Nat := 5
/-- `RSP_ACK` (R6, R100). -/
def Config.rspAck : Nat := 1
/-- `RSP_PAGE` (R6, R100). -/
def Config.rspPage : Nat := 257

/-! ### Constants that are no row of R6 -/

/-- The byte `SYNC` sends (R91). -/
def Config.syncByte : Byte := 0x7F
/-- The parameter of Mass Erase (R93, R204). -/
def Config.eraseAll : Byte := 0xFF
/-- The positions of `RSP[0..256]` (R20, R31). -/
def Config.rspBytes : Nat := 257

/-- Parity settings the UART provider is asked for. -/
inductive Parity
  | none
  | even
  | odd
deriving DecidableEq, Repr

/-- The serial format the block asks of the UART provider (R6, R67, R324). -/
structure UartFormat where
  baud : Nat
  dataBits : Nat
  parity : Parity
  stopBits : Nat
deriving DecidableEq, Repr

/-- `UART_BAUD`, `UART_DATABITS`, `UART_PARITY`, `UART_STOPBITS` (R6). -/
def Config.uartFormat : UartFormat := ⟨115200, 8, .even, 1⟩

/-- The parameters (R6; 93_implementation_defined.md part 2). Not registers: no rule writes them (R20, R38).
The rows whose value the source fixes are fields too, as R6 asks ("A model should carry every row as a
configuration field, not as a literal inside a rule"); `Params.asStated` says they have that value. -/
structure Params where
  /-- `ACK`, the success sentinel byte (R101, R153). -/
  ack : Byte
  /-- `BLOCK`, the bytes of a block (R69). -/
  block : Nat
  /-- `LEN_IND`, the length-indicator byte of a page (R97). -/
  lenInd : Byte
  /-- `PAD`, the fill byte of a short final block (R27). -/
  pad : Byte
  /-- `UART_BAUD`, `UART_DATABITS`, `UART_PARITY`, `UART_STOPBITS` (R67, R324). -/
  uart : UartFormat
  /-- `RSP_SYNC`, the response length of `SYNC` (R100). -/
  rspSync : Nat
  /-- `RSP_GET` (R100). -/
  rspGet : Nat
  /-- `RSP_GETVER` (R100). -/
  rspGetver : Nat
  /-- `RSP_GETID` (R100). -/
  rspGetid : Nat
  /-- `RSP_ACK` (R100). -/
  rspAck : Nat
  /-- `RSP_PAGE` (R100). -/
  rspPage : Nat
  /-- `TIMEOUT`, the bound on every `AWAIT` of an exchange (R156). -/
  timeout : Nat
  /-- `POLL_INTERVAL`, an integer >= 1 (D3). -/
  pollInterval : Nat
  /-- `TIME_UNIT`, the real length of a time-unit; no rule reads it (D1). -/
  timeUnit : Nat
  /-- `T_RESET_LOW` (D5). -/
  tResetLow : Nat
  /-- `T_SETTLE` (D5). -/
  tSettle : Nat
  /-- `T_BACKOFF` (D6). -/
  tBackoff : Nat
  /-- `MAX_ATTEMPTS` (R240). -/
  maxAttempts : Nat
  /-- `MAX_IMAGE`, the largest image accepted (R264). -/
  maxImage : Nat
  /-- `BASE_ADDR`, the address `ADDR` is seeded with (D18). -/
  baseAddr : Addr
  /-- `PAGE_CSUM_SEED`, the seed of the page-frame checksum (D22). -/
  pageCsumSeed : Byte
  /-- `UNSET`, the sentinel of a line or channel id (D17). -/
  unset : Id
  /-- `UART_CHANNELS`, the number of valid channel ids (D17). -/
  uartChannels : Nat
  /-- `IDENT_PHASE` (D12). -/
  identPhase : Bool
  /-- `RX_CAPACITY`, the bytes the UART provider's buffer can hold, at least 258 (D23). -/
  rxCapacity : Nat
deriving DecidableEq, Repr

/-- The rows of R6 whose value the source fixes have it. -/
def Params.asStated (p : Params) : Prop :=
  p.ack = 0x79 ∧ p.block = 256 ∧ p.lenInd = 0xFF ∧ p.pad = 0xFF ∧ p.uart = ⟨115200, 8, .even, 1⟩
    ∧ p.rspSync = 1 ∧ p.rspGet = 15 ∧ p.rspGetver = 5 ∧ p.rspGetid = 5 ∧ p.rspAck = 1 ∧ p.rspPage = 257

/-- What the spec requires of the parameters: `POLL_INTERVAL >= 1` (D3), `RX_CAPACITY >= 258` (D23),
`ATTEMPT` (2 bits) holds `MAX_ATTEMPTS`, at least one attempt (R28), `NBLK` (16 bits) holds the blocks of
the largest image (R23 says any below 2^24; the last 255 of those sizes have 65536 blocks, log 10),
`ELAPSED` (32 bits) holds `TIMEOUT + POLL_INTERVAL` (R29). -/
def Params.wf (p : Params) : Bool :=
  decide (1 ≤ p.pollInterval) && decide (258 ≤ p.rxCapacity) && decide (1 ≤ p.maxAttempts)
    && decide (p.maxAttempts ≤ 3) && decide (p.maxImage ≤ 256 * 65535)
    && decide (p.timeout + p.pollInterval < 2 ^ 32)

/-- `POLL_INTERVAL - 1`: OPEN (D3), so a constant without a body (log 9). -/
opaque Config.openPollIntervalLessOne : Nat
/-- `TIME_UNIT`: OPEN (D1), log 9. -/
opaque Config.openTimeUnit : Nat
/-- `RX_CAPACITY - 258`: OPEN (D23), log 9. -/
opaque Config.openRxCapacityLess258 : Nat

/-- The parameters with the values R6's table gives; the OPEN ones are constants without a body. -/
def Config.reference : Params where
  ack := Config.ack
  block := Config.block
  lenInd := Config.lenInd
  pad := Config.pad
  uart := Config.uartFormat
  rspSync := Config.rspSync
  rspGet := Config.rspGet
  rspGetver := Config.rspGetver
  rspGetid := Config.rspGetid
  rspAck := Config.rspAck
  rspPage := Config.rspPage
  timeout := 5000
  pollInterval := Config.openPollIntervalLessOne + 1
  timeUnit := Config.openTimeUnit
  tResetLow := 100
  tSettle := 500
  tBackoff := 100
  maxAttempts := 3
  maxImage := 32768
  baseAddr := ⟨0x08, 0x00, 0x00, 0x00⟩
  pageCsumSeed := 0xFF
  unset := 0xFF
  uartChannels := 3
  identPhase := false
  rxCapacity := 258 + Config.openRxCapacityLess258

/-- The bytes the target appends to the RX buffer at moment `k`, where the scripted ones have run out
(R78, U7; log 3). -/
opaque Config.freeBatch : Nat → Bytes
/-- What of a batch that does not fit the RX buffer is kept at moment `k` (U6, D23; log 5). -/
opaque Config.freeOverflow : Nat → Bytes
/-- `SetDir`'s answer at moment `k` (U8). -/
opaque Config.freeSetDir : Nat → Bool
/-- `UartConfigure`'s answer at moment `k` (U8). -/
opaque Config.freeConfigure : Nat → Bool
/-- `UartSetPins`'s answer at moment `k` (U8). -/
opaque Config.freeSetPins : Nat → Bool
/-- `StoMount`'s answer at moment `k` (U8). -/
opaque Config.freeMount : Nat → Bool
/-- `StoOpen`'s answer at moment `k` (U8). -/
opaque Config.freeOpen : Nat → Bool
/-- The count `Tx` accepts at moment `k`, cut to the length offered (U8, R63). -/
opaque Config.freeCount : Nat → Nat
/-- `StoSize`'s answer at moment `k`: `none` is the size of the image (U8, R62). -/
opaque Config.freeSize : Nat → Option Nat
/-- `StoRead`'s answer at moment `k`: `none` is the next bytes of the image (U8, R62). -/
opaque Config.freeRead : Nat → Option Bytes
/-- How much longer than asked a `Wait` at moment `k` lasts (U9, D5; log 6). -/
opaque Config.freeLate : Nat → Nat

end Sys2Proof
end

