-- ==== Sys2Proof/Syntax.lean ====
section
/-!
DEFINITION. The operations of the block (spec/00_scope.md R2, spec/30_encoding.md R102, R110): one
constructor for every row of spec/opcode_table.json, and one for each of the four composite commands whose
stages have rows of their own (log 18).
-/
namespace Sys2Proof

/-- An operation of the block with its operands. -/
inductive Instr
  /-- `SYNC` (R200): frame 7F, response 1. -/
  | sync
  /-- `GET` (R201): frame 00 FF, response 15. -/
  | get
  /-- `GETVER` (R202): frame 01 FE, response 5. -/
  | getver
  /-- `GETID` (R203): frame 02 FD, response 5. -/
  | getid
  /-- `MASS_ERASE` stage 1 (R204): frame 43 BC, response 1. -/
  | massEraseCmd
  /-- `MASS_ERASE` stage 2 (R204): frame FF 00, response 1. -/
  | massEraseParam
  /-- `MASS_ERASE` as a whole (R204, R111). -/
  | massErase
  /-- `EXT_ERASE` stage 1 (R205): frame 44 BB, response 1. -/
  | extEraseCmd
  /-- `EXT_ERASE` stage 2 (R205): frame FF FF 00, response 1. -/
  | extEraseParam
  /-- `EXT_ERASE` as a whole (R205, R111). -/
  | extErase
  /-- `WRITE_MEM` (R206): frame 31 CE, response 1. -/
  | writeMem
  /-- `READ_MEM` (R207): frame 11 EE, response 1. -/
  | readMem
  /-- `LOAD_ADDR` (R208): the address bytes and their checksum, response 1 (log 17). -/
  | loadAddr (a : Addr)
  /-- `PAGE_WRITE` stage 3 (R209): the data frame of a payload, response 1 (log 17). -/
  | pageWriteData (p : Bytes)
  /-- `PAGE_WRITE` as a whole (R209, R111). -/
  | pageWrite
  /-- `PAGE_READ` stage 3 (R210): frame FF 00, response 257. -/
  | pageReadLen
  /-- `PAGE_READ` as a whole (R210, R111). -/
  | pageRead
  /-- `ACK` (R101, R153): the received status byte 79, classified (log 19). -/
  | ack
  /-- `CONFIG_LINES -> ok` (R133). -/
  | configLines
  /-- `RESET_PULSE` (R130). -/
  | resetPulse
  /-- `ENTER_BL -> ok` (R131). -/
  | enterBl
  /-- `EXIT_BL -> ok` (R132). -/
  | exitBl
  /-- `SEND s -> c` (R150). -/
  | send (bs : Bytes)
  /-- `AWAIT n, T -> L` (R151). -/
  | awaitBytes (n T : Nat)
  /-- `READEXACT n -> s` (R152). -/
  | readExact (n : Nat)
  /-- `CLASSIFY b -> ack` (R153). -/
  | classify (b : Byte)
  /-- `EXCHANGE s, n -> ok` (R154). -/
  | exchange (bs : Bytes) (n : Nat)
  /-- `COMPL b -> b'` (R180). -/
  | compl (b : Byte)
  /-- `XOR8 seed, s -> c` (R181). -/
  | xor8 (seed : Byte) (bs : Bytes)
  /-- `CMDFRAME op -> s` (R182). -/
  | cmdframe (op : Byte)
  /-- `ADDRFRAME a -> s` (R183). -/
  | addrframe (a : Addr)
  /-- `DATAFRAME p -> s` (R184). -/
  | dataframe (p : Bytes)
  /-- `LENPARAM n -> s` (R185). -/
  | lenparam (n : Byte)
  /-- `DETECT -> ok` (R240). -/
  | detect
  /-- `INC_ADDR` (R273). -/
  | incAddr
  /-- `FETCH_BLOCK -> ok` (R274). -/
  | fetchBlock
  /-- `FLASH cfg, name -> result` (R260). -/
  | flash (cfg : Cfg) (name : Name)
deriving DecidableEq, Repr

end Sys2Proof
end

