-- ==== Sys2Proof/WellFormed.lean ====
section
/-!
DEFINITION. Which operands the spec gives an operation: the lengths of R104, R150, R151, R152, R181, R184.
-/
namespace Sys2Proof

/-- A frame length of R104: 1, 2, 3, 5, or that of a block with its indicator and checksum, 258. -/
def isFrameLength (n : Nat) : Bool := n == 1 || n == 2 || n == 3 || n == 5 || n == Config.block + 2

/-- A response length of R100, R104: 1, 5, 15 or 257. -/
def isResponseLength (n : Nat) : Bool :=
  n == Config.rspSync || n == Config.rspAck || n == Config.rspGetver || n == Config.rspGetid
    || n == Config.rspGet || n == Config.rspPage

/-- The operands are those the spec names for the operation. -/
def Instr.wf (i : Instr) : Bool :=
  match i with
  | .send bs => decide (1 ≤ bs.length) && decide (bs.length ≤ Config.block + 2)
  | .awaitBytes n _ => isResponseLength n
  | .readExact n => isResponseLength n
  | .exchange bs n => isFrameLength bs.length && isResponseLength n
  | .xor8 _ bs => decide (bs.length ≤ Config.block + 1)
  | .dataframe p => p.length == Config.block
  | .pageWriteData p => p.length == Config.block
  | .sync => true
  | .get => true
  | .getver => true
  | .getid => true
  | .massEraseCmd => true
  | .massEraseParam => true
  | .massErase => true
  | .extEraseCmd => true
  | .extEraseParam => true
  | .extErase => true
  | .writeMem => true
  | .readMem => true
  | .loadAddr _ => true
  | .pageWrite => true
  | .pageReadLen => true
  | .pageRead => true
  | .ack => true
  | .configLines => true
  | .resetPulse => true
  | .enterBl => true
  | .exitBl => true
  | .classify _ => true
  | .compl _ => true
  | .cmdframe _ => true
  | .addrframe _ => true
  | .lenparam _ => true
  | .detect => true
  | .incAddr => true
  | .fetchBlock => true
  | .flash _ _ => true

end Sys2Proof
end

