-- ==== Sys2Proof/Decode.lean ====
section
/-!
DEFINITION. The wire encoding of spec/30_encoding.md R90 to R102: the codec functions that build frames
(42_codec.md R180 to R185), a decoder from the bytes of one frame (or the received ACK byte) to the row of
spec/opcode_table.json it is, total and rejecting by name, and the encoder.
The block itself only sends frames and decodes none (R103); the decoder is the reader of its table.
-/
namespace Sys2Proof

/-- `COMPL b` (R180). -/
def complement (b : Byte) : Byte := b ^^^ 0xFF

/-- The value of `XOR8 seed, s` (R181): the exclusive-or of the seed and every byte. -/
def xorFold (seed : Byte) (bs : Bytes) : Byte := bs.foldl (fun c b => c ^^^ b) seed

/-- `CMDFRAME op`: F-CMD (R92, R182). -/
def cmdFrame (op : Byte) : Bytes := [op, complement op]

/-- `LENPARAM n`: F-PARAM (R93, R185). -/
def paramFrame (n : Byte) : Bytes := [n, complement n]

/-- F-XPARAM (R94). -/
def xparamFrame : Bytes := [0xFF, 0xFF, 0x00]

/-- F-SYNC (R91). -/
def syncFrame : Bytes := [Config.syncByte]

/-- The four address bytes, most significant first (R66). -/
def Addr.bytes (a : Addr) : Bytes := [a.a0, a.a1, a.a2, a.a3]

/-- `ADDRFRAME a`: F-ADDR, checksum seed 00 (R95, R183). -/
def addrFrame (a : Addr) : Bytes := a.bytes ++ [xorFold 0x00 a.bytes]

/-- The checksum of the data frame of a payload (R184): seed, length indicator, payload. -/
def dataChecksum (par : Params) (p : Bytes) : Byte := xorFold par.pageCsumSeed (par.lenInd :: p)

/-- `DATAFRAME p`: F-DATA (R96, R184). -/
def dataFrame (par : Params) (p : Bytes) : Bytes := par.lenInd :: (p ++ [dataChecksum par p])

/-- The protocol position that tells the two meanings of FF 00 apart (R105, `context` of
opcode_table.json): a parameter after 43 BC was ACKed, or a read length after 11 EE and an address. -/
inductive Ctx
  | afterMassErase
  | afterReadMem
deriving DecidableEq, Repr

/-- Why bytes are no frame of the table. -/
inductive Reject
  /-- No bytes. -/
  | empty
  /-- One byte that is neither 7F nor `ACK`. -/
  | unknownByte
  /-- Two bytes, the second not the complement of the first (R92). -/
  | badComplement
  /-- An opcode that is never emitted (R103). -/
  | unknownOpcode
  /-- Three bytes other than FF FF 00 (R94). -/
  | badXparam
  /-- Five bytes whose last is not the exclusive-or of the others (R95). -/
  | badAddrChecksum
  /-- The length of a data frame and another first byte than `LEN_IND` (R96). -/
  | badLengthIndicator
  /-- The length of a data frame and the wrong checksum (R96). -/
  | badDataChecksum
  /-- A length no format has (R90). -/
  | badLength
deriving DecidableEq, Repr

/-- The F-CMD rows of the command table (R102): opcode and operation. -/
def commandRows : List (Byte × Instr) :=
  [(0x00, .get), (0x01, .getver), (0x02, .getid), (0x43, .massEraseCmd), (0x44, .extEraseCmd),
   (0x31, .writeMem), (0x11, .readMem)]

/-- The command whose opcode is `a` (F-CMD, R92). -/
def decodeCommand (a : Byte) : Except Reject Instr :=
  match commandRows.find? (fun r => r.1 == a) with
  | some r => .ok r.2
  | none => .error .unknownOpcode

/-- The operation of a two-byte frame with first byte `a`: F-PARAM where the position takes it (R93, R105),
else F-CMD. -/
def decodeOpcode (par : Params) (ctx : Ctx) (a : Byte) : Except Reject Instr :=
  match ctx with
  | .afterMassErase => if a = Config.eraseAll then .ok .massEraseParam else decodeCommand a
  | .afterReadMem => if a = par.lenInd then .ok .pageReadLen else decodeCommand a

/-- F-DATA (R96): `b` is byte 0, `rest` the bytes after it, a block and its checksum. -/
def decodeData (par : Params) (b : Byte) (rest : Bytes) : Except Reject Instr :=
  if rest.length = par.block + 1 then
    if b = par.lenInd then
      if rest.drop par.block = [dataChecksum par (rest.take par.block)] then
        .ok (.pageWriteData (rest.take par.block))
      else .error .badDataChecksum
    else .error .badLengthIndicator
  else .error .badLength

/-- The row of the table that the bytes of one frame are, at protocol position `ctx`, on a machine with
the parameters `par` (R90 to R102, R105). -/
def decode (par : Params) (ctx : Ctx) (bs : Bytes) : Except Reject Instr :=
  match bs with
  | [] => .error .empty
  | [b] =>
    if b = Config.syncByte then .ok .sync
    else if b = par.ack then .ok .ack
    else .error .unknownByte
  | [a, b] => if b = complement a then decodeOpcode par ctx a else .error .badComplement
  | [a, b, c] => if [a, b, c] = xparamFrame then .ok .extEraseParam else .error .badXparam
  | [a, b, c, d, e] =>
    if e = xorFold 0x00 [a, b, c, d] then .ok (.loadAddr ⟨a, b, c, d⟩) else .error .badAddrChecksum
  | b :: rest => decodeData par b rest

/-- The bytes of a wire row: the frame it puts on the TX stream (for `ACK`, the byte received). An
operation that "puts no bytes of its own on the wire", and a composite command, whose frames are those of
its stages (R111), has none. -/
def encode (par : Params) (i : Instr) : Option Bytes :=
  match i with
  | .sync => some syncFrame
  | .get => some (cmdFrame 0x00)
  | .getver => some (cmdFrame 0x01)
  | .getid => some (cmdFrame 0x02)
  | .massEraseCmd => some (cmdFrame 0x43)
  | .massEraseParam => some (paramFrame Config.eraseAll)
  | .extEraseCmd => some (cmdFrame 0x44)
  | .extEraseParam => some xparamFrame
  | .writeMem => some (cmdFrame 0x31)
  | .readMem => some (cmdFrame 0x11)
  | .loadAddr a => some (addrFrame a)
  | .pageWriteData p => some (dataFrame par p)
  | .pageReadLen => some (paramFrame par.lenInd)
  | .ack => some [par.ack]
  | .massErase => none
  | .extErase => none
  | .pageWrite => none
  | .pageRead => none
  | .configLines => none
  | .resetPulse => none
  | .enterBl => none
  | .exitBl => none
  | .send _ => none
  | .awaitBytes _ _ => none
  | .readExact _ => none
  | .classify _ => none
  | .exchange _ _ => none
  | .compl _ => none
  | .xor8 _ _ => none
  | .cmdframe _ => none
  | .addrframe _ => none
  | .dataframe _ => none
  | .lenparam _ => none
  | .detect => none
  | .incAddr => none
  | .fetchBlock => none
  | .flash _ _ => none

/-- The protocol position a wire row stands at, as far as decoding needs it (R105). -/
def ctxOf (i : Instr) : Ctx :=
  match i with
  | .pageReadLen => .afterReadMem
  | _ => .afterMassErase

/-- The `k` bytes of a table word, byte 0 the most significant: opcode_table.json writes `match` with
"byte 0 leftmost" (R102) and numbers its bits as one number (log 15). -/
def tableBytes : Nat → Nat → Bytes
  | 0, _ => []
  | k + 1, w => BitVec.ofNat 8 (w >>> (8 * k)) :: tableBytes k w

/-- The operation the decoder reads from a table row's word of `nbits` bits (`nbits` a multiple of 8),
with the reference parameters; of the two meanings of FF 00 it gives the first row's (log 16). -/
def decodeTableWord (nbits w : Nat) : Option Instr :=
  match decode Config.reference .afterMassErase (tableBytes (nbits / 8) w) with
  | .ok i => some i
  | .error _ => none

end Sys2Proof
end

