-- ==== Sys2Proof/Machine/State.lean ====
section
/-!
DEFINITION. The state: the registers of spec/10_state.md R20, the environment state of R39, the control
position of R21 (which event of which operation is next), the ports of D2, the model's own fields (log 1, 3,
13, 20) and the parameters of R6; the reasons to stop; and the state after reset (R41, R340).
-/
namespace Sys2Proof.Machine

/-- `ST`, the sequencing state (R21); values 12 to 15 are never held (U15). -/
inductive St
  | idle
  | configValidated
  | storageReady
  | imageLocated
  | modeEntered
  | transportReady
  | presenceConfirmed
  | erased
  | writing
  | reading
  | modeExited
  | done
deriving DecidableEq, Repr

/-- The 4-bit encoding of `ST` (R21, D14). -/
def St.code : St → BitVec 4
  | .idle => 0
  | .configValidated => 1
  | .storageReady => 2
  | .imageLocated => 3
  | .modeEntered => 4
  | .transportReady => 5
  | .presenceConfirmed => 6
  | .erased => 7
  | .writing => 8
  | .reading => 9
  | .modeExited => 10
  | .done => 11

/-- `RESULT`, the source's FlashResult (R26, R300); code 15 is never produced (U15). -/
inductive Result
  | success
  | configurationInvalid
  | transportInitFailed
  | targetNotFound
  | syncFailed
  | getFailed
  | getVersionFailed
  | getIdFailed
  | imageNotFound
  | imageEmpty
  | imageTooLarge
  | imageUnreadable
  | writeFailed
  | readFailed
  | unknown
deriving DecidableEq, Repr

/-- The 4-bit code of `RESULT` (R300, D13). -/
def Result.code : Result → BitVec 4
  | .success => 0
  | .configurationInvalid => 1
  | .transportInitFailed => 2
  | .targetNotFound => 3
  | .syncFailed => 4
  | .getFailed => 5
  | .getVersionFailed => 6
  | .getIdFailed => 7
  | .imageNotFound => 8
  | .imageEmpty => 9
  | .imageTooLarge => 10
  | .imageUnreadable => 11
  | .writeFailed => 12
  | .readFailed => 13
  | .unknown => 14

/-- An exchange of the sequence: one frame of the command protocol with its response (R200 to R210). -/
inductive Stage
  /-- `SYNC` in `DETECT` (R240). -/
  | sync
  /-- `GET` in `DETECT` (R240). -/
  | get
  /-- `GETVER` (R275). -/
  | getver
  /-- `GETID` (R275). -/
  | getid
  /-- `MASS_ERASE`, the command (R204). -/
  | massEraseCmd
  /-- `MASS_ERASE`, the parameter (R204). -/
  | massEraseParam
  /-- `EXT_ERASE`, the command (R205). -/
  | extEraseCmd
  /-- `EXT_ERASE`, the parameter (R205). -/
  | extEraseParam
  /-- `PAGE_WRITE`, stage 1 (R209). -/
  | writeMem
  /-- `PAGE_WRITE`, stage 2: `LOAD_ADDR` (R208, R209). -/
  | writeAddr
  /-- `PAGE_WRITE`, stage 3 (R209). -/
  | pageData
  /-- `PAGE_READ`, stage 1 (R210). -/
  | readMem
  /-- `PAGE_READ`, stage 2: `LOAD_ADDR` (R208, R210). -/
  | readAddr
  /-- `PAGE_READ`, stage 3 (R210). -/
  | pageLen
deriving DecidableEq, Repr

/-- Which event of an `EXCHANGE` is next (R150 to R154). -/
inductive ExchangePos
  /-- `Tx`. -/
  | tx
  /-- `RxLen` in the poll loop of `AWAIT`. -/
  | poll
  /-- `Wait(POLL_INTERVAL)`. -/
  | pause
  /-- `RxPop`. -/
  | pop
deriving DecidableEq, Repr

/-- Which event of a `RESET_PULSE` is next (R130). -/
inductive PulsePos
  /-- `SetLevel(RESET, 0)`. -/
  | low
  /-- `Wait(T_RESET_LOW)`. -/
  | hold
  /-- `SetLevel(RESET, 1)`. -/
  | high
  /-- `Wait(T_SETTLE)`. -/
  | settle
deriving DecidableEq, Repr

/-- The position inside the work of the current state: "which event is next" in the pseudocode of the
operation being run (R21's last sentence, D33). -/
inductive Pos
  /-- The start of the state's work. -/
  | entry
  /-- ImageLocated: `StoOpen` succeeded, `StoSize` is next (R264). -/
  | size
  /-- `ENTER_BL`, `EXIT_BL`: `SetDir(BOOT)` is next; `ok1` is what `SetDir(RESET)` answered (R133). -/
  | dirBoot (ok1 : Bool)
  /-- `ENTER_BL`, `EXIT_BL`: the boot-mode line's `SetLevel` is next (R131, R132). -/
  | level
  /-- Inside a `RESET_PULSE`, of `ENTER_BL`, `EXIT_BL` or `DETECT` (R130). -/
  | pulse (p : PulsePos)
  /-- TransportReady: `UartSetPins` is next; `ok1` is what `UartConfigure` answered (R266). -/
  | pins (ok1 : Bool)
  /-- Inside the exchange of a stage. -/
  | stage (c : Stage) (x : ExchangePos)
  /-- `DETECT`: `Wait(T_BACKOFF)` is next (R240). -/
  | backoff
  /-- Writing and Reading: the head of the block loop (R269, R270). -/
  | blocks
  /-- ModeExited: after the boot-mode exit; the image handle is closed next if open (R271). -/
  | closing
deriving DecidableEq, Repr

/-- The two control lines (R65). -/
inductive Line
  | reset
  | boot
deriving DecidableEq, Repr

/-- One event of the observable trace: a provider call or a wait with its arguments and its answer, or the
final `RESULT` of a session (R9, R76). UART calls carry the channel id (R324), GPIO calls the line id. -/
inductive Event
  | setDir (line : Line) (id : Id) (ok : Bool)
  | setLevel (line : Line) (id : Id) (level : Bool)
  | wait (n : Nat)
  | uartConfigure (ch : Id) (format : UartFormat) (ok : Bool)
  | uartSetPins (ch tx rx : Id) (ok : Bool)
  | tx (ch : Id) (bs : Bytes) (count : Nat)
  | rxLen (ch : Id) (n : Nat)
  | rxPop (ch : Id) (n : Nat) (bs : Bytes)
  | stoMount (ok : Bool)
  | stoOpen (name : Name) (ok : Bool)
  | stoSize (n : Nat)
  | stoRead (n : Nat) (bs : Bytes)
  | stoRewind
  | stoClose
  | result (r : Result)
deriving DecidableEq, Repr

/-- Everything outside the block that its rules read or write (R39), with the environment's answers still
to come, oldest first. Where a list has run out the answer is a free value of Config.lean (log 3). -/
structure World where
  /-- `RXQ`, the UART provider's inbound queue, oldest byte first (R39(a), R64). -/
  rxq : Bytes
  /-- `TXLOG`, all bytes accepted by `Tx`, oldest first (R39(b), R63). -/
  txlog : Bytes
  /-- `NOW`, in time-units (R39(c)). -/
  now : Nat
  /-- `IMG`, the image by offset (R39(d), R62). -/
  img : Memory
  /-- The storage read position (R62). -/
  imgPos : Nat
  /-- The bytes the target appends to `RXQ` at each coming event (R77, R78). -/
  arrivals : List Bytes
  /-- Answers of `SetDir` (U8). -/
  dirOk : List Bool
  /-- Answers of `UartConfigure` (U8). -/
  confOk : List Bool
  /-- Answers of `UartSetPins` (U8). -/
  pinsOk : List Bool
  /-- Answers of `StoMount` (U8). -/
  mountOk : List Bool
  /-- Answers of `StoOpen` (U8). -/
  openOk : List Bool
  /-- Counts `Tx` accepts (U8); cut to the length offered (R63). -/
  txCount : List Nat
  /-- Answers of `StoSize`; `none` is the size of `IMG` (U8). -/
  sizes : List (Option Nat)
  /-- Answers of `StoRead`; `none` is the next bytes of `IMG` (U8, R62). -/
  reads : List (Option Bytes)
  /-- How much longer than asked each `Wait` lasts (U9, D5). -/
  late : List Nat
  /-- The number of provider calls and waits so far, the index of the next free value (log 3). -/
  moment : Nat
  /-- The event trace, newest first (R76). -/
  trace : List Event
deriving DecidableEq, Repr

/-- What the caller's ports present at a step (D2, R327): nothing, `start` with `cfg_*` and `name`, or the
hardware reset `rst` (R340). -/
inductive Input
  | none
  | start (cfg : Cfg) (name : Name)
  | rst
deriving DecidableEq, Repr

/-- The value an operation returns to its caller (log 20). -/
inductive Ret
  | none
  | ok (b : Bool)
  | count (n : Nat)
  | byte (b : Byte)
  | bytes (bs : Bytes)
  | result (r : Result)
deriving DecidableEq, Repr

/-- One operation placed to run on its own (log 1): the bytes of a wire row at a protocol position, or an
operation that has no bytes. -/
inductive Slot
  | frame (ctx : Ctx) (bs : Bytes)
  | oper (i : Instr)
deriving DecidableEq, Repr

structure State where
  /-- `ST` (R21). -/
  st : St
  /-- The position inside the state's work (R21, D33). -/
  pos : Pos
  /-- `ADDR[0..3]` (R22). -/
  addr : Addr
  /-- `BLK` (R23). -/
  blk : BitVec 16
  /-- `NBLK` (R23). -/
  nblk : BitVec 16
  /-- `IMG_SIZE` (R24). -/
  imgSize : BitVec 32
  /-- `IMG_OPEN` (R25). -/
  imgOpen : Bool
  /-- `MODE_ENTERED` (R25). -/
  modeEntered : Bool
  /-- `RESULT` (R26). -/
  result : Result
  /-- `BUF[0..255]` (R27). -/
  buf : Bytes
  /-- `NREAD` (R27). -/
  nread : BitVec 9
  /-- `ATTEMPT` (R28). -/
  attempt : BitVec 2
  /-- `ELAPSED` (R29). -/
  elapsed : BitVec 32
  /-- `LOBS` (R30); of a longer observed length it keeps the low 16 bits (log 30). -/
  lobs : BitVec 16
  /-- `RSP[0..256]` (R31). -/
  rsp : Bytes
  /-- `XOK` (R32). -/
  xok : Bool
  /-- `CSUM` (R33). -/
  csum : Byte
  /-- `TXCNT` (R34). -/
  txcnt : BitVec 16
  /-- `BOOT_SEL` (R35). -/
  bootSel : Bool
  /-- `NRST` (R35). -/
  nrst : Bool
  /-- `ERASE_STAT` (R36). -/
  eraseStat : BitVec 2
  /-- `CFG_RESET`, `CFG_BOOT`, `CFG_TX`, `CFG_RX`, `CFG_CH` (R37). -/
  cfg : Cfg
  /-- The providers and the target (R39). -/
  world : World
  /-- The caller's `name` input (R261, log 13). -/
  name : Name
  /-- What the ports present at each coming step (log 13). -/
  inputs : List Input
  /-- The operation placed to run next on its own, if any (log 1). -/
  slot : Option Slot
  /-- The value the last single operation returned (log 20). -/
  ret : Ret
  /-- The parameters (R6), constant (R38). -/
  par : Params
deriving DecidableEq, Repr

/-- Why the machine stops. No operation of the block faults: its failures are values of `RESULT`. -/
inductive Fault
  /-- Raised by fetching from the model's own slot when the bytes placed there are no frame of the table.
  The block never decodes a frame (R103), so none of its runs reaches this. Safe: the machine stops
  (log 22). -/
  | notAFrame (why : Reject)
deriving DecidableEq, Repr

/-- Why an operation has no meaning here. -/
inductive Refusal
  /-- Raised by exec for an operation that has no meaning yet. Safe: the machine stops. -/
  | notModelled (mnemonic : String)
  /-- Raised by `READEXACT n` with fewer than `n` bytes buffered: "The source does not say what
  `readExact` does with fewer than `n` bytes buffered; no rule of this spec reaches that case and a model
  should refuse it" (R152, U3). Safe: the machine stops (log 21). -/
  | readExactShort
deriving DecidableEq, Repr

/-- `BUSY`: 1 while `ST` is neither Idle nor Done (R21). -/
def State.busy (s : State) : Bool :=
  match s.st with
  | .idle => false
  | .done => false
  | _ => true

/-- `DONE`: 1 while `ST` is Done (R21, R272). -/
def State.done (s : State) : Bool := s.st == .done

/-- The environment with nothing done and nothing scripted (log 8). -/
def World.initial : World where
  rxq := []
  txlog := []
  now := 0
  img := []
  imgPos := 0
  arrivals := []
  dirOk := []
  confOk := []
  pinsOk := []
  mountOk := []
  openOk := []
  txCount := []
  sizes := []
  reads := []
  late := []
  moment := 0
  trace := []

/-- The state after reset (R41, R340): the values of R20's last column; the registers it calls unspecified
hold zero (log 7). -/
def State.reset : State where
  st := .idle
  pos := .entry
  addr := ⟨0, 0, 0, 0⟩
  blk := 0
  nblk := 0
  imgSize := 0
  imgOpen := false
  modeEntered := false
  result := .success
  buf := List.replicate Config.block 0
  nread := 0
  attempt := 0
  elapsed := 0
  lobs := 0
  rsp := List.replicate Config.rspBytes 0
  xok := false
  csum := 0
  txcnt := 0
  bootSel := false
  nrst := true
  eraseStat := 0
  cfg := ⟨0, 0, 0, 0, 0⟩
  world := World.initial
  name := []
  inputs := []
  slot := none
  ret := .none
  par := Config.reference

end Sys2Proof.Machine
end

