-- ==== Sys2Proof/Machine/Ops.lean ====
section
/-!
DEFINITION. The shared operations: the image's memory, the environment's move before an event, every
provider call of spec/00_scope.md R9 as one event, taking a failure (`raise Fail`, R310) and ending a
session (R272, R314), session start (R40, R261) and hardware reset (R340).
-/
namespace Sys2Proof.Machine

/-! ### The image's memory (R62) -/

/-- Offsets strictly rising from `lo` on. -/
def Memory.risingFrom : Nat → Memory → Bool
  | _, [] => true
  | lo, (k, _) :: m => decide (lo ≤ k) && Memory.risingFrom (k + 1) m

/-- The canonical form: offsets strictly rising. An unlisted offset has no byte, so no listed byte can be
equal to it. -/
def Memory.wf (m : Memory) : Bool := Memory.risingFrom 0 m

/-- The byte at an offset; `none` where the image has none. -/
def Memory.read (m : Memory) (a : Nat) : Option Byte :=
  match m with
  | [] => none
  | (k, b) :: rest => if k = a then some b else Memory.read rest a

/-- The cells of a byte string from offset `a` on. -/
def Memory.cellsFrom : Nat → Bytes → Memory
  | _, [] => []
  | a, b :: bs => (a, b) :: Memory.cellsFrom (a + 1) bs

/-- The image that holds a byte string, from offset 0 (R62). -/
def Memory.ofBytes (bs : Bytes) : Memory := Memory.cellsFrom 0 bs

/-- The bytes at consecutive offsets from `a` on, up to the first offset without a byte. -/
def Memory.bytesFrom : Nat → Memory → Bytes
  | _, [] => []
  | a, (k, b) :: m =>
    if k = a then b :: Memory.bytesFrom (a + 1) m
    else if k < a then Memory.bytesFrom a m
    else []

/-- The size of the image: the bytes from offset 0 on (R24, R62). -/
def Memory.size (m : Memory) : Nat := (Memory.bytesFrom 0 m).length

/-! ### Events -/

/-- The next scripted answer, or the free value of the moment (log 3). -/
def draw {α : Type} (script : List α) (free : Nat → α) (moment : Nat) : α :=
  match script with
  | [] => free moment
  | a :: _ => a

/-- What of `batch` enters a buffer with `room` bytes left: all of it where it fits, else bytes nothing
constrains but the room (U6, log 5). -/
def admitted (batch : Bytes) (room moment : Nat) : Bytes :=
  if batch.length ≤ room then batch else (Config.freeOverflow moment).take room

/-- The environment's move before an event: the target appends its next bytes to `RXQ` (R77, R78), as far
as the buffer of `cap` bytes takes them (D23). -/
def World.tick (cap : Nat) (w : World) : World :=
  { w with
    rxq := w.rxq ++ admitted (draw w.arrivals Config.freeBatch w.moment) (cap - w.rxq.length) w.moment
    arrivals := w.arrivals.tail
    moment := w.moment + 1 }

/-- Record an event in the trace (R76). -/
def World.log (e : Event) (w : World) : World := { w with trace := e :: w.trace }

/-- `SetDir(line) -> ok` (R65, R325). -/
def World.setDir (cap : Nat) (line : Line) (id : Id) (w : World) : World × Bool :=
  let t := w.tick cap
  let ok := draw t.dirOk Config.freeSetDir t.moment
  (({ t with dirOk := t.dirOk.tail } : World).log (.setDir line id ok), ok)

/-- `SetLevel(line, v)`: cannot fail (R65, R325). -/
def World.setLevel (cap : Nat) (line : Line) (id : Id) (v : Bool) (w : World) : World :=
  (w.tick cap).log (.setLevel line id v)

/-- `Wait(n)`: `NOW` advances by at least `n` (R9, D5, U9). -/
def World.wait (cap n : Nat) (w : World) : World :=
  let t := w.tick cap
  ({ t with now := t.now + n + draw t.late Config.freeLate t.moment, late := t.late.tail } : World).log
    (.wait n)

/-- `UartConfigure() -> ok` with the serial format asked for (R266, R324). -/
def World.uartConfigure (cap : Nat) (ch : Id) (format : UartFormat) (w : World) : World × Bool :=
  let t := w.tick cap
  let ok := draw t.confOk Config.freeConfigure t.moment
  (({ t with confOk := t.confOk.tail } : World).log (.uartConfigure ch format ok), ok)

/-- `UartSetPins() -> ok` (R266, R324). -/
def World.uartSetPins (cap : Nat) (cfg : Cfg) (w : World) : World × Bool :=
  let t := w.tick cap
  let ok := draw t.pinsOk Config.freeSetPins t.moment
  (({ t with pinsOk := t.pinsOk.tail } : World).log (.uartSetPins cfg.ch cfg.tx cfg.rx ok), ok)

/-- `Tx(s) -> c` with `0 <= c <= len(s)`: the first `c` bytes are appended to `TXLOG` (R63). -/
def World.send (cap : Nat) (ch : Id) (bs : Bytes) (w : World) : World × Nat :=
  let t := w.tick cap
  let c := min (draw t.txCount Config.freeCount t.moment) bs.length
  (({ t with txlog := t.txlog ++ bs.take c, txCount := t.txCount.tail } : World).log (.tx ch bs c), c)

/-- `RxLen() -> n`: the current length of `RXQ`, nothing consumed (R64). -/
def World.rxLen (cap : Nat) (ch : Id) (w : World) : World × Nat :=
  let t := w.tick cap
  (t.log (.rxLen ch t.rxq.length), t.rxq.length)

/-- `RxPop(n) -> s`: the `n` oldest bytes leave `RXQ` (R64). -/
def World.rxPop (cap : Nat) (ch : Id) (n : Nat) (w : World) : World × Bytes :=
  let t := w.tick cap
  (({ t with rxq := t.rxq.drop n } : World).log (.rxPop ch n (t.rxq.take n)), t.rxq.take n)

/-- `StoMount() -> ok` (R263, R326). -/
def World.stoMount (cap : Nat) (w : World) : World × Bool :=
  let t := w.tick cap
  let ok := draw t.mountOk Config.freeMount t.moment
  (({ t with mountOk := t.mountOk.tail } : World).log (.stoMount ok), ok)

/-- `StoOpen(name) -> ok`; a handle just opened reads from offset 0 (R264, R269). -/
def World.stoOpen (cap : Nat) (name : Name) (w : World) : World × Bool :=
  let t := w.tick cap
  let ok := draw t.openOk Config.freeOpen t.moment
  (({ t with openOk := t.openOk.tail, imgPos := if ok then 0 else t.imgPos } : World).log
    (.stoOpen name ok), ok)

/-- `StoSize() -> n` (R24, R326). -/
def World.stoSize (cap : Nat) (w : World) : World × Nat :=
  let t := w.tick cap
  let n := (draw t.sizes Config.freeSize t.moment).getD (Memory.size t.img)
  (({ t with sizes := t.sizes.tail } : World).log (.stoSize n), n)

/-- `StoRead(n) -> s`: at most `n` bytes; unless the provider answers otherwise, the next bytes of the
image (R62, R326). The read position advances by the bytes returned (log 12). -/
def World.stoRead (cap n : Nat) (w : World) : World × Bytes :=
  let t := w.tick cap
  let bs := ((draw t.reads Config.freeRead t.moment).getD (Memory.bytesFrom t.imgPos t.img)).take n
  (({ t with reads := t.reads.tail, imgPos := t.imgPos + bs.length } : World).log (.stoRead n bs), bs)

/-- `StoRewind()` (R62, D27). -/
def World.stoRewind (cap : Nat) (w : World) : World :=
  ({ w.tick cap with imgPos := 0 } : World).log .stoRewind

/-- `StoClose()` (R326). -/
def World.stoClose (cap : Nat) (w : World) : World := (w.tick cap).log .stoClose

/-- A provider call that answers, made from the block. -/
def State.ask {α : Type} (s : State) (call : World → World × α) : State × α :=
  ({ s with world := (call s.world).1 }, (call s.world).2)

/-- A provider call or a wait without an answer, made from the block. -/
def State.tell (s : State) (call : World → World) : State := { s with world := call s.world }

/-- The buffer capacity the UART provider has (D23). -/
def State.cap (s : State) : Nat := s.par.rxCapacity

/-- `Wait(n)` (R9). -/
def State.wait (s : State) (n : Nat) : State := s.tell (World.wait s.cap n)

/-- The id of a line (R65). -/
def State.lineId (s : State) (line : Line) : Id :=
  match line with
  | .reset => s.cfg.reset
  | .boot => s.cfg.boot

/-- `SetDir(line) -> ok`; it changes no level (R133). -/
def State.setDir (s : State) (line : Line) : State × Bool :=
  s.ask (World.setDir s.cap line (s.lineId line))

/-- `SetLevel(line, v)` with the level register of the line: "Each holds the last level given to
`SetLevel` for that line" (R35). -/
def State.setLevel (s : State) (line : Line) (v : Bool) : State :=
  let t := s.tell (World.setLevel s.cap line (s.lineId line) v)
  match line with
  | .reset => { t with nrst := v }
  | .boot => { t with bootSel := v }

/-! ### Control -/

/-- `return v` of an operation run on its own (R9, log 20). -/
def State.setRet (s : State) (r : Ret) : State := { s with ret := r }

/-- `ST <- st`, at the start of its work (R9, R21). -/
def State.goto (s : State) (st : St) : State := { s with st := st, pos := .entry }

/-- A later position inside the current state's work (R21). -/
def State.goPos (s : State) (p : Pos) : State := { s with pos := p }

/-- `raise Fail(kind)` (R310), the block's one way to take a failure: the first kind is recorded, the rest
of the state's work is abandoned, control goes to ModeExited. -/
def State.raiseFail (s : State) (kind : Result) : State :=
  { s with
    result := if s.result = .success then kind else s.result
    st := .modeExited
    pos := .entry }

/-- The end of a session (R271's last line, R272, R314): `ST` takes Done; `RESULT` keeps its value and is
the last entry of the session's trace (R76). It is no provider call, so the environment does not move. -/
def State.endSession (s : State) : State := (s.tell (World.log (.result s.result))).goto .done

/-- Session start (R261) with the initialisation of R40: the configuration is latched, `RESULT` is
success, the flags are cleared, `ST` takes ConfigValidated. Every other register keeps its value. -/
def State.startSession (s : State) (cfg : Cfg) (name : Name) : State :=
  { s with
    cfg := cfg
    name := name
    result := .success
    imgOpen := false
    modeEntered := false
    eraseStat := 0
    attempt := 0
    xok := false
    st := .configValidated
    pos := .entry }

/-- Hardware reset by `rst` (R340, R341): every register takes its reset value; no provider is called and
nothing outside the block changes. -/
def State.hwReset (s : State) : State :=
  { State.reset with
    world := s.world
    name := s.name
    inputs := s.inputs
    buf := List.replicate s.par.block 0
    par := s.par }

end Sys2Proof.Machine
end

