-- ==== Sys2Proof/Machine/Operands.lean ====
section
/-!
DEFINITION. The operand and result forms of the operations: the frames an operation sends, built with the
checksum accumulator `CSUM` where the frame has a checksum (spec/42_codec.md), the configuration test's
operands (R262), the block's wanted length and the padded block (R274), and the address step (R273).
-/
namespace Sys2Proof.Machine

/-- `XOR8 seed, s -> c`: the fold leaves its result in `CSUM` (R181, R33). -/
def State.xor8 (s : State) (seed : Byte) (bs : Bytes) : State × Byte :=
  ({ s with csum := xorFold seed bs }, xorFold seed bs)

/-- `ADDRFRAME a -> s` (R183): the checksum is computed through `XOR8` with seed 00. -/
def State.addrFrame (s : State) (a : Addr) : State × Bytes :=
  let r := s.xor8 0x00 a.bytes
  (r.1, a.bytes ++ [r.2])

/-- `DATAFRAME p -> s` (R184): the checksum is computed through `XOR8` with `PAGE_CSUM_SEED` over the
length indicator and the payload. -/
def State.dataFrame (s : State) (p : Bytes) : State × Bytes :=
  let r := s.xor8 s.par.pageCsumSeed (s.par.lenInd :: p)
  (r.1, s.par.lenInd :: (p ++ [r.2]))

/-- `FETCH_BLOCK`'s `want`: the bytes block `BLK` of the image holds (R274). -/
def State.wantedBytes (s : State) : Nat :=
  min s.par.block (s.imgSize.toNat - s.par.block * s.blk.toNat)

/-- A block filled up with `PAD` to `BLOCK` bytes (R27, R274). -/
def padBlock (par : Params) (bs : Bytes) : Bytes := bs ++ List.replicate (par.block - bs.length) par.pad

/-- `NBLK`: the image's size over `BLOCK`, rounded up; `(IMG_SIZE + 255) div 256` (R264, D19). -/
def blocksOf (par : Params) (size : Nat) : Nat := (size + (par.block - 1)) / par.block

/-- `INC_ADDR` on the four bytes (R273): add one to the third byte, carry into the second and then the
first, leave the fourth; a carry out of the first is lost (D37). -/
def stepAddr (a : Addr) : Addr :=
  let b2 := a.a2 + 1
  if b2 = 0 then
    let b1 := a.a1 + 1
    if b1 = 0 then ⟨a.a0 + 1, b1, b2, a.a3⟩ else ⟨a.a0, b1, b2, a.a3⟩
  else ⟨a.a0, a.a1, b2, a.a3⟩

end Sys2Proof.Machine
end

