-- ==== Sys2Proof/Machine/Flags.lean ====
section
/-!
DEFINITION. The flag computations: the ACK test (spec/41_transport.md R153), `XOK` (R32), the configuration
test (R262), and `ERASE_STAT` (R36, R268).
-/
namespace Sys2Proof.Machine

/-- `CLASSIFY b -> ack` (R153). -/
def isAck (par : Params) (b : Byte) : Bool := b == par.ack

/-- `XOK <- v` (R32, R154). -/
def State.setXok (s : State) (v : Bool) : State := { s with xok := v }

/-- The FlasherConfig test of ConfigValidated (R262): every id assigned, the channel valid, transmit and
receive lines distinct, reset and boot-mode lines distinct. -/
def cfgValid (p : Params) (c : Cfg) : Bool :=
  c.reset != p.unset && c.boot != p.unset && c.tx != p.unset && c.rx != p.unset
    && c.ch != p.unset && decide (c.ch.toNat < p.uartChannels)
    && c.tx != c.rx
    && c.reset != c.boot

/-- `ERASE_STAT[0] <- ok` (R268). -/
def State.setMassErased (s : State) (ok : Bool) : State :=
  { s with eraseStat := (s.eraseStat &&& 0b10) ||| (if ok then 0b01 else 0b00) }

/-- `ERASE_STAT[1] <- ok` (R268). -/
def State.setExtErased (s : State) (ok : Bool) : State :=
  { s with eraseStat := (s.eraseStat &&& 0b01) ||| (if ok then 0b10 else 0b00) }

end Sys2Proof.Machine
end

