-- ==== Sys2Proof/Machine/BootMode.lean ====
section
/-!
DEFINITION. The Boot-Mode Controller (spec/40_bootmode.md): `CONFIG_LINES`, `RESET_PULSE`, `ENTER_BL`,
`EXIT_BL`.
-/
namespace Sys2Proof.Machine

/-- `CONFIG_LINES -> ok` (R133): both calls are always made, the reset line first. -/
def State.configLines (s : State) : State × Bool :=
  let r1 := s.setDir .reset
  let r2 := r1.1.setDir .boot
  (r2.1, r1.2 && r2.2)

/-- `RESET_PULSE` (R130). -/
def State.resetPulse (s : State) : State :=
  let low := (s.setLevel .reset false).wait s.par.tResetLow
  (low.setLevel .reset true).wait s.par.tSettle

/-- The common form of `ENTER_BL` and `EXIT_BL` (R131, R132): configure, drive the boot-mode line, pulse. -/
def State.bootMode (s : State) (level : Bool) : State × Bool :=
  let r := s.configLines
  if r.2 then ((r.1.setLevel .boot level).resetPulse, true) else (r.1, false)

/-- `ENTER_BL -> ok` (R131). -/
def State.enterBl (s : State) : State × Bool := s.bootMode true

/-- `EXIT_BL -> ok` (R132). -/
def State.exitBl (s : State) : State × Bool := s.bootMode false

/-- An operation `-> ok` run on its own: its boolean is the value returned. -/
def State.returnOk (r : State × Bool) : State := r.1.setRet (.ok r.2)

/-- `CONFIG_LINES` (R133). -/
def execConfigLines (s : State) : Host.Outcome State Fault Refusal := .next (State.returnOk s.configLines)

/-- `RESET_PULSE` (R130): returns nothing. -/
def execResetPulse (s : State) : Host.Outcome State Fault Refusal := .next (s.resetPulse.setRet .none)

/-- `ENTER_BL` (R131). -/
def execEnterBl (s : State) : Host.Outcome State Fault Refusal := .next (State.returnOk s.enterBl)

/-- `EXIT_BL` (R132). -/
def execExitBl (s : State) : Host.Outcome State Fault Refusal := .next (State.returnOk s.exitBl)

end Sys2Proof.Machine
end

