-- ==== Sys2Proof/Machine/Transport.lean ====
section
/-!
DEFINITION. The Framed Transport (spec/41_transport.md): `SEND`, `AWAIT`, `READEXACT`, `CLASSIFY`,
`EXCHANGE`, and the received `ACK` byte of the opcode table. No operation discards bytes of `RXQ` other
than `READEXACT` (R157).
-/
namespace Sys2Proof.Machine

/-- `SEND s -> c` (R150): one `Tx` call, its count in `TXCNT`. -/
def State.send (s : State) (bs : Bytes) : State × Nat :=
  let r := s.ask (World.send s.cap s.cfg.ch bs)
  ({ r.1 with txcnt := BitVec.ofNat 16 r.2 }, r.2)

/-- `RxLen() -> n` (R64). -/
def State.rxLen (s : State) : State × Nat := s.ask (World.rxLen s.cap s.cfg.ch)

/-- One poll of `AWAIT` (R151, D4): the length is tested before the time. It gives the value `AWAIT` returns
where the loop ends here. DESIGN CHOICE (log 30): a length of 2^16 or more, which only a buffer of that
capacity can hold, leaves its low 16 bits in `LOBS`; the test and the value returned are the whole length. -/
def State.poll (s : State) (n T : Nat) : State × Option Nat :=
  let r := s.rxLen
  if n ≤ r.2 then ({ r.1 with lobs := BitVec.ofNat 16 r.2 }, some r.2)
  else if T ≤ r.1.elapsed.toNat then ({ r.1 with lobs := 0 }, some 0)
  else (r.1, none)

/-- Between two polls of `AWAIT` (R151): wait one poll interval and count it. -/
def State.pause (s : State) : State :=
  let t := s.wait s.par.pollInterval
  { t with elapsed := t.elapsed + BitVec.ofNat 32 t.par.pollInterval }

/-- The poll loop of `AWAIT` (R151). `polls` bounds the number of polls; with `POLL_INTERVAL >= 1` it is
never what ends the loop (log 11). What `LOBS` keeps of the value returned: log 30. -/
def State.awaitLoop (polls n T : Nat) (s : State) : State × Nat :=
  match polls with
  | 0 => ({ s with lobs := 0 }, 0)
  | polls + 1 =>
    let r := s.poll n T
    match r.2 with
    | some L => (r.1, L)
    | none => State.awaitLoop polls n T r.1.pause

/-- `AWAIT n, T -> L` (R151): the observed length, at least `n`, or 0 on timeout. -/
def State.awaitBytes (s : State) (n T : Nat) : State × Nat :=
  State.awaitLoop (T + 1) n T { s with elapsed := 0 }

/-- `READEXACT n -> s` (R152) where at least `n` bytes are buffered: positions `0 .. n-1` of `RSP` take
them, the others keep their contents (R31). -/
def State.readExact (s : State) (n : Nat) : State × Bytes :=
  let r := s.ask (World.rxPop s.cap s.cfg.ch n)
  ({ r.1 with rsp := (r.2 ++ r.1.rsp.drop r.2.length).take Config.rspBytes }, r.2)

/-- The end of an exchange whose response has arrived (R154): read exactly `n` bytes and classify the
first. -/
def State.takeResponse (s : State) (n : Nat) : State × Bool :=
  let r := s.readExact n
  let ok := isAck r.1.par (r.2.headD 0)
  (r.1.setXok ok, ok)

/-- `EXCHANGE s, n -> ok` (R154): a send-count mismatch fails at once (D7); a timeout consumes nothing;
exactly `n` bytes are consumed otherwise (D8). -/
def State.exchange (s : State) (bs : Bytes) (n : Nat) : State × Bool :=
  let r := s.send bs
  if r.2 ≠ bs.length then (r.1.setXok false, false)
  else
    let w := r.1.awaitBytes n r.1.par.timeout
    if w.2 = 0 then (w.1.setXok false, false) else w.1.takeResponse n

/-- `SEND` (R150). -/
def execSend (bs : Bytes) (s : State) : Host.Outcome State Fault Refusal :=
  .next ((s.send bs).1.setRet (.count (s.send bs).2))

/-- `AWAIT` (R151). -/
def execAwait (n T : Nat) (s : State) : Host.Outcome State Fault Refusal :=
  .next ((s.awaitBytes n T).1.setRet (.count (s.awaitBytes n T).2))

/-- `READEXACT` (R152): with fewer than `n` bytes buffered it is refused (U3, log 21). -/
def execReadExact (n : Nat) (s : State) : Host.Outcome State Fault Refusal :=
  if s.world.rxq.length < n then .refused .readExactShort
  else .next ((s.readExact n).1.setRet (.bytes (s.readExact n).2))

/-- `CLASSIFY` (R153): no flag is written, the boolean is returned. -/
def execClassify (b : Byte) (s : State) : Host.Outcome State Fault Refusal :=
  .next (s.setRet (.ok (isAck s.par b)))

/-- `EXCHANGE` (R154). -/
def execExchange (bs : Bytes) (n : Nat) (s : State) : Host.Outcome State Fault Refusal :=
  .next (State.returnOk (s.exchange bs n))

/-- The `ACK` row (R101, R153): the status byte `ACK` received and classified (log 19). -/
def execAck (s : State) : Host.Outcome State Fault Refusal := .next (s.setRet (.ok (isAck s.par s.par.ack)))

end Sys2Proof.Machine
end

