-- ==== Sys2Proof/Machine/Codec.lean ====
section
/-!
DEFINITION. The codec operations (spec/42_codec.md) run on their own: they read and write no state but the
accumulator `CSUM`, touch no provider and take no time; the value is returned.
-/
namespace Sys2Proof.Machine

/-- `COMPL` (R180). -/
def execCompl (b : Byte) (s : State) : Host.Outcome State Fault Refusal :=
  .next (s.setRet (.byte (complement b)))

/-- `XOR8` (R181). -/
def execXor8 (seed : Byte) (bs : Bytes) (s : State) : Host.Outcome State Fault Refusal :=
  .next ((s.xor8 seed bs).1.setRet (.byte (s.xor8 seed bs).2))

/-- `CMDFRAME` (R182). -/
def execCmdframe (op : Byte) (s : State) : Host.Outcome State Fault Refusal :=
  .next (s.setRet (.bytes (cmdFrame op)))

/-- `ADDRFRAME` (R183). -/
def execAddrframe (a : Addr) (s : State) : Host.Outcome State Fault Refusal :=
  .next ((s.addrFrame a).1.setRet (.bytes (s.addrFrame a).2))

/-- `DATAFRAME` (R184). -/
def execDataframe (p : Bytes) (s : State) : Host.Outcome State Fault Refusal :=
  .next ((s.dataFrame p).1.setRet (.bytes (s.dataFrame p).2))

/-- `LENPARAM` (R185). -/
def execLenparam (n : Byte) (s : State) : Host.Outcome State Fault Refusal :=
  .next (s.setRet (.bytes (paramFrame n)))

end Sys2Proof.Machine
end

