-- ==== Sys2Proof/Machine/Command.lean ====
section
/-!
DEFINITION. The Command Protocol (spec/43_commands.md). A command returns a boolean, never retries and
sends nothing after a required exchange has failed (R199).
-/
namespace Sys2Proof.Machine

/-- The frame of a stage (R91 to R97, R102), built as the codec builds it: an address or data frame leaves
its checksum in `CSUM`. -/
def State.stageFrame (s : State) (c : Stage) : State × Bytes :=
  match c with
  | .sync => (s, syncFrame)
  | .get => (s, cmdFrame 0x00)
  | .getver => (s, cmdFrame 0x01)
  | .getid => (s, cmdFrame 0x02)
  | .massEraseCmd => (s, cmdFrame 0x43)
  | .massEraseParam => (s, paramFrame Config.eraseAll)
  | .extEraseCmd => (s, cmdFrame 0x44)
  | .extEraseParam => (s, xparamFrame)
  | .writeMem => (s, cmdFrame 0x31)
  | .writeAddr => s.addrFrame s.addr
  | .pageData => s.dataFrame s.buf
  | .readMem => (s, cmdFrame 0x11)
  | .readAddr => s.addrFrame s.addr
  | .pageLen => (s, paramFrame s.par.lenInd)

/-- The response length of a stage (R100, R200 to R210). -/
def Stage.response (par : Params) (c : Stage) : Nat :=
  match c with
  | .sync => par.rspSync
  | .get => par.rspGet
  | .getver => par.rspGetver
  | .getid => par.rspGetid
  | .massEraseCmd => par.rspAck
  | .massEraseParam => par.rspAck
  | .extEraseCmd => par.rspAck
  | .extEraseParam => par.rspAck
  | .writeMem => par.rspAck
  | .writeAddr => par.rspAck
  | .pageData => par.rspAck
  | .readMem => par.rspAck
  | .readAddr => par.rspAck
  | .pageLen => par.rspPage

/-- The exchange of a stage (R200 to R210). -/
def State.command (s : State) (c : Stage) : State × Bool :=
  let f := s.stageFrame c
  f.1.exchange f.2 (c.response s.par)

/-- `LOAD_ADDR` with the operand bytes `a` (R208); every issuer passes `ADDR` (log 17). -/
def State.loadAddr (s : State) (a : Addr) : State × Bool :=
  let f := s.addrFrame a
  f.1.exchange f.2 s.par.rspAck

/-- `PAGE_WRITE` stage 3 with the payload `p` (R209); every issuer passes `BUF` (log 17). -/
def State.pageWriteData (s : State) (p : Bytes) : State × Bool :=
  let f := s.dataFrame p
  f.1.exchange f.2 s.par.rspAck

/-- `MASS_ERASE` (R204): the parameter only after the command was ACKed (D10). -/
def State.massErase (s : State) : State × Bool :=
  let r := s.command .massEraseCmd
  if r.2 then r.1.command .massEraseParam else (r.1, false)

/-- `EXT_ERASE` (R205): as `MASS_ERASE` (D10). -/
def State.extErase (s : State) : State × Bool :=
  let r := s.command .extEraseCmd
  if r.2 then r.1.command .extEraseParam else (r.1, false)

/-- `PAGE_WRITE` (R209): every stage gates the next (D11). -/
def State.pageWrite (s : State) : State × Bool :=
  let r1 := s.command .writeMem
  if r1.2 then
    let r2 := r1.1.command .writeAddr
    if r2.2 then r2.1.command .pageData else (r2.1, false)
  else (r1.1, false)

/-- `PAGE_READ` (R210): `READ_MEM` gates; the address stage is exchanged and its result ignored (D11). -/
def State.pageRead (s : State) : State × Bool :=
  let r1 := s.command .readMem
  if r1.2 then (r1.1.command .readAddr).1.command .pageLen else (r1.1, false)

/-- `SYNC` (R200). -/
def execSync (s : State) : Host.Outcome State Fault Refusal := .next (State.returnOk (s.command .sync))
/-- `GET` (R201). -/
def execGet (s : State) : Host.Outcome State Fault Refusal := .next (State.returnOk (s.command .get))
/-- `GETVER` (R202). -/
def execGetver (s : State) : Host.Outcome State Fault Refusal := .next (State.returnOk (s.command .getver))
/-- `GETID` (R203). -/
def execGetid (s : State) : Host.Outcome State Fault Refusal := .next (State.returnOk (s.command .getid))
/-- `MASS_ERASE` stage 1 (R204). -/
def execMassEraseCmd (s : State) : Host.Outcome State Fault Refusal := .next (State.returnOk (s.command .massEraseCmd))
/-- `MASS_ERASE` stage 2 (R204). -/
def execMassEraseParam (s : State) : Host.Outcome State Fault Refusal :=
  .next (State.returnOk (s.command .massEraseParam))
/-- `MASS_ERASE` (R204). -/
def execMassErase (s : State) : Host.Outcome State Fault Refusal := .next (State.returnOk s.massErase)
/-- `EXT_ERASE` stage 1 (R205). -/
def execExtEraseCmd (s : State) : Host.Outcome State Fault Refusal := .next (State.returnOk (s.command .extEraseCmd))
/-- `EXT_ERASE` stage 2 (R205). -/
def execExtEraseParam (s : State) : Host.Outcome State Fault Refusal :=
  .next (State.returnOk (s.command .extEraseParam))
/-- `EXT_ERASE` (R205). -/
def execExtErase (s : State) : Host.Outcome State Fault Refusal := .next (State.returnOk s.extErase)
/-- `WRITE_MEM` (R206). -/
def execWriteMem (s : State) : Host.Outcome State Fault Refusal := .next (State.returnOk (s.command .writeMem))
/-- `READ_MEM` (R207). -/
def execReadMem (s : State) : Host.Outcome State Fault Refusal := .next (State.returnOk (s.command .readMem))
/-- `LOAD_ADDR` (R208). -/
def execLoadAddr (a : Addr) (s : State) : Host.Outcome State Fault Refusal :=
  .next (State.returnOk (s.loadAddr a))
/-- `PAGE_WRITE` stage 3 (R209). -/
def execPageWriteData (p : Bytes) (s : State) : Host.Outcome State Fault Refusal :=
  .next (State.returnOk (s.pageWriteData p))
/-- `PAGE_WRITE` (R209). -/
def execPageWrite (s : State) : Host.Outcome State Fault Refusal := .next (State.returnOk s.pageWrite)
/-- `PAGE_READ` stage 3 (R210). -/
def execPageReadLen (s : State) : Host.Outcome State Fault Refusal := .next (State.returnOk (s.command .pageLen))
/-- `PAGE_READ` (R210). -/
def execPageRead (s : State) : Host.Outcome State Fault Refusal := .next (State.returnOk s.pageRead)

end Sys2Proof.Machine
end

