-- ==== Sys2Proof/Machine/Handshake.lean ====
section
/-!
DEFINITION. The Presence Detector (spec/44_handshake.md): `DETECT`.
-/
namespace Sys2Proof.Machine

/-- One attempt of `DETECT` (R240): count it, pulse the reset line only, Sync, and Get if Sync succeeded. -/
def State.detectAttempt (s : State) : State × Bool :=
  let r := ({ s with attempt := s.attempt + 1 } : State).resetPulse.command .sync
  if r.2 then r.1.command .get else (r.1, false)

/-- The attempts of `DETECT` still allowed: the backoff is waited only when another follows (R240, D6). -/
def State.detectLoop (attempts : Nat) (s : State) : State × Bool :=
  match attempts with
  | 0 => (s, false)
  | left + 1 =>
    let r := s.detectAttempt
    if r.2 then (r.1, true)
    else if left = 0 then (r.1, false)
    else State.detectLoop left (r.1.wait r.1.par.tBackoff)

/-- `DETECT -> ok` (R240). -/
def State.detect (s : State) : State × Bool :=
  State.detectLoop s.par.maxAttempts { s with attempt := 0 }

/-- `DETECT` (R240). -/
def execDetect (s : State) : Host.Outcome State Fault Refusal := .next (State.returnOk s.detect)

end Sys2Proof.Machine
end

