-- ==== Sys2Proof/Machine/Orchestrator.lean ====
section
/-!
DEFINITION. The Flash Orchestrator's helpers (spec/45_orchestrator.md): `INC_ADDR`, `FETCH_BLOCK`, and where
the sequence goes when an operation of it has returned (R265, R267 to R271, R275; inside `DETECT`, R240;
inside the composite commands, R204, R205, R209, R210).
-/
namespace Sys2Proof.Machine

/-- `INC_ADDR` (R273). -/
def State.incAddr (s : State) : State := { s with addr := stepAddr s.addr }

/-- `FETCH_BLOCK -> ok` (R274): a read of any other length than the block's is `false` and leaves `BUF`. -/
def State.fetchBlock (s : State) : State × Bool :=
  let r := s.ask (World.stoRead s.cap s.par.block)
  let t := { r.1 with nread := BitVec.ofNat 9 r.2.length }
  if r.2.length ≠ t.wantedBytes then (t, false) else ({ t with buf := padBlock t.par r.2 }, true)

/-- `INC_ADDR` (R273). -/
def execIncAddr (s : State) : Host.Outcome State Fault Refusal := .next (s.incAddr.setRet .none)

/-- `FETCH_BLOCK` (R274). -/
def execFetchBlock (s : State) : Host.Outcome State Fault Refusal := .next (State.returnOk s.fetchBlock)

/-! ### After an operation -/

/-- The first event of a stage is next. -/
def State.issue (s : State) (c : Stage) : State := s.goPos (.stage c .tx)

/-- `ENTER_BL` or `EXIT_BL` has returned: in ModeExited the result is discarded and `MODE_ENTERED` cleared
(R271), in ModeEntered it decides (R265). -/
def State.bootDone (s : State) (ok : Bool) : State :=
  match s.st with
  | .modeExited => ({ s with modeEntered := false } : State).goPos .closing
  | _ => if ok then s.goto .transportReady else s.raiseFail .unknown

/-- A `RESET_PULSE` has returned: inside `DETECT`, `SYNC` follows (R240); else it was the end of `ENTER_BL`
or `EXIT_BL` (R131, R132). -/
def State.pulseDone (s : State) : State :=
  match s.st with
  | .presenceConfirmed => s.issue .sync
  | _ => s.bootDone true

/-- An attempt of `DETECT` failed (R240): the last one fails the session (R267), else the backoff is next. -/
def State.attemptFailed (s : State) : State :=
  if s.attempt.toNat = s.par.maxAttempts then s.raiseFail .targetNotFound else s.goPos .backoff

/-- `DETECT` returned true (R267): the identification phase follows if `IDENT_PHASE` (R275). -/
def State.presenceFound (s : State) : State :=
  if s.par.identPhase then s.issue .getver else s.goto .erased

/-- `MASS_ERASE` has returned (R268): the result is recorded, not tested. -/
def State.massErased (s : State) (ok : Bool) : State := (s.setMassErased ok).issue .extEraseCmd

/-- `EXT_ERASE` has returned (R268). -/
def State.extErased (s : State) (ok : Bool) : State := (s.setExtErased ok).goto .writing

/-- The page operation of a block has returned (R269, R270): a success steps to the next block. -/
def State.pageDone (s : State) (ok : Bool) (kind : Result) : State :=
  if ok then ({ s.incAddr with blk := s.blk + 1 } : State).goPos .blocks else s.raiseFail kind

/-- A stage has returned: what its command, and the state whose work the command is, do next. -/
def State.stageDone (s : State) (c : Stage) (ok : Bool) : State :=
  match c with
  | .sync => if ok then s.issue .get else s.attemptFailed
  | .get => if ok then s.presenceFound else s.attemptFailed
  | .getver => if ok then s.issue .getid else s.raiseFail .getVersionFailed
  | .getid => if ok then s.goto .erased else s.raiseFail .getIdFailed
  | .massEraseCmd => if ok then s.issue .massEraseParam else s.massErased false
  | .massEraseParam => s.massErased ok
  | .extEraseCmd => if ok then s.issue .extEraseParam else s.extErased false
  | .extEraseParam => s.extErased ok
  | .writeMem => if ok then s.issue .writeAddr else s.pageDone false .writeFailed
  | .writeAddr => if ok then s.issue .pageData else s.pageDone false .writeFailed
  | .pageData => s.pageDone ok .writeFailed
  | .readMem => if ok then s.issue .readAddr else s.pageDone false .readFailed
  | .readAddr => s.issue .pageLen
  | .pageLen => s.pageDone ok .readFailed

end Sys2Proof.Machine
end

