-- ==== Sys2Proof/Machine/Sequence.lean ====
section
/-!
DEFINITION. The sequence (spec/45_orchestrator.md R260 to R272, R275), one event a step (spec/92_eei_decisions.md
D33): at each position the event that is next, what the rules compute from its answer, and the next position;
and `FLASH`, the sequence from start to Done. A step of the sequence makes one event or none (log 2).
-/
namespace Sys2Proof.Machine

/-! ### Inside an exchange (R150 to R154) -/

/-- `Tx` of the stage's frame; a send-count mismatch ends the exchange (D7), else `AWAIT` starts. -/
def State.stageTx (s : State) (c : Stage) : State :=
  let f := s.stageFrame c
  let r := f.1.send f.2
  if r.2 ≠ f.2.length then (r.1.setXok false).stageDone c false
  else ({ r.1 with elapsed := 0 } : State).goPos (.stage c .poll)

/-- `RxLen`: wait on, or leave `AWAIT` with a timeout or a response. -/
def State.stagePoll (s : State) (c : Stage) : State :=
  let r := s.poll (c.response s.par) s.par.timeout
  match r.2 with
  | none => r.1.goPos (.stage c .pause)
  | some L => if L = 0 then (r.1.setXok false).stageDone c false else r.1.goPos (.stage c .pop)

/-- `Wait(POLL_INTERVAL)`. -/
def State.stagePause (s : State) (c : Stage) : State := s.pause.goPos (.stage c .poll)

/-- `RxPop` of the response; its first byte decides. With fewer bytes buffered, which no session reaches, it
takes those (log 21). -/
def State.stagePop (s : State) (c : Stage) : State :=
  let r := s.takeResponse (c.response s.par)
  r.1.stageDone c r.2

/-- The next event of a stage. -/
def State.stageStep (s : State) (c : Stage) (x : ExchangePos) : State :=
  match x with
  | .tx => s.stageTx c
  | .poll => s.stagePoll c
  | .pause => s.stagePause c
  | .pop => s.stagePop c

/-! ### Inside the boot-mode operations (R130 to R133) -/

/-- The next event of a reset pulse. -/
def State.pulseStep (s : State) (p : PulsePos) : State :=
  match p with
  | .low => (s.setLevel .reset false).goPos (.pulse .hold)
  | .hold => (s.wait s.par.tResetLow).goPos (.pulse .high)
  | .high => (s.setLevel .reset true).goPos (.pulse .settle)
  | .settle => (s.wait s.par.tSettle).pulseDone

/-- `SetDir(RESET)`, the first event of `ENTER_BL` and `EXIT_BL`. -/
def State.configReset (s : State) : State :=
  let r := s.setDir .reset
  r.1.goPos (.dirBoot r.2)

/-- `SetDir(BOOT)`, always made; both answers decide. -/
def State.configBoot (s : State) (ok1 : Bool) : State :=
  let r := s.setDir .boot
  if ok1 && r.2 then r.1.goPos .level else r.1.bootDone false

/-- `SetLevel(BOOT, v)`: low in ModeExited (`EXIT_BL`), high in ModeEntered (`ENTER_BL`). -/
def State.driveBoot (s : State) : State :=
  (s.setLevel .boot (s.st != .modeExited)).goPos (.pulse .low)

/-- The next event of `ENTER_BL` or `EXIT_BL` after the first. -/
def State.bootStep (s : State) (p : Pos) : State :=
  match p with
  | .dirBoot ok1 => s.configBoot ok1
  | .level => s.driveBoot
  | .pulse p => s.pulseStep p
  | _ => s.configReset

/-! ### The states' work -/

/-- ConfigValidated (R262): no provider is called. -/
def State.validateConfig (s : State) : State :=
  if cfgValid s.par s.cfg then s.goto .storageReady else s.raiseFail .configurationInvalid

/-- StorageReady (R263). -/
def State.mountStorage (s : State) : State :=
  let r := s.ask (World.stoMount s.cap)
  if r.2 then r.1.goto .imageLocated else r.1.raiseFail .transportInitFailed

/-- ImageLocated (R264): open the image. -/
def State.openImage (s : State) : State :=
  let r := s.ask (World.stoOpen s.cap s.name)
  if r.2 then ({ r.1 with imgOpen := true } : State).goPos .size else r.1.raiseFail .imageNotFound

/-- ImageLocated after a successful open (R264): size the image; empty before too large. The tests are
made on the provider's answer (log 10). `MODE_ENTERED` is set as `ST` becomes ModeEntered (R25, R265). -/
def State.sizeImage (s : State) : State :=
  let r := s.ask (World.stoSize s.cap)
  let t := { r.1 with imgSize := BitVec.ofNat 32 r.2 }
  if r.2 = 0 then t.raiseFail .imageEmpty
  else if t.par.maxImage < r.2 then t.raiseFail .imageTooLarge
  else
    ({ t with nblk := BitVec.ofNat 16 (blocksOf t.par r.2), modeEntered := true } : State).goto .modeEntered

/-- TransportReady (R266): configure the UART. -/
def State.configureUart (s : State) : State :=
  let r := s.ask (World.uartConfigure s.cap s.cfg.ch s.par.uart)
  r.1.goPos (.pins r.2)

/-- TransportReady (R266): set the pins, whatever the configuration answered; both answers decide (D24). -/
def State.setPins (s : State) (ok1 : Bool) : State :=
  let r := s.ask (World.uartSetPins s.cap s.cfg)
  if ok1 && r.2 then r.1.goto .presenceConfirmed else r.1.raiseFail .transportInitFailed

/-- An attempt of `DETECT` starts (R240): it is counted, and its pulse's first event made. -/
def State.startAttempt (s : State) : State :=
  ({ s with attempt := s.attempt + 1 } : State).pulseStep .low

/-- `Wait(T_BACKOFF)`; the next attempt's pulse follows (R240). -/
def State.backOff (s : State) : State := (s.wait s.par.tBackoff).goPos (.pulse .low)

/-- The start of a block phase: `ADDR <- BASE_ADDR; BLK <- 0` (R269, R270). -/
def State.seedBlocks (s : State) : State :=
  ({ s with addr := s.par.baseAddr, blk := 0 } : State).goPos .blocks

/-- Reading, its start (R270): the image is rewound (D27). -/
def State.seedReading (s : State) : State := (s.tell (World.stoRewind s.cap)).seedBlocks

/-- The head of a block loop (R269, R270): fetch the next block for the page operation that starts with the
stage `page`, or leave for `after`. -/
def State.nextBlock (s : State) (page : Stage) (after : St) : State :=
  if s.blk.toNat < s.nblk.toNat then
    let r := s.fetchBlock
    if r.2 then r.1.issue page else r.1.raiseFail .imageUnreadable
  else s.goto after

/-- ModeExited, its start (R271): `EXIT_BL` if and only if `MODE_ENTERED`. -/
def State.startCleanup (s : State) : State :=
  if s.modeEntered then s.configReset else s.goPos .closing

/-- ModeExited after the boot-mode exit (R271): close the image if open; then Done. -/
def State.cleanupImage (s : State) : State :=
  if s.imgOpen then { s.tell (World.stoClose s.cap) with imgOpen := false } else s.endSession

/-- One step of the sequence from the current state and position: one event, or a transition that makes
none. In Idle and Done nothing happens. A position of another state, which no session reaches, starts the work
again (log 2). -/
def State.seqStep (s : State) : State :=
  match s.st with
  | .idle => s
  | .configValidated => s.validateConfig
  | .storageReady => s.mountStorage
  | .imageLocated =>
    match s.pos with
    | .size => s.sizeImage
    | _ => s.openImage
  | .modeEntered => s.bootStep s.pos
  | .transportReady =>
    match s.pos with
    | .pins ok1 => s.setPins ok1
    | _ => s.configureUart
  | .presenceConfirmed =>
    match s.pos with
    | .pulse .low => s.startAttempt
    | .pulse p => s.pulseStep p
    | .stage c x => s.stageStep c x
    | .backoff => s.backOff
    | _ => ({ s with attempt := 0 } : State).startAttempt
  | .erased =>
    match s.pos with
    | .stage c x => s.stageStep c x
    | _ => s.stageTx .massEraseCmd
  | .writing =>
    match s.pos with
    | .blocks => s.nextBlock .writeMem .reading
    | .stage c x => s.stageStep c x
    | _ => s.seedBlocks
  | .reading =>
    match s.pos with
    | .blocks => s.nextBlock .readMem .modeExited
    | .stage c x => s.stageStep c x
    | _ => s.seedReading
  | .modeExited =>
    match s.pos with
    | .entry => s.startCleanup
    | .closing => s.cleanupImage
    | p => s.bootStep p
  | .done => s

/-! ### The session as one operation -/

/-- The sequence run for at most `fuel` steps, until it is in Idle or Done. -/
def State.runSequence (fuel : Nat) (s : State) : State :=
  match fuel with
  | 0 => s
  | fuel + 1 => if s.busy then State.runSequence fuel s.seqStep else s

/-- The most steps one exchange takes: `Tx`, at most `TIMEOUT + 1` polls with a wait between two, `RxPop`. -/
def exchangeSteps (par : Params) : Nat := 2 * par.timeout + 3

/-- Enough steps for any session of a machine with `POLL_INTERVAL >= 1` (D3, log 24): an attempt of `DETECT`
is a pulse, two exchanges and a backoff; there are at most 6 exchanges in the identification phase and
Erased; each of the two phases takes at most a fetch and three exchanges for each of at most `2^16 - 1`
blocks and two steps more; the rest is 40 at most. With `POLL_INTERVAL` 0 no number would do. -/
def sequenceFuel (par : Params) : Nat :=
  match par.pollInterval with
  | 0 => 0
  | _ + 1 =>
    par.maxAttempts * (2 * exchangeSteps par + 5) + 6 * exchangeSteps par
      + 2 * (2 ^ 16 * (3 * exchangeSteps par + 1)) + 40

/-- `FLASH cfg, name -> result` (R260): start (R261) and the whole session, to Done. While BUSY it is
refused in the spec's sense: no state change, no event (U1). -/
def State.flash (s : State) (cfg : Cfg) (name : Name) : State :=
  if s.busy then s
  else
    let t := State.runSequence (sequenceFuel s.par) (s.startSession cfg name)
    t.setRet (.result t.result)

/-- `FLASH` (R260). -/
def execFlash (cfg : Cfg) (name : Name) (s : State) : Host.Outcome State Fault Refusal :=
  .next (s.flash cfg name)

end Sys2Proof.Machine
end

