-- ==== Sys2Proof/Machine/Dispatch.lean ====
section
/-!
DEFINITION. The meaning of every operation: one arm per constructor of Instr.
-/
namespace Sys2Proof.Machine

def exec (i : Instr) (s : State) : Host.Outcome State Fault Refusal :=
  match i with
  | .sync => Sys2Proof.Machine.execSync s
  | .get => Sys2Proof.Machine.execGet s
  | .getver => Sys2Proof.Machine.execGetver s
  | .getid => Sys2Proof.Machine.execGetid s
  | .massEraseCmd => Sys2Proof.Machine.execMassEraseCmd s
  | .massEraseParam => Sys2Proof.Machine.execMassEraseParam s
  | .massErase => Sys2Proof.Machine.execMassErase s
  | .extEraseCmd => Sys2Proof.Machine.execExtEraseCmd s
  | .extEraseParam => Sys2Proof.Machine.execExtEraseParam s
  | .extErase => Sys2Proof.Machine.execExtErase s
  | .writeMem => Sys2Proof.Machine.execWriteMem s
  | .readMem => Sys2Proof.Machine.execReadMem s
  | .loadAddr a => Sys2Proof.Machine.execLoadAddr a s
  | .pageWriteData p => Sys2Proof.Machine.execPageWriteData p s
  | .pageWrite => Sys2Proof.Machine.execPageWrite s
  | .pageReadLen => Sys2Proof.Machine.execPageReadLen s
  | .pageRead => Sys2Proof.Machine.execPageRead s
  | .ack => Sys2Proof.Machine.execAck s
  | .configLines => Sys2Proof.Machine.execConfigLines s
  | .resetPulse => Sys2Proof.Machine.execResetPulse s
  | .enterBl => Sys2Proof.Machine.execEnterBl s
  | .exitBl => Sys2Proof.Machine.execExitBl s
  | .send bs => Sys2Proof.Machine.execSend bs s
  | .awaitBytes n T => Sys2Proof.Machine.execAwait n T s
  | .readExact n => Sys2Proof.Machine.execReadExact n s
  | .classify b => Sys2Proof.Machine.execClassify b s
  | .exchange bs n => Sys2Proof.Machine.execExchange bs n s
  | .compl b => Sys2Proof.Machine.execCompl b s
  | .xor8 seed bs => Sys2Proof.Machine.execXor8 seed bs s
  | .cmdframe op => Sys2Proof.Machine.execCmdframe op s
  | .addrframe a => Sys2Proof.Machine.execAddrframe a s
  | .dataframe p => Sys2Proof.Machine.execDataframe p s
  | .lenparam n => Sys2Proof.Machine.execLenparam n s
  | .detect => Sys2Proof.Machine.execDetect s
  | .incAddr => Sys2Proof.Machine.execIncAddr s
  | .fetchBlock => Sys2Proof.Machine.execFetchBlock s
  | .flash cfg name => Sys2Proof.Machine.execFlash cfg name s

end Sys2Proof.Machine
end

