-- ==== Sys2Proof/Machine/Fetch.lean ====
section
/-!
DEFINITION. What the next step does. The block fetches no instruction (spec/20_memory.md R82): at each step
the ports are sampled (D2), then an operation placed in the model's slot runs on its own (log 1), else the
sequence takes its next step, one event (R260 to R272, D33).
-/
namespace Sys2Proof.Machine

/-- What the ports present at the coming step. -/
def State.input (s : State) : Input :=
  match s.inputs with
  | [] => .none
  | i :: _ => i

/-- The ports after the step has sampled them. -/
def State.popInput (s : State) : State := { s with inputs := s.inputs.tail }

/-- The state an operation from the slot runs in. -/
def State.takeSlot (s : State) : State := { s.popInput with slot := none }

/-- What a step does: run one operation in a state, move to a state, or stop. -/
inductive Selected
  | run (i : Instr) (s : State)
  | move (s : State)
  | stop (f : Fault)

/-- A step without an operation of its own: a `start` in Idle or Done begins a session (R261, D21); while
BUSY it is dropped (U1); otherwise the sequence goes on. -/
def State.advance (s : State) : State :=
  match s.input with
  | .start cfg name => if s.busy then s.popInput.seqStep else s.popInput.startSession cfg name
  | .none => s.popInput.seqStep
  | .rst => s.popInput.hwReset

/-- The choice of a step: `rst` first (R340), then the slot, then the sequence. -/
def select (s : State) : Selected :=
  match s.input with
  | .rst => .move s.popInput.hwReset
  | _ =>
    match s.slot with
    | some (.oper i) => .run i s.takeSlot
    | some (.frame ctx bs) =>
      match decode s.par ctx bs with
      | .ok i => .run i s.takeSlot
      | .error why => .stop (.notAFrame why)
    | none => .move s.advance

/-- The state with a table word placed in the slot and no input at the coming step (log 1, 15, 16). -/
def State.placeWord (s : State) (nbits w : Nat) : State :=
  { s with
    slot := some (.frame .afterMassErase (tableBytes (nbits / 8) w))
    inputs := .none :: s.inputs }

end Sys2Proof.Machine
end

