-- ==== Sys2Proof/Machine/Step.lean ====
section
/-!
DEFINITION. One step: what `select` chooses, an operation through `exec`.
-/
namespace Sys2Proof.Machine

/-- One step of the machine. -/
def step (s : State) : Host.Outcome State Fault Refusal :=
  match select s with
  | .run i t => exec i t
  | .move t => .next t
  | .stop f => .fault f

/-- The state in which the very next step runs the operation a table word decodes to (log 1). -/
def State.withFetchWord (s : State) (nbits w : Nat) : State := s.placeWord nbits w

end Sys2Proof.Machine
end

