-- ==== Sys2Proof/Safety.lean ====
section
/-!
DEFINITION. The terms the statements use: which registers a family of operations may write (its frame),
the sizes of the byte registers, the legal positions, the session invariant behind the cleanup guarantee
(spec/60_exceptions.md R315), several steps in a row, the attempts of `DETECT` (spec/44_handshake.md R240),
and what the event trace (spec/20_memory.md R76) says was sent, received, consumed, pulsed, opened and
closed.
-/
namespace Sys2Proof.Machine

/-- Nothing but `TXCNT`, `ELAPSED`, `LOBS`, `RSP`, `XOK`, the environment and the value returned differs:
what the transport (R150 to R154) may write. -/
def OnlyTransport (s t : State) : Prop :=
  t = { s with
    world := t.world, txcnt := t.txcnt, elapsed := t.elapsed, lobs := t.lobs, rsp := t.rsp, xok := t.xok
    ret := t.ret }

/-- As `OnlyTransport`, and `CSUM`: what a command (R199 to R210) may write. -/
def OnlyCommand (s t : State) : Prop :=
  t = { s with
    world := t.world, txcnt := t.txcnt, elapsed := t.elapsed, lobs := t.lobs, rsp := t.rsp, xok := t.xok
    csum := t.csum, ret := t.ret }

/-- As `OnlyTransport`, and `ATTEMPT` and `NRST`: what `DETECT` (R240) may write. -/
def OnlyDetect (s t : State) : Prop :=
  t = { s with
    world := t.world, txcnt := t.txcnt, elapsed := t.elapsed, lobs := t.lobs, rsp := t.rsp, xok := t.xok
    attempt := t.attempt, nrst := t.nrst, ret := t.ret }

/-- Nothing but the two line registers, the environment and the value returned differs: what the boot-mode
operations (R130 to R133) may write. -/
def OnlyLines (s t : State) : Prop :=
  t = { s with world := t.world, bootSel := t.bootSel, nrst := t.nrst, ret := t.ret }

/-- Nothing but what a transition of the sequence writes differs: `ST` and the position, `RESULT`,
`ERASE_STAT`, `MODE_ENTERED`, and the step to the next block (`ADDR`, `BLK`). -/
def OnlyControl (s t : State) : Prop :=
  t = { s with
    st := t.st, pos := t.pos, result := t.result, eraseStat := t.eraseStat, modeEntered := t.modeEntered
    addr := t.addr, blk := t.blk }

/-- `BUF` holds a block and `RSP` its 257 bytes (R20), and the image has its canonical form. -/
def State.sized (s : State) : Prop :=
  s.buf.length = s.par.block ∧ s.rsp.length = Config.rspBytes ∧ Memory.wf s.world.img = true

/-- The state whose work a stage belongs to (R240, R275, R268, R269, R270). -/
def Stage.home : Stage → St
  | .sync => .presenceConfirmed
  | .get => .presenceConfirmed
  | .getver => .presenceConfirmed
  | .getid => .presenceConfirmed
  | .massEraseCmd => .erased
  | .massEraseParam => .erased
  | .extEraseCmd => .erased
  | .extEraseParam => .erased
  | .writeMem => .writing
  | .writeAddr => .writing
  | .pageData => .writing
  | .readMem => .reading
  | .readAddr => .reading
  | .pageLen => .reading

/-- The positions each state's work has (R21). -/
def legalPos (st : St) (p : Pos) : Bool :=
  match p with
  | .entry => true
  | .size => st == .imageLocated
  | .dirBoot _ => st == .modeEntered || st == .modeExited
  | .level => st == .modeEntered || st == .modeExited
  | .pulse _ => st == .modeEntered || st == .presenceConfirmed || st == .modeExited
  | .pins _ => st == .transportReady
  | .stage c _ => st == c.home
  | .backoff => st == .presenceConfirmed
  | .blocks => st == .writing || st == .reading
  | .closing => st == .modeExited

/-- The positions inside `ENTER_BL` and `EXIT_BL` after their first event. -/
def Pos.inBootOp : Pos → Bool
  | .dirBoot _ => true
  | .level => true
  | .pulse _ => true
  | _ => false

/-- The positions at which the reset line is held low (R130). -/
def Pos.resetHeld : Pos → Bool
  | .pulse .hold => true
  | .pulse .high => true
  | _ => false

/-- The states of the chain in which the target is held in bootloader mode: from the end of ModeEntered to
the start of ModeExited (R320). -/
def St.inBootloader : St → Bool
  | .transportReady => true
  | .presenceConfirmed => true
  | .erased => true
  | .writing => true
  | .reading => true
  | _ => false

/-- What holds between two events of the sequence (R25, R130, R271, R310, R315): no operation is placed in
the slot; the position is one of the state's; `NRST` is low exactly while a pulse holds it; before ModeExited
no failure is recorded; the image is open from its successful open to its close in ModeExited; `MODE_ENTERED`
is 1 from ModeEntered to the end of the boot-mode exit, and then the image is open; `BOOT_SEL` is high during
the pulse of ModeEntered and from TransportReady to ModeExited, and low during the pulse of ModeExited; in
Idle and Done both flags are clear; in the block phases `BLK` does not pass `NBLK`, and is below it inside a
page operation; where a response is popped next, it is buffered (R152, U3). -/
structure State.sessionOk (s : State) : Prop where
  noSlot : s.slot = none
  sized : s.sized
  legal : legalPos s.st s.pos = true
  nrst : s.nrst = !s.pos.resetHeld
  noFailure : s.st ≠ .modeExited → s.st ≠ .done → s.result = .success
  opened : (s.st = .imageLocated ∧ s.pos = .size) ∨ s.st = .modeEntered ∨ s.st.inBootloader = true →
    s.imgOpen = true
  entered : s.st = .modeEntered ∨ s.st.inBootloader = true ∨ (s.st = .modeExited ∧ s.pos.inBootOp = true) →
    s.modeEntered = true
  mode : s.modeEntered = true →
    (s.st = .modeEntered ∨ s.st.inBootloader = true ∨ (s.st = .modeExited ∧ s.pos ≠ .closing))
      ∧ s.imgOpen = true
  image : s.imgOpen = true →
    (s.st = .imageLocated ∧ s.pos = .size) ∨ s.st = .modeEntered ∨ s.st.inBootloader = true
      ∨ s.st = .modeExited
  bootHigh : s.st.inBootloader = true ∨ (s.st = .modeEntered ∧ ∃ p, s.pos = .pulse p) → s.bootSel = true
  bootLow : s.st = .modeExited → (∃ p, s.pos = .pulse p) → s.bootSel = false
  bound : s.st = .writing ∨ s.st = .reading → s.pos = .blocks → s.blk.toNat ≤ s.nblk.toNat
  inside : s.st = .writing ∨ s.st = .reading → (∃ c x, s.pos = .stage c x) → s.blk.toNat < s.nblk.toNat
  buffered : ∀ c, s.pos = .stage c .pop → c.response s.par ≤ s.world.rxq.length

/-- In the block loops `ADDR` is `BASE_ADDR` stepped `BLK` times (R276). -/
def State.addressOk (s : State) : Prop :=
  s.st = .writing ∨ s.st = .reading → s.pos ≠ .entry →
    s.addr = stepAddr^[s.blk.toNat] s.par.baseAddr

/-- Some number of steps of the machine leads from `s` to `t`. -/
def Reaches (s t : State) : Prop := ∃ k, Sys2Proof.core.run k s = .next t

/-- The sequence is at a state and position, and neither a placed operation nor the ports intervene: what
follows is the session's own (log 1, 13). -/
def State.undisturbed (s : State) (st : St) (pos : Pos) : Prop :=
  s.st = st ∧ s.pos = pos ∧ s.slot = none ∧ s.inputs = []

/-- The attempts of `DETECT` (R240) from a state that has counted the ones before, to the state it ends in,
said with the operations it is made of: count, pulse, `SYNC`, and `GET` if `SYNC` succeeded; success ends
it; a failure ends it where `MAX_ATTEMPTS` are counted, else `Wait(T_BACKOFF)` and the next attempt. -/
inductive Attempts : State → State → Prop
  /-- Both commands succeed. -/
  | found {s u v t : State} : exec .resetPulse { s with attempt := s.attempt + 1 } = .next u →
      exec .sync u = .next v → v.ret = .ok true → exec .get v = .next t → t.ret = .ok true →
      Attempts s t
  /-- `SYNC` fails in the last attempt. -/
  | lastSync {s u t : State} : exec .resetPulse { s with attempt := s.attempt + 1 } = .next u →
      exec .sync u = .next t → t.ret = .ok false → t.attempt.toNat = s.par.maxAttempts → Attempts s t
  /-- `GET` fails in the last attempt. -/
  | lastGet {s u v t : State} : exec .resetPulse { s with attempt := s.attempt + 1 } = .next u →
      exec .sync u = .next v → v.ret = .ok true → exec .get v = .next t → t.ret = .ok false →
      t.attempt.toNat = s.par.maxAttempts → Attempts s t
  /-- `SYNC` fails and another attempt follows. -/
  | againSync {s u v t : State} : exec .resetPulse { s with attempt := s.attempt + 1 } = .next u →
      exec .sync u = .next v → v.ret = .ok false → v.attempt.toNat < s.par.maxAttempts →
      Attempts (v.wait s.par.tBackoff) t → Attempts s t
  /-- `GET` fails and another attempt follows. -/
  | againGet {s u v w t : State} : exec .resetPulse { s with attempt := s.attempt + 1 } = .next u →
      exec .sync u = .next v → v.ret = .ok true → exec .get v = .next w → w.ret = .ok false →
      w.attempt.toNat < s.par.maxAttempts → Attempts (w.wait s.par.tBackoff) t → Attempts s t

/-- Two states that differ in nothing but the bytes of the last response (`RSP`) and the record of events:
neither is read by a rule but the first byte of a response, at the event that brings it (R31, R82). -/
def SameButResponse (s t : State) : Prop :=
  t = { s with rsp := t.rsp, world := { s.world with trace := t.world.trace } }

/-- What a list of events, oldest first, makes of `RXQ` (R39(a), R64, R157): before each provider call or
wait the target's next bytes enter (`World.tick`, log 4, 5); `RxLen` sees the length and takes nothing;
`RxPop(n)` takes the `n` oldest; no other event takes a byte. -/
def rxFollows (cap : Nat) : World → List Event → World → Prop
  | w, [], v => v.rxq = w.rxq ∧ v.arrivals = w.arrivals ∧ v.moment = w.moment
  | w, .rxLen _ n :: later, v => n = (w.tick cap).rxq.length ∧ rxFollows cap (w.tick cap) later v
  | w, .rxPop _ n bs :: later, v =>
    bs = (w.tick cap).rxq.take n
      ∧ rxFollows cap { w.tick cap with rxq := (w.tick cap).rxq.drop n } later v
  | w, .result _ :: later, v => rxFollows cap w later v
  | w, _ :: later, v => rxFollows cap (w.tick cap) later v

/-- The bytes a trace says were accepted by `Tx`, oldest first. -/
def sentBytes : List Event → Bytes
  | [] => []
  | .tx _ bs c :: older => sentBytes older ++ bs.take c
  | _ :: older => sentBytes older

/-- The bytes a trace says were consumed from `RXQ`, oldest first. -/
def consumedBytes : List Event → Bytes
  | [] => []
  | .rxPop _ _ bs :: older => consumedBytes older ++ bs
  | _ :: older => consumedBytes older

/-- Reset pulses in a trace, counted by the falling level of the reset line (R135). -/
def pulses : List Event → Nat
  | [] => 0
  | .setLevel .reset _ false :: older => pulses older + 1
  | _ :: older => pulses older

/-- How often a trace drives the boot-mode line to `level` (R131, R132). -/
def bootDrives (level : Bool) : List Event → Nat
  | [] => 0
  | .setLevel .boot _ v :: older => bootDrives level older + (if v = level then 1 else 0)
  | _ :: older => bootDrives level older

/-- Successful opens of the image in a trace. -/
def imageOpens : List Event → Nat
  | [] => 0
  | .stoOpen _ true :: older => imageOpens older + 1
  | _ :: older => imageOpens older

/-- Closes of the image in a trace. -/
def imageCloses : List Event → Nat
  | [] => 0
  | .stoClose :: older => imageCloses older + 1
  | _ :: older => imageCloses older

end Sys2Proof.Machine
end

