-- ==== Sys2Proof/Certificates/Slice0/Obligations.lean ====
section
/-!
DEFINITION. The statements for the provers, from the numbered rules of spec/. A statement about "the next
step of the sequence" has the hypotheses that no operation is placed in the model's slot and that the ports
present nothing (log 1, 13).
-/
open Sys2Proof Sys2Proof.Machine

/-! ### Reset and session start -/

/-- R41: the reset values the spec gives. -/
def Obligations.ResetStateHoldsTheSpecValues : Prop :=
  State.reset.st = .idle ∧ State.reset.result = .success ∧ State.reset.imgOpen = false
    ∧ State.reset.modeEntered = false ∧ State.reset.eraseStat = 0 ∧ State.reset.attempt = 0
    ∧ State.reset.elapsed = 0 ∧ State.reset.lobs = 0 ∧ State.reset.txcnt = 0 ∧ State.reset.xok = false
    ∧ State.reset.bootSel = false ∧ State.reset.nrst = true
    ∧ State.reset.busy = false ∧ State.reset.done = false

/-- R340: `rst` gives every register its reset value, calls no provider, touches nothing outside the
block; then nothing happens until `start`. It is said of every state, while BUSY and with an operation placed
too, which R341 and U2 ask to keep outside the admitted behaviours and the model admits with the effect U2
gives (the model's choice, log 14). -/
def Obligations.HardwareResetRestoresRegistersOnly : Prop :=
  ∀ (s : State) (rest : List Input), s.inputs = .rst :: rest →
    ∃ t, step s = .next t
      ∧ t.st = .idle ∧ t.result = .success ∧ t.imgOpen = false ∧ t.modeEntered = false
      ∧ t.eraseStat = 0 ∧ t.attempt = 0 ∧ t.elapsed = 0 ∧ t.lobs = 0 ∧ t.txcnt = 0 ∧ t.xok = false
      ∧ t.bootSel = false ∧ t.nrst = true ∧ t.busy = false ∧ t.done = false
      ∧ t.world = s.world ∧ t.par = s.par
      ∧ (rest = [] → step t = .next t)

/-- R40, R261, R272: in Idle and Done nothing happens without a `start`; with one the session registers are
written and every other register keeps what it held. -/
def Obligations.SessionBeginsOnlyWithAStart : Prop :=
  ∀ (s : State), (s.st = .idle ∨ s.st = .done) → s.slot = none →
    (s.input = .none → step s = .next { s with inputs := s.inputs.tail })
    ∧ (∀ c nm rest, s.inputs = .start c nm :: rest →
      step s = .next { s with
        cfg := c, result := .success, imgOpen := false, modeEntered := false, eraseStat := 0, attempt := 0
        xok := false, st := .configValidated, pos := .entry, name := nm, inputs := rest })

/-- U1, D21: a `start` while BUSY changes nothing and makes no event; `FLASH` invoked while BUSY is turned
away in the same way. -/
def Obligations.StartWhileBusyIsTurnedAway : Prop :=
  ∀ (s : State) (c : Cfg) (nm : Name) (rest : List Input), s.st ≠ .idle → s.st ≠ .done →
    exec (.flash c nm) s = .next s
    ∧ (s.slot = none →
        step { s with inputs := .start c nm :: rest } = step { s with inputs := .none :: rest })

/-! ### Codec -/

/-- R180: `COMPL` returns `255 - b` and its laws. -/
def Obligations.ComplementInvertsEveryBit : Prop :=
  (∀ (s : State) (b : Byte), exec (.compl b) s = .next { s with ret := .byte (255 - b) })
    ∧ (∀ b : Byte, complement (complement b) = b)
    ∧ (∀ b : Byte, b ^^^ complement b = 0xFF)
    ∧ Function.Bijective complement

/-- R181: `XOR8` leaves the exclusive-or of the seed and every byte in `CSUM`, returns it, and writes
nothing else; and the laws of the fold. -/
def Obligations.ExclusiveOrFoldObeysItsLaws : Prop :=
  (∀ (s : State) (seed : Byte) (bs : Bytes),
      exec (.xor8 seed bs) s = .next { s with
        csum := bs.foldr (fun b c => b ^^^ c) seed
        ret := .byte (bs.foldr (fun b c => b ^^^ c) seed) })
    ∧ (∀ (seed : Byte) (bs bs' : Bytes), bs.Perm bs' → xorFold seed bs = xorFold seed bs')
    ∧ (∀ (seed : Byte) (bs bs' : Bytes), xorFold seed (bs ++ bs') = xorFold (xorFold seed bs) bs')
    ∧ (∀ seed : Byte, xorFold seed [] = seed)
    ∧ (∀ (a b : Byte) (bs : Bytes), xorFold (a ^^^ b) bs = a ^^^ xorFold b bs)
    ∧ (∀ bs : Bytes, xorFold 0 (bs ++ [xorFold 0 bs]) = 0)
    ∧ (∀ (seed : Byte) (bs : Bytes) (i : Nat) (h : i < bs.length) (m : Byte),
        xorFold seed (bs.set i (bs[i] ^^^ m)) = xorFold seed bs ^^^ m)
    ∧ (∀ (seed : Byte) (bs : Bytes) (i j : Nat) (hi : i < bs.length) (hj : j < bs.length) (m : Byte),
        i ≠ j → xorFold seed ((bs.set i (bs[i] ^^^ m)).set j (bs[j] ^^^ m)) = xorFold seed bs)
    ∧ (∀ (seed b : Byte) (k : Nat), xorFold seed (List.replicate (2 * k) b) = seed)

/-- R182, R183, R185: `CMDFRAME` and `LENPARAM` return a byte and its complement, for every byte, and write
no register; `ADDRFRAME` returns the four bytes and their exclusive-or (seed 00), left in `CSUM`. -/
def Obligations.ShortFramesHaveTheirCheckByte : Prop :=
  ∀ s : State,
    (∀ b : Byte, exec (.cmdframe b) s = .next { s with ret := .bytes [b, b ^^^ 0xFF] }
      ∧ exec (.lenparam b) s = .next { s with ret := .bytes [b, b ^^^ 0xFF] })
    ∧ (∀ a : Addr, exec (.addrframe a) s = .next { s with
        csum := a.a0 ^^^ a.a1 ^^^ a.a2 ^^^ a.a3
        ret := .bytes [a.a0, a.a1, a.a2, a.a3, a.a0 ^^^ a.a1 ^^^ a.a2 ^^^ a.a3] })

/-- R184: the data frame is FF, the 256 payload bytes and the checksum seeded with `PAGE_CSUM_SEED`; with
the normative seed FF the checksum is the exclusive-or of the payload alone. -/
def Obligations.DataFrameChecksumCoversIndicatorAndPayload : Prop :=
  ∀ (s : State) (p : Bytes), s.par.lenInd = 0xFF → p.length = 256 →
    ∃ c : Byte,
      exec (.dataframe p) s = .next { s with csum := c, ret := .bytes (0xFF :: (p ++ [c])) }
      ∧ (0xFF :: (p ++ [c]) : Bytes).length = 258
      ∧ c = s.par.pageCsumSeed ^^^ 0xFF ^^^ xorFold 0 p
      ∧ (s.par.pageCsumSeed = 0xFF → c = xorFold 0 p)

/-! ### Boot mode -/

/-- R133: both lines are configured, reset line first, both calls always made; the result is their
conjunction; no level changes. That no time passes is R39(c), which the model follows against U9 (its
choice, log 6); a scripted answer is the answer (log 3). -/
def Obligations.ConfigLinesAlwaysMakesBothCalls : Prop :=
  ∀ s : State, ∃ t ok1 ok2, exec .configLines s = .next t
    ∧ t.ret = .ok (ok1 && ok2)
    ∧ t.world.trace = .setDir .boot s.cfg.boot ok2 :: .setDir .reset s.cfg.reset ok1 :: s.world.trace
    ∧ t.world.now = s.world.now
    ∧ t = { s with world := t.world, ret := t.ret }
    ∧ (∀ a b rest, s.world.dirOk = a :: b :: rest → ok1 = a ∧ ok2 = b)

/-- R130: the four events of the pulse in order; `NRST` ends high; `BOOT_SEL` is not written; `NOW`
advances by at least the two delays; `RXQ` loses nothing. -/
def Obligations.ResetPulseDrivesTheResetLineOnly : Prop :=
  ∀ s : State, ∃ t, exec .resetPulse s = .next t
    ∧ t.world.trace = .wait s.par.tSettle :: .setLevel .reset s.cfg.reset true
        :: .wait s.par.tResetLow :: .setLevel .reset s.cfg.reset false :: s.world.trace
    ∧ s.world.now + s.par.tResetLow + s.par.tSettle ≤ t.world.now
    ∧ s.world.rxq <+: t.world.rxq
    ∧ t = { s with world := t.world, nrst := true, ret := .none }

/-- R131, R132: `ENTER_BL` and `EXIT_BL` configure both lines, then drive the boot-mode line (high for
`ENTER_BL`, low for `EXIT_BL`) before the pulse; where the configuration fails no level changes and no time
passes (R131's words; that a provider call takes no time is the model's choice, log 6; a scripted answer is
the answer, log 3). -/
def Obligations.BootModeIsDrivenBeforeThePulse : Prop :=
  ∀ (s : State) (i : Instr) (level : Bool), (i = .enterBl ∧ level = true ∨ i = .exitBl ∧ level = false) →
    ∃ t ok1 ok2, exec i s = .next t ∧ t.ret = .ok (ok1 && ok2)
      ∧ (∀ a b rest, s.world.dirOk = a :: b :: rest → ok1 = a ∧ ok2 = b)
      ∧ (if ok1 && ok2 then
          t = { s with world := t.world, bootSel := level, nrst := true, ret := t.ret }
          ∧ t.world.trace = .wait s.par.tSettle :: .setLevel .reset s.cfg.reset true
            :: .wait s.par.tResetLow :: .setLevel .reset s.cfg.reset false
            :: .setLevel .boot s.cfg.boot level
            :: .setDir .boot s.cfg.boot ok2 :: .setDir .reset s.cfg.reset ok1 :: s.world.trace
          ∧ s.world.now + s.par.tResetLow + s.par.tSettle ≤ t.world.now
        else
          t = { s with world := t.world, ret := t.ret }
          ∧ t.world.trace = .setDir .boot s.cfg.boot ok2 :: .setDir .reset s.cfg.reset ok1 :: s.world.trace
          ∧ t.world.now = s.world.now)

/-! ### Transport -/

/-- R150, R63: `SEND` is one `Tx`; the count accepted is in `TXCNT` and returned, the bytes accepted are on the
TX stream; nothing else is written. That no time passes is R39(c), which the model follows against U9 (its
choice, log 6); a scripted count is the count, cut to the length offered (log 3). -/
def Obligations.SendReportsTheCountAccepted : Prop :=
  ∀ (s : State) (bs : Bytes), ∃ t c, exec (.send bs) s = .next t
    ∧ c ≤ bs.length ∧ t.txcnt = BitVec.ofNat 16 c ∧ t.ret = .count c
    ∧ t.world.txlog = s.world.txlog ++ bs.take c
    ∧ t.world.trace = .tx s.cfg.ch bs c :: s.world.trace
    ∧ t.world.now = s.world.now
    ∧ t = { s with world := t.world, txcnt := t.txcnt, ret := t.ret }
    ∧ (∀ k rest, s.world.txCount = k :: rest → c = min k bs.length)

/-- R151: what `AWAIT` returns and leaves, for every environment: the result is 0 or at least `n`; 0 only
after every poll saw fewer than `n`, the last at `ELAPSED >= T`; `ELAPSED` stays below `T + POLL_INTERVAL`;
nothing is consumed; only polls and poll intervals happen. `LOBS` holds the low 16 bits of the result, which
is all of it below 2^16 (the model's choice above, log 30). -/
def Obligations.AwaitReturnsLengthOrZeroOnTimeout : Prop :=
  ∀ (s : State) (n T : Nat), 1 ≤ n → 1 ≤ s.par.pollInterval → T + s.par.pollInterval < 2 ^ 32 →
    ∃ t L new, exec (.awaitBytes n T) s = .next t
      ∧ t.ret = .count L ∧ t.lobs = BitVec.ofNat 16 L
      ∧ (L = 0 ∨ n ≤ L)
      ∧ (L ≠ 0 → t.world.rxq.length = L)
      ∧ t.world.trace = new ++ s.world.trace
      ∧ (∀ e ∈ new, (∃ k, e = .rxLen s.cfg.ch k ∧ (L = 0 → k < n)) ∨ e = .wait s.par.pollInterval)
      ∧ (L = 0 → t.world.rxq.length < n ∧ T ≤ t.elapsed.toNat)
      ∧ t.elapsed.toNat < T + s.par.pollInterval
      ∧ s.world.now + t.elapsed.toNat ≤ t.world.now
      ∧ s.world.rxq <+: t.world.rxq
      ∧ t.world.txlog = s.world.txlog
      ∧ t = { s with world := t.world, elapsed := t.elapsed, lobs := t.lobs, ret := t.ret }

/-- R152: `READEXACT n` consumes the `n` oldest bytes into `RSP[0 .. n-1]`; with fewer buffered it is
refused (U3). -/
def Obligations.ReadExactTakesTheOldestBytes : Prop :=
  ∀ (s : State) (n : Nat),
    (n ≤ s.world.rxq.length → n ≤ 257 → s.rsp.length = 257 →
      ∃ t, exec (.readExact n) s = .next t
        ∧ t.ret = .bytes (s.world.rxq.take n)
        ∧ t.rsp = s.world.rxq.take n ++ s.rsp.drop n
        ∧ s.world.rxq.drop n <+: t.world.rxq
        ∧ t.world.trace = .rxPop s.cfg.ch n (s.world.rxq.take n) :: s.world.trace
        ∧ t = { s with world := t.world, rsp := t.rsp, ret := t.ret })
    ∧ (s.world.rxq.length < n → exec (.readExact n) s = .refused .readExactShort)

/-- R153: with `ACK` at its value 79 a byte classifies as ACK if and only if it is 79; no flag and no register
is written. The `ACK` row of the opcode table is that byte classified (the model's reading of the row:
log 19). -/
def Obligations.OnlySeventyNineClassifiesAsAck : Prop :=
  ∀ (s : State) (b : Byte), s.par.ack = 0x79 →
    (b = 0x79 → exec (.classify b) s = .next { s with ret := .ok true })
    ∧ (b ≠ 0x79 → exec (.classify b) s = .next { s with ret := .ok false })
    ∧ exec .ack s = .next { s with ret := .ok true }

/-- R154: the three ways an exchange ends, with the events of each and what it sends, consumes and leaves: a
send-count mismatch, after the `Tx` alone; a timeout, after polls that all saw fewer than `n` bytes, the last
at `ELAPSED >= TIMEOUT`; a response of exactly `n` bytes, whose first byte decides. What is in `RXQ` is at
every event what the target's bytes and the `RxPop` make of it. -/
def Obligations.ExchangeEndsInMismatchTimeoutOrResponse : Prop :=
  ∀ (s : State) (bs : Bytes) (n : Nat), 1 ≤ n → n ≤ 257 → s.rsp.length = 257 → s.par.ack = 0x79 →
    1 ≤ s.par.pollInterval → s.par.timeout + s.par.pollInterval < 2 ^ 32 →
    ∃ (t : State) (c : Nat) (new : List Event), exec (.exchange bs n) s = .next t
      ∧ t.ret = .ok t.xok ∧ t.txcnt = BitVec.ofNat 16 c ∧ c ≤ bs.length
      ∧ t.world.txlog = s.world.txlog ++ bs.take c
      ∧ OnlyTransport s t
      ∧ t.world.trace = new ++ s.world.trace
      ∧ rxFollows s.par.rxCapacity s.world new.reverse t.world
      ∧ ((c ≠ bs.length ∧ t.xok = false ∧ t.rsp = s.rsp ∧ s.world.rxq <+: t.world.rxq
            ∧ new = [.tx s.cfg.ch bs c])
        ∨ (c = bs.length ∧ t.xok = false ∧ t.lobs = 0 ∧ t.rsp = s.rsp ∧ s.world.rxq <+: t.world.rxq
            ∧ t.world.rxq.length < n ∧ s.par.timeout ≤ t.elapsed.toNat
            ∧ ∃ polls : List Event, new = polls ++ [.tx s.cfg.ch bs c]
              ∧ ∀ e ∈ polls, (∃ k, e = .rxLen s.cfg.ch k ∧ k < n) ∨ e = .wait s.par.pollInterval)
        ∨ (c = bs.length ∧ ∃ (polls : List Event) (response : Bytes), response.length = n
            ∧ new = .rxPop s.cfg.ch n response :: (polls ++ [.tx s.cfg.ch bs c])
            ∧ (∀ e ∈ polls, (∃ k, e = .rxLen s.cfg.ch k) ∨ e = .wait s.par.pollInterval)
            ∧ t.rsp = response ++ s.rsp.drop n
            ∧ t.xok = (response.headD 0 == 0x79)))

/-- R154 with the response in `RXQ` at the first poll: the frame is sent whole, no time passes, exactly `n`
bytes are consumed, and the first of them decides. `first` and `second` are the bytes that arrive at the
`Tx` and at the poll (the script of log 3; that a provider call takes no time is the model's choice, log 6).
`LOBS` holds the low 16 bits of the length seen, which is all of it below 2^16 (beyond it the model's choice,
log 30). -/
def Obligations.ResponseAtTheFirstPollDecidesTheExchange : Prop :=
  ∀ (s : State) (bs : Bytes) (n c : Nat) (first second : Bytes) (later : List Bytes) (counts : List Nat),
    1 ≤ n → n ≤ 257 → s.rsp.length = 257 → s.par.ack = 0x79 →
    s.world.txCount = c :: counts → bs.length ≤ c →
    s.world.arrivals = first :: second :: later →
    (s.world.rxq ++ first ++ second).length ≤ s.par.rxCapacity →
    n ≤ (s.world.rxq ++ first ++ second).length →
    ∃ t, exec (.exchange bs n) s = .next t
      ∧ t.ret = .ok ((s.world.rxq ++ first ++ second).headD 0 == 0x79)
      ∧ t.xok = ((s.world.rxq ++ first ++ second).headD 0 == 0x79)
      ∧ t.txcnt = BitVec.ofNat 16 bs.length
      ∧ t.lobs = BitVec.ofNat 16 (s.world.rxq ++ first ++ second).length
      ∧ t.elapsed = 0
      ∧ t.rsp = (s.world.rxq ++ first ++ second).take n ++ s.rsp.drop n
      ∧ (s.world.rxq ++ first ++ second).drop n <+: t.world.rxq
      ∧ t.world.txlog = s.world.txlog ++ bs
      ∧ t.world.now = s.world.now

/-! ### Commands -/

/-- R200 to R207, R210 (stage 3) and the erase stages of R204, R205: the row's bytes and response length,
as an exchange, for every state. -/
def Obligations.SingleFrameRowsAreTheirExchanges : Prop :=
  ∀ s : State, s.par.asStated →
    exec .sync s = .next (State.returnOk (s.exchange [0x7F] 1))
    ∧ exec .get s = .next (State.returnOk (s.exchange [0x00, 0xFF] 15))
    ∧ exec .getver s = .next (State.returnOk (s.exchange [0x01, 0xFE] 5))
    ∧ exec .getid s = .next (State.returnOk (s.exchange [0x02, 0xFD] 5))
    ∧ exec .massEraseCmd s = .next (State.returnOk (s.exchange [0x43, 0xBC] 1))
    ∧ exec .massEraseParam s = .next (State.returnOk (s.exchange [0xFF, 0x00] 1))
    ∧ exec .extEraseCmd s = .next (State.returnOk (s.exchange [0x44, 0xBB] 1))
    ∧ exec .extEraseParam s = .next (State.returnOk (s.exchange [0xFF, 0xFF, 0x00] 1))
    ∧ exec .writeMem s = .next (State.returnOk (s.exchange [0x31, 0xCE] 1))
    ∧ exec .readMem s = .next (State.returnOk (s.exchange [0x11, 0xEE] 1))
    ∧ exec .pageReadLen s = .next (State.returnOk (s.exchange [0xFF, 0x00] 257))

/-- R208, R209 (stage 3): the address stage and the data stage are exchanges of the frames of R183 and
R184; the checksum is left in `CSUM`. -/
def Obligations.AddressAndDataStagesExchangeTheirFrames : Prop :=
  ∀ s : State, s.par.asStated →
    (∀ a : Addr, exec (.loadAddr a) s = .next (State.returnOk
      (({ s with csum := a.a0 ^^^ a.a1 ^^^ a.a2 ^^^ a.a3 } : State).exchange
        [a.a0, a.a1, a.a2, a.a3, a.a0 ^^^ a.a1 ^^^ a.a2 ^^^ a.a3] 1)))
    ∧ (∀ p : Bytes, exec (.pageWriteData p) s = .next (State.returnOk
      (({ s with csum := s.par.pageCsumSeed ^^^ 0xFF ^^^ xorFold 0 p } : State).exchange
        (0xFF :: (p ++ [s.par.pageCsumSeed ^^^ 0xFF ^^^ xorFold 0 p])) 1)))

/-- R204, R205: each erase is its command stage and then, only if that was ACKed, its parameter stage. -/
def Obligations.EraseSendsTheParameterOnlyAfterAnAck : Prop :=
  ∀ (s : State) (first second whole : Instr),
    (first = .massEraseCmd ∧ second = .massEraseParam ∧ whole = .massErase
      ∨ first = .extEraseCmd ∧ second = .extEraseParam ∧ whole = .extErase) →
    ∃ u t, exec first s = .next u ∧ exec whole s = .next t
      ∧ ((u.ret = .ok true ∧ exec second u = .next t) ∨ (u.ret = .ok false ∧ t = u))

/-- R209: `PAGE_WRITE` is `WRITE_MEM`, `LOAD_ADDR` of `ADDR`, the data frame of `BUF`, each gated on the
one before. -/
def Obligations.PageWriteGatesEveryStage : Prop :=
  ∀ s : State, ∃ u, exec .writeMem s = .next u
    ∧ ((u.ret = .ok false ∧ exec .pageWrite s = .next u)
      ∨ (u.ret = .ok true ∧ ∃ v, exec (.loadAddr s.addr) u = .next v
        ∧ ((v.ret = .ok false ∧ exec .pageWrite s = .next v)
          ∨ (v.ret = .ok true ∧ ∃ t, exec (.pageWriteData s.buf) v = .next t
            ∧ exec .pageWrite s = .next t))))

/-- R210: `PAGE_READ` is gated on `READ_MEM`; the length frame is sent whatever the address stage
returned. -/
def Obligations.PageReadIgnoresTheAddressStageResult : Prop :=
  ∀ s : State, ∃ u, exec .readMem s = .next u
    ∧ ((u.ret = .ok false ∧ exec .pageRead s = .next u)
      ∨ (u.ret = .ok true ∧ ∃ v t, exec (.loadAddr s.addr) u = .next v
        ∧ exec .pageReadLen v = .next t ∧ exec .pageRead s = .next t))

/-- R199, R100: what a command changes. Commands without a checksum change only the transport registers,
the others `CSUM` as well; `ADDR`, `BLK`, `ST`, the lines, the exception and configuration registers are
kept. -/
def Obligations.CommandsKeepEveryOtherRegister : Prop :=
  ∀ (s t : State) (i : Instr), exec i s = .next t →
    (i ∈ [.sync, .get, .getver, .getid, .massEraseCmd, .massEraseParam, .massErase, .extEraseCmd,
        .extEraseParam, .extErase, .writeMem, .readMem, .pageReadLen] → OnlyTransport s t)
    ∧ ((i ∈ [.pageWrite, .pageRead] ∨ (∃ a, i = .loadAddr a) ∨ (∃ p, i = .pageWriteData p)) →
        OnlyCommand s t)

/-- R32: a command and an exchange return the `XOK` of their last exchange; an operation without an exchange
keeps `XOK`. -/
def Obligations.XokIsWrittenByExchangesOnly : Prop :=
  ∀ (s t : State) (i : Instr), exec i s = .next t →
    ((i ∈ [.sync, .get, .getver, .getid, .massEraseCmd, .massEraseParam, .massErase, .extEraseCmd,
        .extEraseParam, .extErase, .writeMem, .readMem, .pageReadLen, .pageWrite, .pageRead]
        ∨ (∃ a, i = .loadAddr a) ∨ (∃ p, i = .pageWriteData p) ∨ (∃ bs n, i = .exchange bs n)) →
      t.ret = .ok t.xok)
    ∧ ((i ∈ [.ack, .configLines, .resetPulse, .enterBl, .exitBl, .incAddr, .fetchBlock]
        ∨ (∃ bs, i = .send bs) ∨ (∃ n T, i = .awaitBytes n T) ∨ (∃ n, i = .readExact n)
        ∨ (∃ b, i = .classify b) ∨ (∃ b, i = .compl b) ∨ (∃ seed bs, i = .xor8 seed bs)
        ∨ (∃ op, i = .cmdframe op) ∨ (∃ a, i = .addrframe a) ∨ (∃ p, i = .dataframe p)
        ∨ (∃ n, i = .lenparam n)) → t.xok = s.xok)

/-! ### Detector -/

/-- R240, R241: `DETECT` makes between 1 and `MAX_ATTEMPTS` attempts, one reset pulse each; it fails only after
the last; the pulses' delays and a backoff between two attempts pass; the boot-mode line and every register
it does not name are kept. -/
def Obligations.DetectPulsesOncePerAttempt : Prop :=
  ∀ s : State, 1 ≤ s.par.maxAttempts → s.par.maxAttempts ≤ 3 →
    ∃ t ok, exec .detect s = .next t ∧ t.ret = .ok ok
      ∧ 1 ≤ t.attempt.toNat ∧ t.attempt.toNat ≤ s.par.maxAttempts
      ∧ (ok = false → t.attempt.toNat = s.par.maxAttempts)
      ∧ pulses t.world.trace = pulses s.world.trace + t.attempt.toNat
      ∧ bootDrives true t.world.trace = bootDrives true s.world.trace
      ∧ bootDrives false t.world.trace = bootDrives false s.world.trace
      ∧ s.world.now + t.attempt.toNat * (s.par.tResetLow + s.par.tSettle)
          + (t.attempt.toNat - 1) * s.par.tBackoff ≤ t.world.now
      ∧ t.nrst = true
      ∧ OnlyDetect s t

/-- R240, D6: `DETECT` is its attempts, every one of them (`Attempts`): pulse, Sync, and Get only if Sync
succeeded; the first attempt in which both succeed ends it at once with success and no backoff; a failed
attempt that is not the last is followed by one `Wait(T_BACKOFF)` and the next attempt, the last one by
nothing. -/
def Obligations.DetectEndsAtTheFirstSuccess : Prop :=
  (∀ s : State, 1 ≤ s.par.maxAttempts → s.par.maxAttempts ≤ 3 →
    ∃ t, exec .detect s = .next t ∧ Attempts { s with attempt := 0 } t)
  ∧ (∀ (s : State) (n : Nat), (s.wait n).world.trace = .wait n :: s.world.trace
      ∧ s.world.now + n ≤ (s.wait n).world.now
      ∧ s.wait n = { s with world := (s.wait n).world })
  ∧ (∀ s : State, 1 ≤ s.par.maxAttempts →
    ∃ u v, exec .resetPulse { s with attempt := 1 } = .next u ∧ exec .sync u = .next v
      ∧ (v.ret = .ok true → ∃ w, exec .get v = .next w
          ∧ (w.ret = .ok true → exec .detect s = .next w)
          ∧ (w.ret = .ok false → s.par.maxAttempts = 1 → exec .detect s = .next w))
      ∧ (v.ret = .ok false → s.par.maxAttempts = 1 → exec .detect s = .next v))

/-! ### Address and blocks -/

/-- R273, R276: `INC_ADDR` advances the numeric address by 256 modulo 2^32, carries as the pseudocode says,
never writes the fourth byte, and writes nothing else; `k` steps add `256 k`. -/
def Obligations.IncAddrAdvancesByOneBlock : Prop :=
  (∀ s : State, ∃ t, exec .incAddr s = .next t
    ∧ t.addr.value = (s.addr.value + 0x100) % 2 ^ 32
    ∧ t.addr.a3 = s.addr.a3
    ∧ t.addr.a2 = s.addr.a2 + 1
    ∧ t.addr.a1 = (if s.addr.a2 + 1 = 0 then s.addr.a1 + 1 else s.addr.a1)
    ∧ t.addr.a0 = (if s.addr.a2 + 1 = 0 ∧ s.addr.a1 + 1 = 0 then s.addr.a0 + 1 else s.addr.a0)
    ∧ t = { s with addr := t.addr, ret := .none })
    ∧ (∀ (a : Addr) (k : Nat),
      (stepAddr^[k] a).value = (a.value + 0x100 * k) % 2 ^ 32 ∧ (stepAddr^[k] a).a3 = a.a3)

/-- R274: `FETCH_BLOCK` on any answer of the storage provider. With `BLK` beyond the image, which the
sequence never reaches (R187), the wanted length is 0: the subtraction stops at 0, the model's inference,
log 29. -/
def Obligations.FetchBlockAcceptsOnlyTheWantedLength : Prop :=
  ∀ s : State, s.par.asStated → ∃ t bs, exec .fetchBlock s = .next t
    ∧ bs.length ≤ 256
    ∧ t.nread = BitVec.ofNat 9 bs.length
    ∧ t.world.trace = .stoRead 256 bs :: s.world.trace
    ∧ (bs.length = min 256 (s.imgSize.toNat - 256 * s.blk.toNat) →
        t.ret = .ok true ∧ t.buf = bs ++ List.replicate (256 - bs.length) 0xFF)
    ∧ (bs.length ≠ min 256 (s.imgSize.toNat - 256 * s.blk.toNat) → t.ret = .ok false ∧ t.buf = s.buf)
    ∧ t = { s with world := t.world, nread := t.nread, buf := t.buf, ret := t.ret }

/-- R62, R274: with a storage provider that reads the image it was loaded with, block `BLK` is fetched: the
image's bytes from `256 BLK` on, then FF. -/
def Obligations.FetchBlockReadsTheImageInOrder : Prop :=
  ∀ (s : State) (image : Bytes) (answers : List (Option Bytes)), s.par.asStated →
    s.world.img = Memory.ofBytes image → s.world.reads = none :: answers →
    s.world.imgPos = 256 * s.blk.toNat → s.imgSize.toNat = image.length →
    256 * s.blk.toNat < image.length →
    ∃ t, exec .fetchBlock s = .next t ∧ t.ret = .ok true
      ∧ t.buf = (image.drop (256 * s.blk.toNat)).take 256
          ++ List.replicate (256 - min 256 (image.length - 256 * s.blk.toNat)) 0xFF
      ∧ t.world.imgPos = 256 * s.blk.toNat + min 256 (image.length - 256 * s.blk.toNat)
      ∧ t.world.img = s.world.img

/-! ### The sequence, state by state -/

/-- R262: the configuration test, its two outcomes, and that no provider is called. -/
def Obligations.InvalidConfigurationFailsBeforeAnyProviderCall : Prop :=
  ∀ s : State, s.st = .configValidated → s.slot = none → s.input = .none →
    ∃ t, step s = .next t ∧ t.world = s.world
      ∧ t = { s with st := t.st, pos := .entry, result := t.result, inputs := t.inputs }
      ∧ ((s.cfg.reset ≠ s.par.unset ∧ s.cfg.boot ≠ s.par.unset ∧ s.cfg.tx ≠ s.par.unset
            ∧ s.cfg.rx ≠ s.par.unset ∧ s.cfg.ch ≠ s.par.unset ∧ s.cfg.ch.toNat < s.par.uartChannels
            ∧ s.cfg.tx ≠ s.cfg.rx ∧ s.cfg.reset ≠ s.cfg.boot) →
          t.st = .storageReady ∧ t.result = s.result)
      ∧ (¬ (s.cfg.reset ≠ s.par.unset ∧ s.cfg.boot ≠ s.par.unset ∧ s.cfg.tx ≠ s.par.unset
            ∧ s.cfg.rx ≠ s.par.unset ∧ s.cfg.ch ≠ s.par.unset ∧ s.cfg.ch.toNat < s.par.uartChannels
            ∧ s.cfg.tx ≠ s.cfg.rx ∧ s.cfg.reset ≠ s.cfg.boot) →
          t.st = .modeExited ∧ (s.result = .success → t.result = .configurationInvalid))

/-- R263: the mount decides between ImageLocated and `transport-init-failed`; no line is touched. -/
def Obligations.StorageFailureAbortsBeforeAnyLine : Prop :=
  ∀ s : State, s.st = .storageReady → s.slot = none → s.input = .none →
    ∃ t ok, step s = .next t ∧ t.world.trace = .stoMount ok :: s.world.trace
      ∧ t = { s with
          world := t.world, st := t.st, pos := .entry, result := t.result, inputs := t.inputs }
      ∧ (ok = true → t.st = .imageLocated ∧ t.result = s.result)
      ∧ (ok = false → t.st = .modeExited ∧ (s.result = .success → t.result = .transportInitFailed))

/-- R264, R25: the image is opened, then sized: not found, then empty, then too large; otherwise `NBLK` is the
size over 256 rounded up, the handle is open and the next state is ModeEntered, with `MODE_ENTERED` set as
`ST` takes it, before any event of `ENTER_BL`. For an answer of 2^32 or more, which the 32 bits of `IMG_SIZE`
do not hold, that the two tests are made on the answer before it is cut and that `IMG_SIZE` keeps its low 32
bits is the model's inference, log 10; the bound on `MAX_IMAGE` is log 10's too. -/
def Obligations.ImageChecksAreMadeInOrder : Prop :=
  ∀ s : State, s.undisturbed .imageLocated .entry → s.result = .success → s.par.asStated →
    s.par.maxImage ≤ 256 * 65535 →
    ∃ u ok, step s = .next u ∧ u.world.trace = .stoOpen s.name ok :: s.world.trace
      ∧ (ok = false → u = { s with world := u.world, st := .modeExited, result := .imageNotFound })
      ∧ (ok = true → u = { s with world := u.world, imgOpen := true, pos := .size }
        ∧ ∃ t n, step u = .next t ∧ t.world.trace = .stoSize n :: u.world.trace
          ∧ t = { u with
              world := t.world, st := t.st, pos := .entry, result := t.result, imgSize := BitVec.ofNat 32 n
              nblk := t.nblk, modeEntered := t.modeEntered }
          ∧ (n = 0 → t.st = .modeExited ∧ t.result = .imageEmpty ∧ t.nblk = s.nblk
              ∧ t.modeEntered = s.modeEntered)
          ∧ (s.par.maxImage < n → 1 ≤ n → t.st = .modeExited ∧ t.result = .imageTooLarge ∧ t.nblk = s.nblk
              ∧ t.modeEntered = s.modeEntered)
          ∧ (1 ≤ n → n ≤ s.par.maxImage → t.st = .modeEntered ∧ t.result = .success
              ∧ t.modeEntered = true ∧ t.imgSize.toNat = n
              ∧ 256 * (t.nblk.toNat - 1) < n ∧ n ≤ 256 * t.nblk.toNat))

/-- R265: the work of ModeEntered is `ENTER_BL`, event by event; success goes to TransportReady, failure is
`unknown`. (`MODE_ENTERED` is set as `ST` takes ModeEntered: ImageChecksAreMadeInOrder, and the session
invariant.) -/
def Obligations.ModeEnteredRunsEnterBl : Prop :=
  ∀ s : State, s.undisturbed .modeEntered .entry →
    ∃ u ok, exec .enterBl s = .next u ∧ u.ret = .ok ok
      ∧ (ok = true → Reaches s { u with ret := s.ret, st := .transportReady, pos := .entry })
      ∧ (ok = false → Reaches s { u with
          ret := s.ret, st := .modeExited, pos := .entry
          result := if s.result = .success then .unknown else s.result })

/-- R266, R67: the UART is configured for 115200 baud, 8 data bits, even parity, 1 stop bit, then given its
pins, one event a step; both calls are always made; either false is `transport-init-failed`. -/
def Obligations.UartIsConfiguredThenGivenItsPins : Prop :=
  ∀ s : State, s.undisturbed .transportReady .entry → s.par.asStated →
    ∃ u t ok1 ok2, step s = .next u ∧ step u = .next t
      ∧ u.world.trace = .uartConfigure s.cfg.ch ⟨115200, 8, .even, 1⟩ ok1 :: s.world.trace
      ∧ u = { s with world := u.world, pos := u.pos }
      ∧ t.world.trace = .uartSetPins s.cfg.ch s.cfg.tx s.cfg.rx ok2 :: u.world.trace
      ∧ (ok1 = true → ok2 = true → t = { s with world := t.world, st := .presenceConfirmed })
      ∧ (¬ (ok1 = true ∧ ok2 = true) → t = { s with
          world := t.world, st := .modeExited
          result := if s.result = .success then .transportInitFailed else s.result })

/-- R267, R275: the detector decides; with `IDENT_PHASE` the two identification commands follow, each with
its own failure. Each operation is taken event by event and leaves what `exec` says of it. -/
def Obligations.PresenceAndIdentificationDecideTheirFailures : Prop :=
  ∀ s : State, s.par.wf = true → s.result = .success →
    (s.undisturbed .presenceConfirmed .entry → ∃ u ok, exec .detect s = .next u ∧ u.ret = .ok ok
      ∧ (ok = false → Reaches s { u with
          ret := s.ret, st := .modeExited, pos := .entry, result := .targetNotFound })
      ∧ (ok = true → s.par.identPhase = false → Reaches s { u with
          ret := s.ret, st := .erased, pos := .entry })
      ∧ (ok = true → s.par.identPhase = true → Reaches s { u with
          ret := s.ret, pos := .stage .getver .tx }))
    ∧ (s.undisturbed .presenceConfirmed (.stage .getver .tx) →
      ∃ u ok, exec .getver s = .next u ∧ u.ret = .ok ok
      ∧ (ok = false → Reaches s { u with
          ret := s.ret, st := .modeExited, pos := .entry, result := .getVersionFailed })
      ∧ (ok = true → Reaches s { u with ret := s.ret, pos := .stage .getid .tx }))
    ∧ (s.undisturbed .presenceConfirmed (.stage .getid .tx) →
      ∃ u ok, exec .getid s = .next u ∧ u.ret = .ok ok
      ∧ (ok = false → Reaches s { u with
          ret := s.ret, st := .modeExited, pos := .entry, result := .getIdFailed })
      ∧ (ok = true → Reaches s { u with ret := s.ret, st := .erased, pos := .entry }))

/-- R268: both erases are attempted, event by event, their results are recorded in `ERASE_STAT` and nothing
else, and the write phase follows whatever they were. -/
def Obligations.EraseResultsAreRecordedNotTested : Prop :=
  ∀ s : State, s.par.wf = true →
    (s.undisturbed .erased .entry → ∃ u ok, exec .massErase s = .next u ∧ u.ret = .ok ok
      ∧ Reaches s { u with
          ret := s.ret, pos := .stage .extEraseCmd .tx
          eraseStat := BitVec.ofBool (s.eraseStat.getLsbD 1) ++ BitVec.ofBool ok })
    ∧ (s.undisturbed .erased (.stage .extEraseCmd .tx) →
      ∃ u ok, exec .extErase s = .next u ∧ u.ret = .ok ok
      ∧ Reaches s { u with
          ret := s.ret, st := .writing, pos := .entry
          eraseStat := BitVec.ofBool ok ++ BitVec.ofBool (s.eraseStat.getLsbD 0) })

/-- R269, R270: each block phase seeds `ADDR` and `BLK` (the read phase after one `StoRewind`), fetches a
block where `BLK` is below `NBLK` and leaves the loop where it is not; a block that cannot be fetched fails
with `image-unreadable`. -/
def Obligations.BlockPhasesSeedAndFetch : Prop :=
  ∀ s : State, s.slot = none → s.input = .none →
    (s.st = .writing → s.pos = .entry →
      step s = .next { s with
        addr := s.par.baseAddr, blk := 0, pos := .blocks, inputs := s.inputs.tail })
    ∧ (s.st = .reading → s.pos = .entry → ∃ w, w.trace = .stoRewind :: s.world.trace ∧ w.imgPos = 0
      ∧ step s = .next { s with
        addr := s.par.baseAddr, blk := 0, pos := .blocks, inputs := s.inputs.tail, world := w })
    ∧ ((s.st = .writing ∨ s.st = .reading) → s.pos = .blocks → s.blk.toNat < s.nblk.toNat →
      ∃ u ok, exec .fetchBlock s.popInput = .next u ∧ u.ret = .ok ok
        ∧ (ok = true → s.st = .writing → step s = .next { u with ret := s.ret, pos := .stage .writeMem .tx })
        ∧ (ok = true → s.st = .reading → step s = .next { u with ret := s.ret, pos := .stage .readMem .tx })
        ∧ (ok = false → step s = .next { u with
            ret := s.ret, st := .modeExited, pos := .entry
            result := if s.result = .success then .imageUnreadable else s.result }))
    ∧ (s.st = .writing → s.pos = .blocks → s.nblk.toNat ≤ s.blk.toNat →
      step s = .next { s with st := .reading, pos := .entry, inputs := s.inputs.tail })
    ∧ (s.st = .reading → s.pos = .blocks → s.nblk.toNat ≤ s.blk.toNat →
      step s = .next { s with st := .modeExited, pos := .entry, inputs := s.inputs.tail })

/-- R269, R270: the page operation of a fetched block is taken event by event; where it succeeds `ADDR` and
`BLK` step to the next block, where it fails the session ends with `write-failed` or `read-failed`, `ADDR`
and `BLK` not advanced; all else is as `exec` says of the page operation. -/
def Obligations.PagesAdvanceOnlyOnSuccess : Prop :=
  ∀ s : State, s.par.wf = true →
    (s.undisturbed .writing (.stage .writeMem .tx) → ∃ u ok, exec .pageWrite s = .next u ∧ u.ret = .ok ok
      ∧ (ok = true → ∃ a : Addr, a.value = (s.addr.value + 0x100) % 2 ^ 32 ∧ a.a3 = s.addr.a3
          ∧ Reaches s { u with ret := s.ret, pos := .blocks, addr := a, blk := s.blk + 1 })
      ∧ (ok = false → Reaches s { u with
          ret := s.ret, st := .modeExited, pos := .entry
          result := if s.result = .success then .writeFailed else s.result }))
    ∧ (s.undisturbed .reading (.stage .readMem .tx) → ∃ u ok, exec .pageRead s = .next u ∧ u.ret = .ok ok
      ∧ (ok = true → ∃ a : Addr, a.value = (s.addr.value + 0x100) % 2 ^ 32 ∧ a.a3 = s.addr.a3
          ∧ Reaches s { u with ret := s.ret, pos := .blocks, addr := a, blk := s.blk + 1 })
      ∧ (ok = false → Reaches s { u with
          ret := s.ret, st := .modeExited, pos := .entry
          result := if s.result = .success then .readFailed else s.result }))

/-- R271, R76: `EXIT_BL` runs, event by event, if and only if `MODE_ENTERED`, its result discarded; then the
handle is closed if open; then Done, with the final `RESULT` as the last entry of the trace. `RESULT` is
kept throughout. -/
def Obligations.CleanupUndoesWhatWasBegun : Prop :=
  ∀ s : State,
    (s.undisturbed .modeExited .entry → s.modeEntered = true → ∃ u, exec .exitBl s = .next u
      ∧ Reaches s { u with ret := s.ret, modeEntered := false, pos := .closing })
    ∧ (s.undisturbed .modeExited .entry → s.modeEntered = false → step s = .next { s with pos := .closing })
    ∧ (s.undisturbed .modeExited .closing → s.imgOpen = true → ∃ w, w.trace = .stoClose :: s.world.trace
      ∧ step s = .next { s with world := w, imgOpen := false })
    ∧ (s.undisturbed .modeExited .closing → s.imgOpen = false →
      step s = .next { s with
        st := .done, pos := .entry
        world := { s.world with trace := .result s.result :: s.world.trace } })

/-! ### Whole-machine rules -/

/-- R21: from a position of the state's own work (which every step keeps: the session invariant) `ST` moves
only to the next state of the chain or, by an abort, to ModeExited. -/
def Obligations.SequencingStateNeverGoesBack : Prop :=
  ∀ s : State, s.slot = none → s.input = .none → legalPos s.st s.pos = true →
    ∃ t, step s = .next t
      ∧ (t.st = s.st ∨ t.st.code = s.st.code + 1 ∨ (s.busy = true ∧ t.st = .modeExited))
      ∧ (s.st.code.toNat ≤ t.st.code.toNat)

/-- R310, R26: a recorded failure is never overwritten within a session, and a failure is recorded only
together with the move to ModeExited. -/
def Obligations.FirstFailureWins : Prop :=
  ∀ s t : State, s.slot = none → s.input = .none → step s = .next t →
    (s.result ≠ .success → t.result = s.result)
    ∧ (t.result ≠ s.result → s.result = .success ∧ t.st = .modeExited ∧ t.pos = .entry)

/-- R37, R38: no operation but `FLASH` writes the configuration registers; no operation and no step writes
the parameters. -/
def Obligations.ConfigurationIsImmutable : Prop :=
  (∀ (s t : State) (i : Instr), exec i s = .next t → t.par = s.par)
    ∧ (∀ (s t : State) (i : Instr), (∀ c nm, i ≠ .flash c nm) → exec i s = .next t → t.cfg = s.cfg)
    ∧ (∀ s t : State, step s = .next t → t.par = s.par)
    ∧ (∀ s t : State, s.slot = none → s.input = .none → step s = .next t → t.cfg = s.cfg)

/-- R62, R20: no operation and no step writes the image: every offset reads as before. -/
def Obligations.NoOperationWritesTheImage : Prop :=
  (∀ (s t : State) (i : Instr), exec i s = .next t →
    ∀ a, Memory.read t.world.img a = Memory.read s.world.img a)
  ∧ (∀ s t : State, step s = .next t → ∀ a, Memory.read t.world.img a = Memory.read s.world.img a)

/-- R73, R39(c): time and the trace only grow, through every operation and every step; D33: a step of the
sequence makes one event or none. -/
def Obligations.TimeAndTraceOnlyGrow : Prop :=
  (∀ (s t : State) (i : Instr), exec i s = .next t →
    s.world.now ≤ t.world.now ∧ s.world.trace <:+ t.world.trace)
  ∧ (∀ s t : State, step s = .next t → s.world.now ≤ t.world.now ∧ s.world.trace <:+ t.world.trace)
  ∧ (∀ s t : State, s.slot = none → step s = .next t →
    t.world.trace = s.world.trace ∨ ∃ e, t.world.trace = e :: s.world.trace)

/-- R63, R73: the TX stream is append-only and holds exactly the bytes the events say were accepted, in
order, through every operation and every step. -/
def Obligations.TxStreamIsTheBytesAcceptedInOrder : Prop :=
  (∀ (s t : State) (i : Instr), exec i s = .next t →
    ∃ new, t.world.trace = new ++ s.world.trace ∧ t.world.txlog = s.world.txlog ++ sentBytes new)
  ∧ (∀ s t : State, step s = .next t →
    ∃ new, t.world.trace = new ++ s.world.trace ∧ t.world.txlog = s.world.txlog ++ sentBytes new)

/-- R64, R157: through every operation and every step, `RXQ` is what its events make of it (`rxFollows`): the
target's bytes enter in order before each event (what of a batch that overflows the buffer enters is a free
value: log 5), `RxLen` sees the length, and bytes leave through `RxPop` only, oldest first; so what was
consumed and then what is left is what was buffered and then what arrived. -/
def Obligations.OnlyRxPopRemovesReceivedBytes : Prop :=
  (∀ (s t : State) (i : Instr), exec i s = .next t →
    ∃ new arrived, t.world.trace = new ++ s.world.trace
      ∧ rxFollows s.par.rxCapacity s.world new.reverse t.world
      ∧ s.world.rxq ++ arrived = consumedBytes new ++ t.world.rxq)
  ∧ (∀ s t : State, step s = .next t →
    ∃ new arrived, t.world.trace = new ++ s.world.trace
      ∧ rxFollows s.par.rxCapacity s.world new.reverse t.world
      ∧ s.world.rxq ++ arrived = consumedBytes new ++ t.world.rxq)

/-- R281, R82: the bytes of a response after its first steer nothing. At the event that takes the response of
`PAGE_READ`, other data bytes behind the same first byte make no difference but in `RSP` and in the record of
that event, whatever `BUF` holds; and from two states that differ only there every step leads to two that
differ only there. -/
def Obligations.ReadBackBytesSteerNothing : Prop :=
  (∀ (s : State) (other : Bytes), s.slot = none → s.input = .none → s.par.rspPage = 257 →
      s.st = .reading → s.pos = .stage .pageLen .pop → s.rsp.length = 257 →
      257 ≤ s.world.rxq.length → other.length = s.world.rxq.length →
      other.headD 0 = s.world.rxq.headD 0 → other.drop 257 = s.world.rxq.drop 257 →
    ∃ t t', step s = .next t ∧ step { s with world := { s.world with rxq := other } } = .next t'
      ∧ SameButResponse t t' ∧ t.rsp = s.world.rxq.take 257 ∧ t'.rsp = other.take 257)
  ∧ (∀ s s' : State, s.slot = none → s.rsp.length = 257 → s'.rsp.length = 257 → SameButResponse s s' →
    ∃ t t', step s = .next t ∧ step s' = .next t' ∧ SameButResponse t t')

/-! ### Invariants and the session as a whole -/

/-- The session invariant holds after reset. -/
def Obligations.SessionInvariantHoldsAtReset : Prop := State.reset.sessionOk

/-- R25, R21, R130, R271, R310, R315: every step, that is every event of a session, keeps the session
invariant, whatever the ports present and the environment does. -/
def Obligations.EveryStepKeepsTheSessionInvariant : Prop :=
  ∀ s t : State, s.sessionOk → step s = .next t → t.sessionOk

/-- R276: every step of the sequence keeps `ADDR` at `BASE_ADDR` stepped `BLK` times in the block loops. -/
def Obligations.EveryStepKeepsTheBlockAddress : Prop :=
  ∀ s t : State, s.sessionOk → s.addressOk → step s = .next t → t.addressOk

/-- R315(a), R260, R314: from Idle or Done, for every environment, `FLASH` completes: it ends in Done with
both cleanup flags clear and returns `RESULT`. -/
def Obligations.FlashAlwaysReachesDone : Prop :=
  ∀ (s : State) (c : Cfg) (nm : Name), (s.st = .idle ∨ s.st = .done) → s.par.wf = true →
    ∃ t, exec (.flash c nm) s = .next t
      ∧ t.st = .done ∧ t.imgOpen = false ∧ t.modeEntered = false ∧ t.cfg = c
      ∧ t.ret = .result t.result

/-- R315(c): `StoClose` is called exactly once if `StoOpen` succeeded and not at all otherwise. -/
def Obligations.FlashClosesTheImageExactlyWhenOpened : Prop :=
  ∀ (s : State) (c : Cfg) (nm : Name), (s.st = .idle ∨ s.st = .done) → s.par.wf = true →
    ∃ t new, exec (.flash c nm) s = .next t ∧ t.world.trace = new ++ s.world.trace
      ∧ imageCloses new = imageOpens new ∧ imageOpens new ≤ 1

/-- R315(b)(d), R135: with both line configurations succeeding, a session that raised the boot-mode line
lowered it exactly once, both lines end at their application levels, and the reset pulses are two more than
the detector's attempts (none where boot mode was not entered). -/
def Obligations.FlashRestoresTheLines : Prop :=
  ∀ (s : State) (c : Cfg) (nm : Name) (answers : List Bool), (s.st = .idle ∨ s.st = .done) →
    s.par.wf = true → s.bootSel = false → s.nrst = true →
    s.world.dirOk = true :: true :: true :: true :: answers →
    ∃ t new, exec (.flash c nm) s = .next t ∧ t.world.trace = new ++ s.world.trace
      ∧ t.bootSel = false ∧ t.nrst = true
      ∧ bootDrives true new = bootDrives false new ∧ bootDrives true new ≤ 1
      ∧ (bootDrives true new = 0 → pulses new = 0)
      ∧ (bootDrives true new = 1 → pulses new = t.attempt.toNat + 2)

/-- R301, R262: `FLASH` with a configuration that violates the invariant ends in Done with
`configuration-invalid`, no provider called: all that is new outside the block is the trace's final `RESULT`
(R76). -/
def Obligations.FlashRejectsAnInvalidConfigurationUntouched : Prop :=
  ∀ (s : State) (c : Cfg) (nm : Name), (s.st = .idle ∨ s.st = .done) → 1 ≤ s.par.pollInterval →
    (c.reset = s.par.unset ∨ c.boot = s.par.unset ∨ c.tx = s.par.unset ∨ c.rx = s.par.unset
      ∨ c.ch = s.par.unset ∨ s.par.uartChannels ≤ c.ch.toNat ∨ c.tx = c.rx ∨ c.reset = c.boot) →
    ∃ t, exec (.flash c nm) s = .next t ∧ t.st = .done ∧ t.result = .configurationInvalid
      ∧ t.world = { s.world with trace := .result .configurationInvalid :: s.world.trace }
      ∧ t.bootSel = s.bootSel ∧ t.nrst = s.nrst

/-- R260, D21, D33: the session taken event by event from a `start` reaches, in finitely many steps, exactly
the state `FLASH` reaches in one (but for the value `FLASH` returns). -/
def Obligations.StepwiseSessionRefinesFlash : Prop :=
  ∀ (s : State) (c : Cfg) (nm : Name), (s.st = .idle ∨ s.st = .done) → s.slot = none → s.inputs = [] →
    s.par.wf = true →
    ∃ k u, Sys2Proof.core.run k { s with inputs := [.start c nm] } = .next u
      ∧ u.st = .done
      ∧ exec (.flash c nm) s = .next { u with ret := .result u.result }

/-! ### Encoding and fetch -/

/-- R90 to R102: decoding the bytes of a well-formed wire row, at its protocol position, gives the row back
with every operand, for every checksum seed. -/
def Obligations.DecodeOfEncodeIsTheRow : Prop :=
  ∀ (par : Params) (i : Instr) (bs : Bytes), par.asStated → i.wf = true → encode par i = some bs →
    decode par (ctxOf i) bs = .ok i

/-- R90 to R105: what the decoder accepts is the encoding of a well-formed row, so no two rows share bytes
at one protocol position and nothing reserved is accepted. -/
def Obligations.EncodeOfDecodeIsTheBytes : Prop :=
  ∀ (par : Params) (ctx : Ctx) (bs : Bytes) (i : Instr), par.asStated → decode par ctx bs = .ok i →
    encode par i = some bs ∧ i.wf = true

/-- R102: words of the opcode table, written from its rows, and the operations they are. -/
def Obligations.TableWordsDecodeToTheirRows : Prop :=
  decodeTableWord 8 0x7F = some .sync ∧ decodeTableWord 16 0x00FF = some .get
    ∧ decodeTableWord 16 0x01FE = some .getver ∧ decodeTableWord 16 0x02FD = some .getid
    ∧ decodeTableWord 16 0x43BC = some .massEraseCmd ∧ decodeTableWord 16 0x44BB = some .extEraseCmd
    ∧ decodeTableWord 24 0xFFFF00 = some .extEraseParam ∧ decodeTableWord 16 0x31CE = some .writeMem
    ∧ decodeTableWord 16 0x11EE = some .readMem ∧ decodeTableWord 8 0x79 = some .ack
    ∧ decodeTableWord 40 0x0800010009 = some (.loadAddr ⟨0x08, 0x00, 0x01, 0x00⟩)

/-- R102, R150: a transmitted row puts exactly its encoding on the wire, in one `Tx`. -/
def Obligations.TransmittedRowsSendTheirEncoding : Prop :=
  ∀ (s : State) (i : Instr) (bs : Bytes), i ≠ .ack → encode s.par i = some bs →
    ∃ t c later, exec i s = .next t
      ∧ t.world.trace = later ++ .tx s.cfg.ch bs c :: s.world.trace
      ∧ c ≤ bs.length ∧ t.world.txlog = s.world.txlog ++ bs.take c

/-- What a step runs (the model's own device, log 1): an operation placed in the slot, or the operation the
bytes placed there decode to, runs as `exec` says, in the state with the slot emptied and the input taken;
bytes that decode to nothing stop the machine by name. A table word placed by `withFetchWord` is what the
very next step runs (log 15). -/
def Obligations.StepRunsThePlacedOperation : Prop :=
  (∀ s : State, s.input ≠ .rst →
    (∀ ctx bs i, s.slot = some (.frame ctx bs) → decode s.par ctx bs = .ok i →
      step s = exec i { s with slot := none, inputs := s.inputs.tail })
    ∧ (∀ i, s.slot = some (.oper i) → step s = exec i { s with slot := none, inputs := s.inputs.tail })
    ∧ (∀ ctx bs why, s.slot = some (.frame ctx bs) → decode s.par ctx bs = .error why →
      step s = .fault (.notAFrame why)))
  ∧ (∀ (s : State) (nbits w : Nat) (i : Instr), s.par.asStated → s.par.pageCsumSeed = 0xFF →
      decodeTableWord nbits w = some i →
      step (s.withFetchWord nbits w) = exec i { s with slot := none })
end

