-- ==== Sys2Proof/Laws/State.lean ====
section
/-!
SUPPORT. One lemma per field per named update of the state, and per field of the environment's move, so
that no later proof unfolds a record update.
-/
namespace Sys2Proof.Machine

/-! ### `ask` -/
@[simp] theorem State.ask_st {α : Type} (s : State) (call : World → World × α) : (s.ask call).1.st = s.st := rfl
@[simp] theorem State.ask_pos {α : Type} (s : State) (call : World → World × α) : (s.ask call).1.pos = s.pos := rfl
@[simp] theorem State.ask_addr {α : Type} (s : State) (call : World → World × α) : (s.ask call).1.addr = s.addr := rfl
@[simp] theorem State.ask_blk {α : Type} (s : State) (call : World → World × α) : (s.ask call).1.blk = s.blk := rfl
@[simp] theorem State.ask_nblk {α : Type} (s : State) (call : World → World × α) : (s.ask call).1.nblk = s.nblk := rfl
@[simp] theorem State.ask_imgSize {α : Type} (s : State) (call : World → World × α) : (s.ask call).1.imgSize = s.imgSize := rfl
@[simp] theorem State.ask_imgOpen {α : Type} (s : State) (call : World → World × α) : (s.ask call).1.imgOpen = s.imgOpen := rfl
@[simp] theorem State.ask_modeEntered {α : Type} (s : State) (call : World → World × α) : (s.ask call).1.modeEntered = s.modeEntered := rfl
@[simp] theorem State.ask_result {α : Type} (s : State) (call : World → World × α) : (s.ask call).1.result = s.result := rfl
@[simp] theorem State.ask_buf {α : Type} (s : State) (call : World → World × α) : (s.ask call).1.buf = s.buf := rfl
@[simp] theorem State.ask_nread {α : Type} (s : State) (call : World → World × α) : (s.ask call).1.nread = s.nread := rfl
@[simp] theorem State.ask_attempt {α : Type} (s : State) (call : World → World × α) : (s.ask call).1.attempt = s.attempt := rfl
@[simp] theorem State.ask_elapsed {α : Type} (s : State) (call : World → World × α) : (s.ask call).1.elapsed = s.elapsed := rfl
@[simp] theorem State.ask_lobs {α : Type} (s : State) (call : World → World × α) : (s.ask call).1.lobs = s.lobs := rfl
@[simp] theorem State.ask_rsp {α : Type} (s : State) (call : World → World × α) : (s.ask call).1.rsp = s.rsp := rfl
@[simp] theorem State.ask_xok {α : Type} (s : State) (call : World → World × α) : (s.ask call).1.xok = s.xok := rfl
@[simp] theorem State.ask_csum {α : Type} (s : State) (call : World → World × α) : (s.ask call).1.csum = s.csum := rfl
@[simp] theorem State.ask_txcnt {α : Type} (s : State) (call : World → World × α) : (s.ask call).1.txcnt = s.txcnt := rfl
@[simp] theorem State.ask_bootSel {α : Type} (s : State) (call : World → World × α) : (s.ask call).1.bootSel = s.bootSel := rfl
@[simp] theorem State.ask_nrst {α : Type} (s : State) (call : World → World × α) : (s.ask call).1.nrst = s.nrst := rfl
@[simp] theorem State.ask_eraseStat {α : Type} (s : State) (call : World → World × α) : (s.ask call).1.eraseStat = s.eraseStat := rfl
@[simp] theorem State.ask_cfg {α : Type} (s : State) (call : World → World × α) : (s.ask call).1.cfg = s.cfg := rfl
@[simp] theorem State.ask_world {α : Type} (s : State) (call : World → World × α) : (s.ask call).1.world = (call s.world).1 := rfl
@[simp] theorem State.ask_name {α : Type} (s : State) (call : World → World × α) : (s.ask call).1.name = s.name := rfl
@[simp] theorem State.ask_inputs {α : Type} (s : State) (call : World → World × α) : (s.ask call).1.inputs = s.inputs := rfl
@[simp] theorem State.ask_slot {α : Type} (s : State) (call : World → World × α) : (s.ask call).1.slot = s.slot := rfl
@[simp] theorem State.ask_ret {α : Type} (s : State) (call : World → World × α) : (s.ask call).1.ret = s.ret := rfl
@[simp] theorem State.ask_par {α : Type} (s : State) (call : World → World × α) : (s.ask call).1.par = s.par := rfl

/-! ### `tell` -/
@[simp] theorem State.tell_st (s : State) (call : World → World) : (s.tell call).st = s.st := rfl
@[simp] theorem State.tell_pos (s : State) (call : World → World) : (s.tell call).pos = s.pos := rfl
@[simp] theorem State.tell_addr (s : State) (call : World → World) : (s.tell call).addr = s.addr := rfl
@[simp] theorem State.tell_blk (s : State) (call : World → World) : (s.tell call).blk = s.blk := rfl
@[simp] theorem State.tell_nblk (s : State) (call : World → World) : (s.tell call).nblk = s.nblk := rfl
@[simp] theorem State.tell_imgSize (s : State) (call : World → World) : (s.tell call).imgSize = s.imgSize := rfl
@[simp] theorem State.tell_imgOpen (s : State) (call : World → World) : (s.tell call).imgOpen = s.imgOpen := rfl
@[simp] theorem State.tell_modeEntered (s : State) (call : World → World) : (s.tell call).modeEntered = s.modeEntered := rfl
@[simp] theorem State.tell_result (s : State) (call : World → World) : (s.tell call).result = s.result := rfl
@[simp] theorem State.tell_buf (s : State) (call : World → World) : (s.tell call).buf = s.buf := rfl
@[simp] theorem State.tell_nread (s : State) (call : World → World) : (s.tell call).nread = s.nread := rfl
@[simp] theorem State.tell_attempt (s : State) (call : World → World) : (s.tell call).attempt = s.attempt := rfl
@[simp] theorem State.tell_elapsed (s : State) (call : World → World) : (s.tell call).elapsed = s.elapsed := rfl
@[simp] theorem State.tell_lobs (s : State) (call : World → World) : (s.tell call).lobs = s.lobs := rfl
@[simp] theorem State.tell_rsp (s : State) (call : World → World) : (s.tell call).rsp = s.rsp := rfl
@[simp] theorem State.tell_xok (s : State) (call : World → World) : (s.tell call).xok = s.xok := rfl
@[simp] theorem State.tell_csum (s : State) (call : World → World) : (s.tell call).csum = s.csum := rfl
@[simp] theorem State.tell_txcnt (s : State) (call : World → World) : (s.tell call).txcnt = s.txcnt := rfl
@[simp] theorem State.tell_bootSel (s : State) (call : World → World) : (s.tell call).bootSel = s.bootSel := rfl
@[simp] theorem State.tell_nrst (s : State) (call : World → World) : (s.tell call).nrst = s.nrst := rfl
@[simp] theorem State.tell_eraseStat (s : State) (call : World → World) : (s.tell call).eraseStat = s.eraseStat := rfl
@[simp] theorem State.tell_cfg (s : State) (call : World → World) : (s.tell call).cfg = s.cfg := rfl
@[simp] theorem State.tell_world (s : State) (call : World → World) : (s.tell call).world = call s.world := rfl
@[simp] theorem State.tell_name (s : State) (call : World → World) : (s.tell call).name = s.name := rfl
@[simp] theorem State.tell_inputs (s : State) (call : World → World) : (s.tell call).inputs = s.inputs := rfl
@[simp] theorem State.tell_slot (s : State) (call : World → World) : (s.tell call).slot = s.slot := rfl
@[simp] theorem State.tell_ret (s : State) (call : World → World) : (s.tell call).ret = s.ret := rfl
@[simp] theorem State.tell_par (s : State) (call : World → World) : (s.tell call).par = s.par := rfl

/-! ### `setRet` -/
@[simp] theorem State.setRet_st (s : State) (r : Ret) : (s.setRet r).st = s.st := rfl
@[simp] theorem State.setRet_pos (s : State) (r : Ret) : (s.setRet r).pos = s.pos := rfl
@[simp] theorem State.setRet_addr (s : State) (r : Ret) : (s.setRet r).addr = s.addr := rfl
@[simp] theorem State.setRet_blk (s : State) (r : Ret) : (s.setRet r).blk = s.blk := rfl
@[simp] theorem State.setRet_nblk (s : State) (r : Ret) : (s.setRet r).nblk = s.nblk := rfl
@[simp] theorem State.setRet_imgSize (s : State) (r : Ret) : (s.setRet r).imgSize = s.imgSize := rfl
@[simp] theorem State.setRet_imgOpen (s : State) (r : Ret) : (s.setRet r).imgOpen = s.imgOpen := rfl
@[simp] theorem State.setRet_modeEntered (s : State) (r : Ret) : (s.setRet r).modeEntered = s.modeEntered := rfl
@[simp] theorem State.setRet_result (s : State) (r : Ret) : (s.setRet r).result = s.result := rfl
@[simp] theorem State.setRet_buf (s : State) (r : Ret) : (s.setRet r).buf = s.buf := rfl
@[simp] theorem State.setRet_nread (s : State) (r : Ret) : (s.setRet r).nread = s.nread := rfl
@[simp] theorem State.setRet_attempt (s : State) (r : Ret) : (s.setRet r).attempt = s.attempt := rfl
@[simp] theorem State.setRet_elapsed (s : State) (r : Ret) : (s.setRet r).elapsed = s.elapsed := rfl
@[simp] theorem State.setRet_lobs (s : State) (r : Ret) : (s.setRet r).lobs = s.lobs := rfl
@[simp] theorem State.setRet_rsp (s : State) (r : Ret) : (s.setRet r).rsp = s.rsp := rfl
@[simp] theorem State.setRet_xok (s : State) (r : Ret) : (s.setRet r).xok = s.xok := rfl
@[simp] theorem State.setRet_csum (s : State) (r : Ret) : (s.setRet r).csum = s.csum := rfl
@[simp] theorem State.setRet_txcnt (s : State) (r : Ret) : (s.setRet r).txcnt = s.txcnt := rfl
@[simp] theorem State.setRet_bootSel (s : State) (r : Ret) : (s.setRet r).bootSel = s.bootSel := rfl
@[simp] theorem State.setRet_nrst (s : State) (r : Ret) : (s.setRet r).nrst = s.nrst := rfl
@[simp] theorem State.setRet_eraseStat (s : State) (r : Ret) : (s.setRet r).eraseStat = s.eraseStat := rfl
@[simp] theorem State.setRet_cfg (s : State) (r : Ret) : (s.setRet r).cfg = s.cfg := rfl
@[simp] theorem State.setRet_world (s : State) (r : Ret) : (s.setRet r).world = s.world := rfl
@[simp] theorem State.setRet_name (s : State) (r : Ret) : (s.setRet r).name = s.name := rfl
@[simp] theorem State.setRet_inputs (s : State) (r : Ret) : (s.setRet r).inputs = s.inputs := rfl
@[simp] theorem State.setRet_slot (s : State) (r : Ret) : (s.setRet r).slot = s.slot := rfl
@[simp] theorem State.setRet_ret (s : State) (r : Ret) : (s.setRet r).ret = r := rfl
@[simp] theorem State.setRet_par (s : State) (r : Ret) : (s.setRet r).par = s.par := rfl

/-! ### `goto` -/
@[simp] theorem State.goto_st (s : State) (x : St) : (s.goto x).st = x := rfl
@[simp] theorem State.goto_pos (s : State) (x : St) : (s.goto x).pos = .entry := rfl
@[simp] theorem State.goto_addr (s : State) (x : St) : (s.goto x).addr = s.addr := rfl
@[simp] theorem State.goto_blk (s : State) (x : St) : (s.goto x).blk = s.blk := rfl
@[simp] theorem State.goto_nblk (s : State) (x : St) : (s.goto x).nblk = s.nblk := rfl
@[simp] theorem State.goto_imgSize (s : State) (x : St) : (s.goto x).imgSize = s.imgSize := rfl
@[simp] theorem State.goto_imgOpen (s : State) (x : St) : (s.goto x).imgOpen = s.imgOpen := rfl
@[simp] theorem State.goto_modeEntered (s : State) (x : St) : (s.goto x).modeEntered = s.modeEntered := rfl
@[simp] theorem State.goto_result (s : State) (x : St) : (s.goto x).result = s.result := rfl
@[simp] theorem State.goto_buf (s : State) (x : St) : (s.goto x).buf = s.buf := rfl
@[simp] theorem State.goto_nread (s : State) (x : St) : (s.goto x).nread = s.nread := rfl
@[simp] theorem State.goto_attempt (s : State) (x : St) : (s.goto x).attempt = s.attempt := rfl
@[simp] theorem State.goto_elapsed (s : State) (x : St) : (s.goto x).elapsed = s.elapsed := rfl
@[simp] theorem State.goto_lobs (s : State) (x : St) : (s.goto x).lobs = s.lobs := rfl
@[simp] theorem State.goto_rsp (s : State) (x : St) : (s.goto x).rsp = s.rsp := rfl
@[simp] theorem State.goto_xok (s : State) (x : St) : (s.goto x).xok = s.xok := rfl
@[simp] theorem State.goto_csum (s : State) (x : St) : (s.goto x).csum = s.csum := rfl
@[simp] theorem State.goto_txcnt (s : State) (x : St) : (s.goto x).txcnt = s.txcnt := rfl
@[simp] theorem State.goto_bootSel (s : State) (x : St) : (s.goto x).bootSel = s.bootSel := rfl
@[simp] theorem State.goto_nrst (s : State) (x : St) : (s.goto x).nrst = s.nrst := rfl
@[simp] theorem State.goto_eraseStat (s : State) (x : St) : (s.goto x).eraseStat = s.eraseStat := rfl
@[simp] theorem State.goto_cfg (s : State) (x : St) : (s.goto x).cfg = s.cfg := rfl
@[simp] theorem State.goto_world (s : State) (x : St) : (s.goto x).world = s.world := rfl
@[simp] theorem State.goto_name (s : State) (x : St) : (s.goto x).name = s.name := rfl
@[simp] theorem State.goto_inputs (s : State) (x : St) : (s.goto x).inputs = s.inputs := rfl
@[simp] theorem State.goto_slot (s : State) (x : St) : (s.goto x).slot = s.slot := rfl
@[simp] theorem State.goto_ret (s : State) (x : St) : (s.goto x).ret = s.ret := rfl
@[simp] theorem State.goto_par (s : State) (x : St) : (s.goto x).par = s.par := rfl

/-! ### `goPos` -/
@[simp] theorem State.goPos_st (s : State) (p : Pos) : (s.goPos p).st = s.st := rfl
@[simp] theorem State.goPos_pos (s : State) (p : Pos) : (s.goPos p).pos = p := rfl
@[simp] theorem State.goPos_addr (s : State) (p : Pos) : (s.goPos p).addr = s.addr := rfl
@[simp] theorem State.goPos_blk (s : State) (p : Pos) : (s.goPos p).blk = s.blk := rfl
@[simp] theorem State.goPos_nblk (s : State) (p : Pos) : (s.goPos p).nblk = s.nblk := rfl
@[simp] theorem State.goPos_imgSize (s : State) (p : Pos) : (s.goPos p).imgSize = s.imgSize := rfl
@[simp] theorem State.goPos_imgOpen (s : State) (p : Pos) : (s.goPos p).imgOpen = s.imgOpen := rfl
@[simp] theorem State.goPos_modeEntered (s : State) (p : Pos) : (s.goPos p).modeEntered = s.modeEntered := rfl
@[simp] theorem State.goPos_result (s : State) (p : Pos) : (s.goPos p).result = s.result := rfl
@[simp] theorem State.goPos_buf (s : State) (p : Pos) : (s.goPos p).buf = s.buf := rfl
@[simp] theorem State.goPos_nread (s : State) (p : Pos) : (s.goPos p).nread = s.nread := rfl
@[simp] theorem State.goPos_attempt (s : State) (p : Pos) : (s.goPos p).attempt = s.attempt := rfl
@[simp] theorem State.goPos_elapsed (s : State) (p : Pos) : (s.goPos p).elapsed = s.elapsed := rfl
@[simp] theorem State.goPos_lobs (s : State) (p : Pos) : (s.goPos p).lobs = s.lobs := rfl
@[simp] theorem State.goPos_rsp (s : State) (p : Pos) : (s.goPos p).rsp = s.rsp := rfl
@[simp] theorem State.goPos_xok (s : State) (p : Pos) : (s.goPos p).xok = s.xok := rfl
@[simp] theorem State.goPos_csum (s : State) (p : Pos) : (s.goPos p).csum = s.csum := rfl
@[simp] theorem State.goPos_txcnt (s : State) (p : Pos) : (s.goPos p).txcnt = s.txcnt := rfl
@[simp] theorem State.goPos_bootSel (s : State) (p : Pos) : (s.goPos p).bootSel = s.bootSel := rfl
@[simp] theorem State.goPos_nrst (s : State) (p : Pos) : (s.goPos p).nrst = s.nrst := rfl
@[simp] theorem State.goPos_eraseStat (s : State) (p : Pos) : (s.goPos p).eraseStat = s.eraseStat := rfl
@[simp] theorem State.goPos_cfg (s : State) (p : Pos) : (s.goPos p).cfg = s.cfg := rfl
@[simp] theorem State.goPos_world (s : State) (p : Pos) : (s.goPos p).world = s.world := rfl
@[simp] theorem State.goPos_name (s : State) (p : Pos) : (s.goPos p).name = s.name := rfl
@[simp] theorem State.goPos_inputs (s : State) (p : Pos) : (s.goPos p).inputs = s.inputs := rfl
@[simp] theorem State.goPos_slot (s : State) (p : Pos) : (s.goPos p).slot = s.slot := rfl
@[simp] theorem State.goPos_ret (s : State) (p : Pos) : (s.goPos p).ret = s.ret := rfl
@[simp] theorem State.goPos_par (s : State) (p : Pos) : (s.goPos p).par = s.par := rfl

/-! ### `raiseFail` -/
@[simp] theorem State.raiseFail_st (s : State) (kind : Result) : (s.raiseFail kind).st = .modeExited := rfl
@[simp] theorem State.raiseFail_pos (s : State) (kind : Result) : (s.raiseFail kind).pos = .entry := rfl
@[simp] theorem State.raiseFail_addr (s : State) (kind : Result) : (s.raiseFail kind).addr = s.addr := rfl
@[simp] theorem State.raiseFail_blk (s : State) (kind : Result) : (s.raiseFail kind).blk = s.blk := rfl
@[simp] theorem State.raiseFail_nblk (s : State) (kind : Result) : (s.raiseFail kind).nblk = s.nblk := rfl
@[simp] theorem State.raiseFail_imgSize (s : State) (kind : Result) : (s.raiseFail kind).imgSize = s.imgSize := rfl
@[simp] theorem State.raiseFail_imgOpen (s : State) (kind : Result) : (s.raiseFail kind).imgOpen = s.imgOpen := rfl
@[simp] theorem State.raiseFail_modeEntered (s : State) (kind : Result) : (s.raiseFail kind).modeEntered = s.modeEntered := rfl
@[simp] theorem State.raiseFail_result (s : State) (kind : Result) : (s.raiseFail kind).result = if s.result = .success then kind else s.result := rfl
@[simp] theorem State.raiseFail_buf (s : State) (kind : Result) : (s.raiseFail kind).buf = s.buf := rfl
@[simp] theorem State.raiseFail_nread (s : State) (kind : Result) : (s.raiseFail kind).nread = s.nread := rfl
@[simp] theorem State.raiseFail_attempt (s : State) (kind : Result) : (s.raiseFail kind).attempt = s.attempt := rfl
@[simp] theorem State.raiseFail_elapsed (s : State) (kind : Result) : (s.raiseFail kind).elapsed = s.elapsed := rfl
@[simp] theorem State.raiseFail_lobs (s : State) (kind : Result) : (s.raiseFail kind).lobs = s.lobs := rfl
@[simp] theorem State.raiseFail_rsp (s : State) (kind : Result) : (s.raiseFail kind).rsp = s.rsp := rfl
@[simp] theorem State.raiseFail_xok (s : State) (kind : Result) : (s.raiseFail kind).xok = s.xok := rfl
@[simp] theorem State.raiseFail_csum (s : State) (kind : Result) : (s.raiseFail kind).csum = s.csum := rfl
@[simp] theorem State.raiseFail_txcnt (s : State) (kind : Result) : (s.raiseFail kind).txcnt = s.txcnt := rfl
@[simp] theorem State.raiseFail_bootSel (s : State) (kind : Result) : (s.raiseFail kind).bootSel = s.bootSel := rfl
@[simp] theorem State.raiseFail_nrst (s : State) (kind : Result) : (s.raiseFail kind).nrst = s.nrst := rfl
@[simp] theorem State.raiseFail_eraseStat (s : State) (kind : Result) : (s.raiseFail kind).eraseStat = s.eraseStat := rfl
@[simp] theorem State.raiseFail_cfg (s : State) (kind : Result) : (s.raiseFail kind).cfg = s.cfg := rfl
@[simp] theorem State.raiseFail_world (s : State) (kind : Result) : (s.raiseFail kind).world = s.world := rfl
@[simp] theorem State.raiseFail_name (s : State) (kind : Result) : (s.raiseFail kind).name = s.name := rfl
@[simp] theorem State.raiseFail_inputs (s : State) (kind : Result) : (s.raiseFail kind).inputs = s.inputs := rfl
@[simp] theorem State.raiseFail_slot (s : State) (kind : Result) : (s.raiseFail kind).slot = s.slot := rfl
@[simp] theorem State.raiseFail_ret (s : State) (kind : Result) : (s.raiseFail kind).ret = s.ret := rfl
@[simp] theorem State.raiseFail_par (s : State) (kind : Result) : (s.raiseFail kind).par = s.par := rfl

/-! ### `startSession` -/
@[simp] theorem State.startSession_st (s : State) (c : Cfg) (nm : Name) : (s.startSession c nm).st = .configValidated := rfl
@[simp] theorem State.startSession_pos (s : State) (c : Cfg) (nm : Name) : (s.startSession c nm).pos = .entry := rfl
@[simp] theorem State.startSession_addr (s : State) (c : Cfg) (nm : Name) : (s.startSession c nm).addr = s.addr := rfl
@[simp] theorem State.startSession_blk (s : State) (c : Cfg) (nm : Name) : (s.startSession c nm).blk = s.blk := rfl
@[simp] theorem State.startSession_nblk (s : State) (c : Cfg) (nm : Name) : (s.startSession c nm).nblk = s.nblk := rfl
@[simp] theorem State.startSession_imgSize (s : State) (c : Cfg) (nm : Name) : (s.startSession c nm).imgSize = s.imgSize := rfl
@[simp] theorem State.startSession_imgOpen (s : State) (c : Cfg) (nm : Name) : (s.startSession c nm).imgOpen = false := rfl
@[simp] theorem State.startSession_modeEntered (s : State) (c : Cfg) (nm : Name) : (s.startSession c nm).modeEntered = false := rfl
@[simp] theorem State.startSession_result (s : State) (c : Cfg) (nm : Name) : (s.startSession c nm).result = .success := rfl
@[simp] theorem State.startSession_buf (s : State) (c : Cfg) (nm : Name) : (s.startSession c nm).buf = s.buf := rfl
@[simp] theorem State.startSession_nread (s : State) (c : Cfg) (nm : Name) : (s.startSession c nm).nread = s.nread := rfl
@[simp] theorem State.startSession_attempt (s : State) (c : Cfg) (nm : Name) : (s.startSession c nm).attempt = 0 := rfl
@[simp] theorem State.startSession_elapsed (s : State) (c : Cfg) (nm : Name) : (s.startSession c nm).elapsed = s.elapsed := rfl
@[simp] theorem State.startSession_lobs (s : State) (c : Cfg) (nm : Name) : (s.startSession c nm).lobs = s.lobs := rfl
@[simp] theorem State.startSession_rsp (s : State) (c : Cfg) (nm : Name) : (s.startSession c nm).rsp = s.rsp := rfl
@[simp] theorem State.startSession_xok (s : State) (c : Cfg) (nm : Name) : (s.startSession c nm).xok = false := rfl
@[simp] theorem State.startSession_csum (s : State) (c : Cfg) (nm : Name) : (s.startSession c nm).csum = s.csum := rfl
@[simp] theorem State.startSession_txcnt (s : State) (c : Cfg) (nm : Name) : (s.startSession c nm).txcnt = s.txcnt := rfl
@[simp] theorem State.startSession_bootSel (s : State) (c : Cfg) (nm : Name) : (s.startSession c nm).bootSel = s.bootSel := rfl
@[simp] theorem State.startSession_nrst (s : State) (c : Cfg) (nm : Name) : (s.startSession c nm).nrst = s.nrst := rfl
@[simp] theorem State.startSession_eraseStat (s : State) (c : Cfg) (nm : Name) : (s.startSession c nm).eraseStat = 0 := rfl
@[simp] theorem State.startSession_cfg (s : State) (c : Cfg) (nm : Name) : (s.startSession c nm).cfg = c := rfl
@[simp] theorem State.startSession_world (s : State) (c : Cfg) (nm : Name) : (s.startSession c nm).world = s.world := rfl
@[simp] theorem State.startSession_name (s : State) (c : Cfg) (nm : Name) : (s.startSession c nm).name = nm := rfl
@[simp] theorem State.startSession_inputs (s : State) (c : Cfg) (nm : Name) : (s.startSession c nm).inputs = s.inputs := rfl
@[simp] theorem State.startSession_slot (s : State) (c : Cfg) (nm : Name) : (s.startSession c nm).slot = s.slot := rfl
@[simp] theorem State.startSession_ret (s : State) (c : Cfg) (nm : Name) : (s.startSession c nm).ret = s.ret := rfl
@[simp] theorem State.startSession_par (s : State) (c : Cfg) (nm : Name) : (s.startSession c nm).par = s.par := rfl

/-! ### `popInput` -/
@[simp] theorem State.popInput_st (s : State) : s.popInput.st = s.st := rfl
@[simp] theorem State.popInput_pos (s : State) : s.popInput.pos = s.pos := rfl
@[simp] theorem State.popInput_addr (s : State) : s.popInput.addr = s.addr := rfl
@[simp] theorem State.popInput_blk (s : State) : s.popInput.blk = s.blk := rfl
@[simp] theorem State.popInput_nblk (s : State) : s.popInput.nblk = s.nblk := rfl
@[simp] theorem State.popInput_imgSize (s : State) : s.popInput.imgSize = s.imgSize := rfl
@[simp] theorem State.popInput_imgOpen (s : State) : s.popInput.imgOpen = s.imgOpen := rfl
@[simp] theorem State.popInput_modeEntered (s : State) : s.popInput.modeEntered = s.modeEntered := rfl
@[simp] theorem State.popInput_result (s : State) : s.popInput.result = s.result := rfl
@[simp] theorem State.popInput_buf (s : State) : s.popInput.buf = s.buf := rfl
@[simp] theorem State.popInput_nread (s : State) : s.popInput.nread = s.nread := rfl
@[simp] theorem State.popInput_attempt (s : State) : s.popInput.attempt = s.attempt := rfl
@[simp] theorem State.popInput_elapsed (s : State) : s.popInput.elapsed = s.elapsed := rfl
@[simp] theorem State.popInput_lobs (s : State) : s.popInput.lobs = s.lobs := rfl
@[simp] theorem State.popInput_rsp (s : State) : s.popInput.rsp = s.rsp := rfl
@[simp] theorem State.popInput_xok (s : State) : s.popInput.xok = s.xok := rfl
@[simp] theorem State.popInput_csum (s : State) : s.popInput.csum = s.csum := rfl
@[simp] theorem State.popInput_txcnt (s : State) : s.popInput.txcnt = s.txcnt := rfl
@[simp] theorem State.popInput_bootSel (s : State) : s.popInput.bootSel = s.bootSel := rfl
@[simp] theorem State.popInput_nrst (s : State) : s.popInput.nrst = s.nrst := rfl
@[simp] theorem State.popInput_eraseStat (s : State) : s.popInput.eraseStat = s.eraseStat := rfl
@[simp] theorem State.popInput_cfg (s : State) : s.popInput.cfg = s.cfg := rfl
@[simp] theorem State.popInput_world (s : State) : s.popInput.world = s.world := rfl
@[simp] theorem State.popInput_name (s : State) : s.popInput.name = s.name := rfl
@[simp] theorem State.popInput_inputs (s : State) : s.popInput.inputs = s.inputs.tail := rfl
@[simp] theorem State.popInput_slot (s : State) : s.popInput.slot = s.slot := rfl
@[simp] theorem State.popInput_ret (s : State) : s.popInput.ret = s.ret := rfl
@[simp] theorem State.popInput_par (s : State) : s.popInput.par = s.par := rfl

/-! ### `takeSlot` -/
@[simp] theorem State.takeSlot_st (s : State) : s.takeSlot.st = s.st := rfl
@[simp] theorem State.takeSlot_pos (s : State) : s.takeSlot.pos = s.pos := rfl
@[simp] theorem State.takeSlot_addr (s : State) : s.takeSlot.addr = s.addr := rfl
@[simp] theorem State.takeSlot_blk (s : State) : s.takeSlot.blk = s.blk := rfl
@[simp] theorem State.takeSlot_nblk (s : State) : s.takeSlot.nblk = s.nblk := rfl
@[simp] theorem State.takeSlot_imgSize (s : State) : s.takeSlot.imgSize = s.imgSize := rfl
@[simp] theorem State.takeSlot_imgOpen (s : State) : s.takeSlot.imgOpen = s.imgOpen := rfl
@[simp] theorem State.takeSlot_modeEntered (s : State) : s.takeSlot.modeEntered = s.modeEntered := rfl
@[simp] theorem State.takeSlot_result (s : State) : s.takeSlot.result = s.result := rfl
@[simp] theorem State.takeSlot_buf (s : State) : s.takeSlot.buf = s.buf := rfl
@[simp] theorem State.takeSlot_nread (s : State) : s.takeSlot.nread = s.nread := rfl
@[simp] theorem State.takeSlot_attempt (s : State) : s.takeSlot.attempt = s.attempt := rfl
@[simp] theorem State.takeSlot_elapsed (s : State) : s.takeSlot.elapsed = s.elapsed := rfl
@[simp] theorem State.takeSlot_lobs (s : State) : s.takeSlot.lobs = s.lobs := rfl
@[simp] theorem State.takeSlot_rsp (s : State) : s.takeSlot.rsp = s.rsp := rfl
@[simp] theorem State.takeSlot_xok (s : State) : s.takeSlot.xok = s.xok := rfl
@[simp] theorem State.takeSlot_csum (s : State) : s.takeSlot.csum = s.csum := rfl
@[simp] theorem State.takeSlot_txcnt (s : State) : s.takeSlot.txcnt = s.txcnt := rfl
@[simp] theorem State.takeSlot_bootSel (s : State) : s.takeSlot.bootSel = s.bootSel := rfl
@[simp] theorem State.takeSlot_nrst (s : State) : s.takeSlot.nrst = s.nrst := rfl
@[simp] theorem State.takeSlot_eraseStat (s : State) : s.takeSlot.eraseStat = s.eraseStat := rfl
@[simp] theorem State.takeSlot_cfg (s : State) : s.takeSlot.cfg = s.cfg := rfl
@[simp] theorem State.takeSlot_world (s : State) : s.takeSlot.world = s.world := rfl
@[simp] theorem State.takeSlot_name (s : State) : s.takeSlot.name = s.name := rfl
@[simp] theorem State.takeSlot_inputs (s : State) : s.takeSlot.inputs = s.inputs.tail := rfl
@[simp] theorem State.takeSlot_slot (s : State) : s.takeSlot.slot = none := rfl
@[simp] theorem State.takeSlot_ret (s : State) : s.takeSlot.ret = s.ret := rfl
@[simp] theorem State.takeSlot_par (s : State) : s.takeSlot.par = s.par := rfl

/-! ### `setXok` -/
@[simp] theorem State.setXok_st (s : State) (v : Bool) : (s.setXok v).st = s.st := rfl
@[simp] theorem State.setXok_pos (s : State) (v : Bool) : (s.setXok v).pos = s.pos := rfl
@[simp] theorem State.setXok_addr (s : State) (v : Bool) : (s.setXok v).addr = s.addr := rfl
@[simp] theorem State.setXok_blk (s : State) (v : Bool) : (s.setXok v).blk = s.blk := rfl
@[simp] theorem State.setXok_nblk (s : State) (v : Bool) : (s.setXok v).nblk = s.nblk := rfl
@[simp] theorem State.setXok_imgSize (s : State) (v : Bool) : (s.setXok v).imgSize = s.imgSize := rfl
@[simp] theorem State.setXok_imgOpen (s : State) (v : Bool) : (s.setXok v).imgOpen = s.imgOpen := rfl
@[simp] theorem State.setXok_modeEntered (s : State) (v : Bool) : (s.setXok v).modeEntered = s.modeEntered := rfl
@[simp] theorem State.setXok_result (s : State) (v : Bool) : (s.setXok v).result = s.result := rfl
@[simp] theorem State.setXok_buf (s : State) (v : Bool) : (s.setXok v).buf = s.buf := rfl
@[simp] theorem State.setXok_nread (s : State) (v : Bool) : (s.setXok v).nread = s.nread := rfl
@[simp] theorem State.setXok_attempt (s : State) (v : Bool) : (s.setXok v).attempt = s.attempt := rfl
@[simp] theorem State.setXok_elapsed (s : State) (v : Bool) : (s.setXok v).elapsed = s.elapsed := rfl
@[simp] theorem State.setXok_lobs (s : State) (v : Bool) : (s.setXok v).lobs = s.lobs := rfl
@[simp] theorem State.setXok_rsp (s : State) (v : Bool) : (s.setXok v).rsp = s.rsp := rfl
@[simp] theorem State.setXok_xok (s : State) (v : Bool) : (s.setXok v).xok = v := rfl
@[simp] theorem State.setXok_csum (s : State) (v : Bool) : (s.setXok v).csum = s.csum := rfl
@[simp] theorem State.setXok_txcnt (s : State) (v : Bool) : (s.setXok v).txcnt = s.txcnt := rfl
@[simp] theorem State.setXok_bootSel (s : State) (v : Bool) : (s.setXok v).bootSel = s.bootSel := rfl
@[simp] theorem State.setXok_nrst (s : State) (v : Bool) : (s.setXok v).nrst = s.nrst := rfl
@[simp] theorem State.setXok_eraseStat (s : State) (v : Bool) : (s.setXok v).eraseStat = s.eraseStat := rfl
@[simp] theorem State.setXok_cfg (s : State) (v : Bool) : (s.setXok v).cfg = s.cfg := rfl
@[simp] theorem State.setXok_world (s : State) (v : Bool) : (s.setXok v).world = s.world := rfl
@[simp] theorem State.setXok_name (s : State) (v : Bool) : (s.setXok v).name = s.name := rfl
@[simp] theorem State.setXok_inputs (s : State) (v : Bool) : (s.setXok v).inputs = s.inputs := rfl
@[simp] theorem State.setXok_slot (s : State) (v : Bool) : (s.setXok v).slot = s.slot := rfl
@[simp] theorem State.setXok_ret (s : State) (v : Bool) : (s.setXok v).ret = s.ret := rfl
@[simp] theorem State.setXok_par (s : State) (v : Bool) : (s.setXok v).par = s.par := rfl

/-! ### `setMassErased` -/
@[simp] theorem State.setMassErased_st (s : State) (v : Bool) : (s.setMassErased v).st = s.st := rfl
@[simp] theorem State.setMassErased_pos (s : State) (v : Bool) : (s.setMassErased v).pos = s.pos := rfl
@[simp] theorem State.setMassErased_addr (s : State) (v : Bool) : (s.setMassErased v).addr = s.addr := rfl
@[simp] theorem State.setMassErased_blk (s : State) (v : Bool) : (s.setMassErased v).blk = s.blk := rfl
@[simp] theorem State.setMassErased_nblk (s : State) (v : Bool) : (s.setMassErased v).nblk = s.nblk := rfl
@[simp] theorem State.setMassErased_imgSize (s : State) (v : Bool) : (s.setMassErased v).imgSize = s.imgSize := rfl
@[simp] theorem State.setMassErased_imgOpen (s : State) (v : Bool) : (s.setMassErased v).imgOpen = s.imgOpen := rfl
@[simp] theorem State.setMassErased_modeEntered (s : State) (v : Bool) : (s.setMassErased v).modeEntered = s.modeEntered := rfl
@[simp] theorem State.setMassErased_result (s : State) (v : Bool) : (s.setMassErased v).result = s.result := rfl
@[simp] theorem State.setMassErased_buf (s : State) (v : Bool) : (s.setMassErased v).buf = s.buf := rfl
@[simp] theorem State.setMassErased_nread (s : State) (v : Bool) : (s.setMassErased v).nread = s.nread := rfl
@[simp] theorem State.setMassErased_attempt (s : State) (v : Bool) : (s.setMassErased v).attempt = s.attempt := rfl
@[simp] theorem State.setMassErased_elapsed (s : State) (v : Bool) : (s.setMassErased v).elapsed = s.elapsed := rfl
@[simp] theorem State.setMassErased_lobs (s : State) (v : Bool) : (s.setMassErased v).lobs = s.lobs := rfl
@[simp] theorem State.setMassErased_rsp (s : State) (v : Bool) : (s.setMassErased v).rsp = s.rsp := rfl
@[simp] theorem State.setMassErased_xok (s : State) (v : Bool) : (s.setMassErased v).xok = s.xok := rfl
@[simp] theorem State.setMassErased_csum (s : State) (v : Bool) : (s.setMassErased v).csum = s.csum := rfl
@[simp] theorem State.setMassErased_txcnt (s : State) (v : Bool) : (s.setMassErased v).txcnt = s.txcnt := rfl
@[simp] theorem State.setMassErased_bootSel (s : State) (v : Bool) : (s.setMassErased v).bootSel = s.bootSel := rfl
@[simp] theorem State.setMassErased_nrst (s : State) (v : Bool) : (s.setMassErased v).nrst = s.nrst := rfl
@[simp] theorem State.setMassErased_eraseStat (s : State) (v : Bool) : (s.setMassErased v).eraseStat = (s.eraseStat &&& 0b10) ||| (if v then 0b01 else 0b00) := rfl
@[simp] theorem State.setMassErased_cfg (s : State) (v : Bool) : (s.setMassErased v).cfg = s.cfg := rfl
@[simp] theorem State.setMassErased_world (s : State) (v : Bool) : (s.setMassErased v).world = s.world := rfl
@[simp] theorem State.setMassErased_name (s : State) (v : Bool) : (s.setMassErased v).name = s.name := rfl
@[simp] theorem State.setMassErased_inputs (s : State) (v : Bool) : (s.setMassErased v).inputs = s.inputs := rfl
@[simp] theorem State.setMassErased_slot (s : State) (v : Bool) : (s.setMassErased v).slot = s.slot := rfl
@[simp] theorem State.setMassErased_ret (s : State) (v : Bool) : (s.setMassErased v).ret = s.ret := rfl
@[simp] theorem State.setMassErased_par (s : State) (v : Bool) : (s.setMassErased v).par = s.par := rfl

/-! ### `setExtErased` -/
@[simp] theorem State.setExtErased_st (s : State) (v : Bool) : (s.setExtErased v).st = s.st := rfl
@[simp] theorem State.setExtErased_pos (s : State) (v : Bool) : (s.setExtErased v).pos = s.pos := rfl
@[simp] theorem State.setExtErased_addr (s : State) (v : Bool) : (s.setExtErased v).addr = s.addr := rfl
@[simp] theorem State.setExtErased_blk (s : State) (v : Bool) : (s.setExtErased v).blk = s.blk := rfl
@[simp] theorem State.setExtErased_nblk (s : State) (v : Bool) : (s.setExtErased v).nblk = s.nblk := rfl
@[simp] theorem State.setExtErased_imgSize (s : State) (v : Bool) : (s.setExtErased v).imgSize = s.imgSize := rfl
@[simp] theorem State.setExtErased_imgOpen (s : State) (v : Bool) : (s.setExtErased v).imgOpen = s.imgOpen := rfl
@[simp] theorem State.setExtErased_modeEntered (s : State) (v : Bool) : (s.setExtErased v).modeEntered = s.modeEntered := rfl
@[simp] theorem State.setExtErased_result (s : State) (v : Bool) : (s.setExtErased v).result = s.result := rfl
@[simp] theorem State.setExtErased_buf (s : State) (v : Bool) : (s.setExtErased v).buf = s.buf := rfl
@[simp] theorem State.setExtErased_nread (s : State) (v : Bool) : (s.setExtErased v).nread = s.nread := rfl
@[simp] theorem State.setExtErased_attempt (s : State) (v : Bool) : (s.setExtErased v).attempt = s.attempt := rfl
@[simp] theorem State.setExtErased_elapsed (s : State) (v : Bool) : (s.setExtErased v).elapsed = s.elapsed := rfl
@[simp] theorem State.setExtErased_lobs (s : State) (v : Bool) : (s.setExtErased v).lobs = s.lobs := rfl
@[simp] theorem State.setExtErased_rsp (s : State) (v : Bool) : (s.setExtErased v).rsp = s.rsp := rfl
@[simp] theorem State.setExtErased_xok (s : State) (v : Bool) : (s.setExtErased v).xok = s.xok := rfl
@[simp] theorem State.setExtErased_csum (s : State) (v : Bool) : (s.setExtErased v).csum = s.csum := rfl
@[simp] theorem State.setExtErased_txcnt (s : State) (v : Bool) : (s.setExtErased v).txcnt = s.txcnt := rfl
@[simp] theorem State.setExtErased_bootSel (s : State) (v : Bool) : (s.setExtErased v).bootSel = s.bootSel := rfl
@[simp] theorem State.setExtErased_nrst (s : State) (v : Bool) : (s.setExtErased v).nrst = s.nrst := rfl
@[simp] theorem State.setExtErased_eraseStat (s : State) (v : Bool) : (s.setExtErased v).eraseStat = (s.eraseStat &&& 0b01) ||| (if v then 0b10 else 0b00) := rfl
@[simp] theorem State.setExtErased_cfg (s : State) (v : Bool) : (s.setExtErased v).cfg = s.cfg := rfl
@[simp] theorem State.setExtErased_world (s : State) (v : Bool) : (s.setExtErased v).world = s.world := rfl
@[simp] theorem State.setExtErased_name (s : State) (v : Bool) : (s.setExtErased v).name = s.name := rfl
@[simp] theorem State.setExtErased_inputs (s : State) (v : Bool) : (s.setExtErased v).inputs = s.inputs := rfl
@[simp] theorem State.setExtErased_slot (s : State) (v : Bool) : (s.setExtErased v).slot = s.slot := rfl
@[simp] theorem State.setExtErased_ret (s : State) (v : Bool) : (s.setExtErased v).ret = s.ret := rfl
@[simp] theorem State.setExtErased_par (s : State) (v : Bool) : (s.setExtErased v).par = s.par := rfl

/-! ### `xor8` -/
@[simp] theorem State.xor8_st (s : State) (seed : Byte) (bs : Bytes) : (s.xor8 seed bs).1.st = s.st := rfl
@[simp] theorem State.xor8_pos (s : State) (seed : Byte) (bs : Bytes) : (s.xor8 seed bs).1.pos = s.pos := rfl
@[simp] theorem State.xor8_addr (s : State) (seed : Byte) (bs : Bytes) : (s.xor8 seed bs).1.addr = s.addr := rfl
@[simp] theorem State.xor8_blk (s : State) (seed : Byte) (bs : Bytes) : (s.xor8 seed bs).1.blk = s.blk := rfl
@[simp] theorem State.xor8_nblk (s : State) (seed : Byte) (bs : Bytes) : (s.xor8 seed bs).1.nblk = s.nblk := rfl
@[simp] theorem State.xor8_imgSize (s : State) (seed : Byte) (bs : Bytes) : (s.xor8 seed bs).1.imgSize = s.imgSize := rfl
@[simp] theorem State.xor8_imgOpen (s : State) (seed : Byte) (bs : Bytes) : (s.xor8 seed bs).1.imgOpen = s.imgOpen := rfl
@[simp] theorem State.xor8_modeEntered (s : State) (seed : Byte) (bs : Bytes) : (s.xor8 seed bs).1.modeEntered = s.modeEntered := rfl
@[simp] theorem State.xor8_result (s : State) (seed : Byte) (bs : Bytes) : (s.xor8 seed bs).1.result = s.result := rfl
@[simp] theorem State.xor8_buf (s : State) (seed : Byte) (bs : Bytes) : (s.xor8 seed bs).1.buf = s.buf := rfl
@[simp] theorem State.xor8_nread (s : State) (seed : Byte) (bs : Bytes) : (s.xor8 seed bs).1.nread = s.nread := rfl
@[simp] theorem State.xor8_attempt (s : State) (seed : Byte) (bs : Bytes) : (s.xor8 seed bs).1.attempt = s.attempt := rfl
@[simp] theorem State.xor8_elapsed (s : State) (seed : Byte) (bs : Bytes) : (s.xor8 seed bs).1.elapsed = s.elapsed := rfl
@[simp] theorem State.xor8_lobs (s : State) (seed : Byte) (bs : Bytes) : (s.xor8 seed bs).1.lobs = s.lobs := rfl
@[simp] theorem State.xor8_rsp (s : State) (seed : Byte) (bs : Bytes) : (s.xor8 seed bs).1.rsp = s.rsp := rfl
@[simp] theorem State.xor8_xok (s : State) (seed : Byte) (bs : Bytes) : (s.xor8 seed bs).1.xok = s.xok := rfl
@[simp] theorem State.xor8_csum (s : State) (seed : Byte) (bs : Bytes) : (s.xor8 seed bs).1.csum = xorFold seed bs := rfl
@[simp] theorem State.xor8_txcnt (s : State) (seed : Byte) (bs : Bytes) : (s.xor8 seed bs).1.txcnt = s.txcnt := rfl
@[simp] theorem State.xor8_bootSel (s : State) (seed : Byte) (bs : Bytes) : (s.xor8 seed bs).1.bootSel = s.bootSel := rfl
@[simp] theorem State.xor8_nrst (s : State) (seed : Byte) (bs : Bytes) : (s.xor8 seed bs).1.nrst = s.nrst := rfl
@[simp] theorem State.xor8_eraseStat (s : State) (seed : Byte) (bs : Bytes) : (s.xor8 seed bs).1.eraseStat = s.eraseStat := rfl
@[simp] theorem State.xor8_cfg (s : State) (seed : Byte) (bs : Bytes) : (s.xor8 seed bs).1.cfg = s.cfg := rfl
@[simp] theorem State.xor8_world (s : State) (seed : Byte) (bs : Bytes) : (s.xor8 seed bs).1.world = s.world := rfl
@[simp] theorem State.xor8_name (s : State) (seed : Byte) (bs : Bytes) : (s.xor8 seed bs).1.name = s.name := rfl
@[simp] theorem State.xor8_inputs (s : State) (seed : Byte) (bs : Bytes) : (s.xor8 seed bs).1.inputs = s.inputs := rfl
@[simp] theorem State.xor8_slot (s : State) (seed : Byte) (bs : Bytes) : (s.xor8 seed bs).1.slot = s.slot := rfl
@[simp] theorem State.xor8_ret (s : State) (seed : Byte) (bs : Bytes) : (s.xor8 seed bs).1.ret = s.ret := rfl
@[simp] theorem State.xor8_par (s : State) (seed : Byte) (bs : Bytes) : (s.xor8 seed bs).1.par = s.par := rfl

/-! ### `wait` -/
@[simp] theorem State.wait_st (s : State) (n : Nat) : (s.wait n).st = s.st := rfl
@[simp] theorem State.wait_pos (s : State) (n : Nat) : (s.wait n).pos = s.pos := rfl
@[simp] theorem State.wait_addr (s : State) (n : Nat) : (s.wait n).addr = s.addr := rfl
@[simp] theorem State.wait_blk (s : State) (n : Nat) : (s.wait n).blk = s.blk := rfl
@[simp] theorem State.wait_nblk (s : State) (n : Nat) : (s.wait n).nblk = s.nblk := rfl
@[simp] theorem State.wait_imgSize (s : State) (n : Nat) : (s.wait n).imgSize = s.imgSize := rfl
@[simp] theorem State.wait_imgOpen (s : State) (n : Nat) : (s.wait n).imgOpen = s.imgOpen := rfl
@[simp] theorem State.wait_modeEntered (s : State) (n : Nat) : (s.wait n).modeEntered = s.modeEntered := rfl
@[simp] theorem State.wait_result (s : State) (n : Nat) : (s.wait n).result = s.result := rfl
@[simp] theorem State.wait_buf (s : State) (n : Nat) : (s.wait n).buf = s.buf := rfl
@[simp] theorem State.wait_nread (s : State) (n : Nat) : (s.wait n).nread = s.nread := rfl
@[simp] theorem State.wait_attempt (s : State) (n : Nat) : (s.wait n).attempt = s.attempt := rfl
@[simp] theorem State.wait_elapsed (s : State) (n : Nat) : (s.wait n).elapsed = s.elapsed := rfl
@[simp] theorem State.wait_lobs (s : State) (n : Nat) : (s.wait n).lobs = s.lobs := rfl
@[simp] theorem State.wait_rsp (s : State) (n : Nat) : (s.wait n).rsp = s.rsp := rfl
@[simp] theorem State.wait_xok (s : State) (n : Nat) : (s.wait n).xok = s.xok := rfl
@[simp] theorem State.wait_csum (s : State) (n : Nat) : (s.wait n).csum = s.csum := rfl
@[simp] theorem State.wait_txcnt (s : State) (n : Nat) : (s.wait n).txcnt = s.txcnt := rfl
@[simp] theorem State.wait_bootSel (s : State) (n : Nat) : (s.wait n).bootSel = s.bootSel := rfl
@[simp] theorem State.wait_nrst (s : State) (n : Nat) : (s.wait n).nrst = s.nrst := rfl
@[simp] theorem State.wait_eraseStat (s : State) (n : Nat) : (s.wait n).eraseStat = s.eraseStat := rfl
@[simp] theorem State.wait_cfg (s : State) (n : Nat) : (s.wait n).cfg = s.cfg := rfl
@[simp] theorem State.wait_world (s : State) (n : Nat) : (s.wait n).world = World.wait s.cap n s.world := rfl
@[simp] theorem State.wait_name (s : State) (n : Nat) : (s.wait n).name = s.name := rfl
@[simp] theorem State.wait_inputs (s : State) (n : Nat) : (s.wait n).inputs = s.inputs := rfl
@[simp] theorem State.wait_slot (s : State) (n : Nat) : (s.wait n).slot = s.slot := rfl
@[simp] theorem State.wait_ret (s : State) (n : Nat) : (s.wait n).ret = s.ret := rfl
@[simp] theorem State.wait_par (s : State) (n : Nat) : (s.wait n).par = s.par := rfl

/-! ### `pause` -/
@[simp] theorem State.pause_st (s : State) : s.pause.st = s.st := rfl
@[simp] theorem State.pause_pos (s : State) : s.pause.pos = s.pos := rfl
@[simp] theorem State.pause_addr (s : State) : s.pause.addr = s.addr := rfl
@[simp] theorem State.pause_blk (s : State) : s.pause.blk = s.blk := rfl
@[simp] theorem State.pause_nblk (s : State) : s.pause.nblk = s.nblk := rfl
@[simp] theorem State.pause_imgSize (s : State) : s.pause.imgSize = s.imgSize := rfl
@[simp] theorem State.pause_imgOpen (s : State) : s.pause.imgOpen = s.imgOpen := rfl
@[simp] theorem State.pause_modeEntered (s : State) : s.pause.modeEntered = s.modeEntered := rfl
@[simp] theorem State.pause_result (s : State) : s.pause.result = s.result := rfl
@[simp] theorem State.pause_buf (s : State) : s.pause.buf = s.buf := rfl
@[simp] theorem State.pause_nread (s : State) : s.pause.nread = s.nread := rfl
@[simp] theorem State.pause_attempt (s : State) : s.pause.attempt = s.attempt := rfl
@[simp] theorem State.pause_elapsed (s : State) : s.pause.elapsed = s.elapsed + BitVec.ofNat 32 s.par.pollInterval := rfl
@[simp] theorem State.pause_lobs (s : State) : s.pause.lobs = s.lobs := rfl
@[simp] theorem State.pause_rsp (s : State) : s.pause.rsp = s.rsp := rfl
@[simp] theorem State.pause_xok (s : State) : s.pause.xok = s.xok := rfl
@[simp] theorem State.pause_csum (s : State) : s.pause.csum = s.csum := rfl
@[simp] theorem State.pause_txcnt (s : State) : s.pause.txcnt = s.txcnt := rfl
@[simp] theorem State.pause_bootSel (s : State) : s.pause.bootSel = s.bootSel := rfl
@[simp] theorem State.pause_nrst (s : State) : s.pause.nrst = s.nrst := rfl
@[simp] theorem State.pause_eraseStat (s : State) : s.pause.eraseStat = s.eraseStat := rfl
@[simp] theorem State.pause_cfg (s : State) : s.pause.cfg = s.cfg := rfl
@[simp] theorem State.pause_world (s : State) : s.pause.world = World.wait s.cap s.par.pollInterval s.world := rfl
@[simp] theorem State.pause_name (s : State) : s.pause.name = s.name := rfl
@[simp] theorem State.pause_inputs (s : State) : s.pause.inputs = s.inputs := rfl
@[simp] theorem State.pause_slot (s : State) : s.pause.slot = s.slot := rfl
@[simp] theorem State.pause_ret (s : State) : s.pause.ret = s.ret := rfl
@[simp] theorem State.pause_par (s : State) : s.pause.par = s.par := rfl

/-! ### `issue` -/
@[simp] theorem State.issue_st (s : State) (c : Stage) : (s.issue c).st = s.st := rfl
@[simp] theorem State.issue_pos (s : State) (c : Stage) : (s.issue c).pos = .stage c .tx := rfl
@[simp] theorem State.issue_addr (s : State) (c : Stage) : (s.issue c).addr = s.addr := rfl
@[simp] theorem State.issue_blk (s : State) (c : Stage) : (s.issue c).blk = s.blk := rfl
@[simp] theorem State.issue_nblk (s : State) (c : Stage) : (s.issue c).nblk = s.nblk := rfl
@[simp] theorem State.issue_imgSize (s : State) (c : Stage) : (s.issue c).imgSize = s.imgSize := rfl
@[simp] theorem State.issue_imgOpen (s : State) (c : Stage) : (s.issue c).imgOpen = s.imgOpen := rfl
@[simp] theorem State.issue_modeEntered (s : State) (c : Stage) : (s.issue c).modeEntered = s.modeEntered := rfl
@[simp] theorem State.issue_result (s : State) (c : Stage) : (s.issue c).result = s.result := rfl
@[simp] theorem State.issue_buf (s : State) (c : Stage) : (s.issue c).buf = s.buf := rfl
@[simp] theorem State.issue_nread (s : State) (c : Stage) : (s.issue c).nread = s.nread := rfl
@[simp] theorem State.issue_attempt (s : State) (c : Stage) : (s.issue c).attempt = s.attempt := rfl
@[simp] theorem State.issue_elapsed (s : State) (c : Stage) : (s.issue c).elapsed = s.elapsed := rfl
@[simp] theorem State.issue_lobs (s : State) (c : Stage) : (s.issue c).lobs = s.lobs := rfl
@[simp] theorem State.issue_rsp (s : State) (c : Stage) : (s.issue c).rsp = s.rsp := rfl
@[simp] theorem State.issue_xok (s : State) (c : Stage) : (s.issue c).xok = s.xok := rfl
@[simp] theorem State.issue_csum (s : State) (c : Stage) : (s.issue c).csum = s.csum := rfl
@[simp] theorem State.issue_txcnt (s : State) (c : Stage) : (s.issue c).txcnt = s.txcnt := rfl
@[simp] theorem State.issue_bootSel (s : State) (c : Stage) : (s.issue c).bootSel = s.bootSel := rfl
@[simp] theorem State.issue_nrst (s : State) (c : Stage) : (s.issue c).nrst = s.nrst := rfl
@[simp] theorem State.issue_eraseStat (s : State) (c : Stage) : (s.issue c).eraseStat = s.eraseStat := rfl
@[simp] theorem State.issue_cfg (s : State) (c : Stage) : (s.issue c).cfg = s.cfg := rfl
@[simp] theorem State.issue_world (s : State) (c : Stage) : (s.issue c).world = s.world := rfl
@[simp] theorem State.issue_name (s : State) (c : Stage) : (s.issue c).name = s.name := rfl
@[simp] theorem State.issue_inputs (s : State) (c : Stage) : (s.issue c).inputs = s.inputs := rfl
@[simp] theorem State.issue_slot (s : State) (c : Stage) : (s.issue c).slot = s.slot := rfl
@[simp] theorem State.issue_ret (s : State) (c : Stage) : (s.issue c).ret = s.ret := rfl
@[simp] theorem State.issue_par (s : State) (c : Stage) : (s.issue c).par = s.par := rfl

/-! ### `endSession` -/
@[simp] theorem State.endSession_st (s : State) : s.endSession.st = .done := rfl
@[simp] theorem State.endSession_pos (s : State) : s.endSession.pos = .entry := rfl
@[simp] theorem State.endSession_addr (s : State) : s.endSession.addr = s.addr := rfl
@[simp] theorem State.endSession_blk (s : State) : s.endSession.blk = s.blk := rfl
@[simp] theorem State.endSession_nblk (s : State) : s.endSession.nblk = s.nblk := rfl
@[simp] theorem State.endSession_imgSize (s : State) : s.endSession.imgSize = s.imgSize := rfl
@[simp] theorem State.endSession_imgOpen (s : State) : s.endSession.imgOpen = s.imgOpen := rfl
@[simp] theorem State.endSession_modeEntered (s : State) : s.endSession.modeEntered = s.modeEntered := rfl
@[simp] theorem State.endSession_result (s : State) : s.endSession.result = s.result := rfl
@[simp] theorem State.endSession_buf (s : State) : s.endSession.buf = s.buf := rfl
@[simp] theorem State.endSession_nread (s : State) : s.endSession.nread = s.nread := rfl
@[simp] theorem State.endSession_attempt (s : State) : s.endSession.attempt = s.attempt := rfl
@[simp] theorem State.endSession_elapsed (s : State) : s.endSession.elapsed = s.elapsed := rfl
@[simp] theorem State.endSession_lobs (s : State) : s.endSession.lobs = s.lobs := rfl
@[simp] theorem State.endSession_rsp (s : State) : s.endSession.rsp = s.rsp := rfl
@[simp] theorem State.endSession_xok (s : State) : s.endSession.xok = s.xok := rfl
@[simp] theorem State.endSession_csum (s : State) : s.endSession.csum = s.csum := rfl
@[simp] theorem State.endSession_txcnt (s : State) : s.endSession.txcnt = s.txcnt := rfl
@[simp] theorem State.endSession_bootSel (s : State) : s.endSession.bootSel = s.bootSel := rfl
@[simp] theorem State.endSession_nrst (s : State) : s.endSession.nrst = s.nrst := rfl
@[simp] theorem State.endSession_eraseStat (s : State) : s.endSession.eraseStat = s.eraseStat := rfl
@[simp] theorem State.endSession_cfg (s : State) : s.endSession.cfg = s.cfg := rfl
@[simp] theorem State.endSession_world (s : State) : s.endSession.world = s.world.log (.result s.result) := rfl
@[simp] theorem State.endSession_name (s : State) : s.endSession.name = s.name := rfl
@[simp] theorem State.endSession_inputs (s : State) : s.endSession.inputs = s.inputs := rfl
@[simp] theorem State.endSession_slot (s : State) : s.endSession.slot = s.slot := rfl
@[simp] theorem State.endSession_ret (s : State) : s.endSession.ret = s.ret := rfl
@[simp] theorem State.endSession_par (s : State) : s.endSession.par = s.par := rfl

/-! ### `massErased` -/
@[simp] theorem State.massErased_st (s : State) (ok : Bool) : (s.massErased ok).st = s.st := rfl
@[simp] theorem State.massErased_pos (s : State) (ok : Bool) : (s.massErased ok).pos = .stage .extEraseCmd .tx := rfl
@[simp] theorem State.massErased_addr (s : State) (ok : Bool) : (s.massErased ok).addr = s.addr := rfl
@[simp] theorem State.massErased_blk (s : State) (ok : Bool) : (s.massErased ok).blk = s.blk := rfl
@[simp] theorem State.massErased_nblk (s : State) (ok : Bool) : (s.massErased ok).nblk = s.nblk := rfl
@[simp] theorem State.massErased_imgSize (s : State) (ok : Bool) : (s.massErased ok).imgSize = s.imgSize := rfl
@[simp] theorem State.massErased_imgOpen (s : State) (ok : Bool) : (s.massErased ok).imgOpen = s.imgOpen := rfl
@[simp] theorem State.massErased_modeEntered (s : State) (ok : Bool) : (s.massErased ok).modeEntered = s.modeEntered := rfl
@[simp] theorem State.massErased_result (s : State) (ok : Bool) : (s.massErased ok).result = s.result := rfl
@[simp] theorem State.massErased_buf (s : State) (ok : Bool) : (s.massErased ok).buf = s.buf := rfl
@[simp] theorem State.massErased_nread (s : State) (ok : Bool) : (s.massErased ok).nread = s.nread := rfl
@[simp] theorem State.massErased_attempt (s : State) (ok : Bool) : (s.massErased ok).attempt = s.attempt := rfl
@[simp] theorem State.massErased_elapsed (s : State) (ok : Bool) : (s.massErased ok).elapsed = s.elapsed := rfl
@[simp] theorem State.massErased_lobs (s : State) (ok : Bool) : (s.massErased ok).lobs = s.lobs := rfl
@[simp] theorem State.massErased_rsp (s : State) (ok : Bool) : (s.massErased ok).rsp = s.rsp := rfl
@[simp] theorem State.massErased_xok (s : State) (ok : Bool) : (s.massErased ok).xok = s.xok := rfl
@[simp] theorem State.massErased_csum (s : State) (ok : Bool) : (s.massErased ok).csum = s.csum := rfl
@[simp] theorem State.massErased_txcnt (s : State) (ok : Bool) : (s.massErased ok).txcnt = s.txcnt := rfl
@[simp] theorem State.massErased_bootSel (s : State) (ok : Bool) : (s.massErased ok).bootSel = s.bootSel := rfl
@[simp] theorem State.massErased_nrst (s : State) (ok : Bool) : (s.massErased ok).nrst = s.nrst := rfl
@[simp] theorem State.massErased_eraseStat (s : State) (ok : Bool) : (s.massErased ok).eraseStat = (s.eraseStat &&& 0b10) ||| (if ok then 0b01 else 0b00) := rfl
@[simp] theorem State.massErased_cfg (s : State) (ok : Bool) : (s.massErased ok).cfg = s.cfg := rfl
@[simp] theorem State.massErased_world (s : State) (ok : Bool) : (s.massErased ok).world = s.world := rfl
@[simp] theorem State.massErased_name (s : State) (ok : Bool) : (s.massErased ok).name = s.name := rfl
@[simp] theorem State.massErased_inputs (s : State) (ok : Bool) : (s.massErased ok).inputs = s.inputs := rfl
@[simp] theorem State.massErased_slot (s : State) (ok : Bool) : (s.massErased ok).slot = s.slot := rfl
@[simp] theorem State.massErased_ret (s : State) (ok : Bool) : (s.massErased ok).ret = s.ret := rfl
@[simp] theorem State.massErased_par (s : State) (ok : Bool) : (s.massErased ok).par = s.par := rfl

/-! ### `extErased` -/
@[simp] theorem State.extErased_st (s : State) (ok : Bool) : (s.extErased ok).st = .writing := rfl
@[simp] theorem State.extErased_pos (s : State) (ok : Bool) : (s.extErased ok).pos = .entry := rfl
@[simp] theorem State.extErased_addr (s : State) (ok : Bool) : (s.extErased ok).addr = s.addr := rfl
@[simp] theorem State.extErased_blk (s : State) (ok : Bool) : (s.extErased ok).blk = s.blk := rfl
@[simp] theorem State.extErased_nblk (s : State) (ok : Bool) : (s.extErased ok).nblk = s.nblk := rfl
@[simp] theorem State.extErased_imgSize (s : State) (ok : Bool) : (s.extErased ok).imgSize = s.imgSize := rfl
@[simp] theorem State.extErased_imgOpen (s : State) (ok : Bool) : (s.extErased ok).imgOpen = s.imgOpen := rfl
@[simp] theorem State.extErased_modeEntered (s : State) (ok : Bool) : (s.extErased ok).modeEntered = s.modeEntered := rfl
@[simp] theorem State.extErased_result (s : State) (ok : Bool) : (s.extErased ok).result = s.result := rfl
@[simp] theorem State.extErased_buf (s : State) (ok : Bool) : (s.extErased ok).buf = s.buf := rfl
@[simp] theorem State.extErased_nread (s : State) (ok : Bool) : (s.extErased ok).nread = s.nread := rfl
@[simp] theorem State.extErased_attempt (s : State) (ok : Bool) : (s.extErased ok).attempt = s.attempt := rfl
@[simp] theorem State.extErased_elapsed (s : State) (ok : Bool) : (s.extErased ok).elapsed = s.elapsed := rfl
@[simp] theorem State.extErased_lobs (s : State) (ok : Bool) : (s.extErased ok).lobs = s.lobs := rfl
@[simp] theorem State.extErased_rsp (s : State) (ok : Bool) : (s.extErased ok).rsp = s.rsp := rfl
@[simp] theorem State.extErased_xok (s : State) (ok : Bool) : (s.extErased ok).xok = s.xok := rfl
@[simp] theorem State.extErased_csum (s : State) (ok : Bool) : (s.extErased ok).csum = s.csum := rfl
@[simp] theorem State.extErased_txcnt (s : State) (ok : Bool) : (s.extErased ok).txcnt = s.txcnt := rfl
@[simp] theorem State.extErased_bootSel (s : State) (ok : Bool) : (s.extErased ok).bootSel = s.bootSel := rfl
@[simp] theorem State.extErased_nrst (s : State) (ok : Bool) : (s.extErased ok).nrst = s.nrst := rfl
@[simp] theorem State.extErased_eraseStat (s : State) (ok : Bool) : (s.extErased ok).eraseStat = (s.eraseStat &&& 0b01) ||| (if ok then 0b10 else 0b00) := rfl
@[simp] theorem State.extErased_cfg (s : State) (ok : Bool) : (s.extErased ok).cfg = s.cfg := rfl
@[simp] theorem State.extErased_world (s : State) (ok : Bool) : (s.extErased ok).world = s.world := rfl
@[simp] theorem State.extErased_name (s : State) (ok : Bool) : (s.extErased ok).name = s.name := rfl
@[simp] theorem State.extErased_inputs (s : State) (ok : Bool) : (s.extErased ok).inputs = s.inputs := rfl
@[simp] theorem State.extErased_slot (s : State) (ok : Bool) : (s.extErased ok).slot = s.slot := rfl
@[simp] theorem State.extErased_ret (s : State) (ok : Bool) : (s.extErased ok).ret = s.ret := rfl
@[simp] theorem State.extErased_par (s : State) (ok : Bool) : (s.extErased ok).par = s.par := rfl

/-! ### `incAddr` -/
@[simp] theorem State.incAddr_st (s : State) : s.incAddr.st = s.st := rfl
@[simp] theorem State.incAddr_pos (s : State) : s.incAddr.pos = s.pos := rfl
@[simp] theorem State.incAddr_addr (s : State) : s.incAddr.addr = stepAddr s.addr := rfl
@[simp] theorem State.incAddr_blk (s : State) : s.incAddr.blk = s.blk := rfl
@[simp] theorem State.incAddr_nblk (s : State) : s.incAddr.nblk = s.nblk := rfl
@[simp] theorem State.incAddr_imgSize (s : State) : s.incAddr.imgSize = s.imgSize := rfl
@[simp] theorem State.incAddr_imgOpen (s : State) : s.incAddr.imgOpen = s.imgOpen := rfl
@[simp] theorem State.incAddr_modeEntered (s : State) : s.incAddr.modeEntered = s.modeEntered := rfl
@[simp] theorem State.incAddr_result (s : State) : s.incAddr.result = s.result := rfl
@[simp] theorem State.incAddr_buf (s : State) : s.incAddr.buf = s.buf := rfl
@[simp] theorem State.incAddr_nread (s : State) : s.incAddr.nread = s.nread := rfl
@[simp] theorem State.incAddr_attempt (s : State) : s.incAddr.attempt = s.attempt := rfl
@[simp] theorem State.incAddr_elapsed (s : State) : s.incAddr.elapsed = s.elapsed := rfl
@[simp] theorem State.incAddr_lobs (s : State) : s.incAddr.lobs = s.lobs := rfl
@[simp] theorem State.incAddr_rsp (s : State) : s.incAddr.rsp = s.rsp := rfl
@[simp] theorem State.incAddr_xok (s : State) : s.incAddr.xok = s.xok := rfl
@[simp] theorem State.incAddr_csum (s : State) : s.incAddr.csum = s.csum := rfl
@[simp] theorem State.incAddr_txcnt (s : State) : s.incAddr.txcnt = s.txcnt := rfl
@[simp] theorem State.incAddr_bootSel (s : State) : s.incAddr.bootSel = s.bootSel := rfl
@[simp] theorem State.incAddr_nrst (s : State) : s.incAddr.nrst = s.nrst := rfl
@[simp] theorem State.incAddr_eraseStat (s : State) : s.incAddr.eraseStat = s.eraseStat := rfl
@[simp] theorem State.incAddr_cfg (s : State) : s.incAddr.cfg = s.cfg := rfl
@[simp] theorem State.incAddr_world (s : State) : s.incAddr.world = s.world := rfl
@[simp] theorem State.incAddr_name (s : State) : s.incAddr.name = s.name := rfl
@[simp] theorem State.incAddr_inputs (s : State) : s.incAddr.inputs = s.inputs := rfl
@[simp] theorem State.incAddr_slot (s : State) : s.incAddr.slot = s.slot := rfl
@[simp] theorem State.incAddr_ret (s : State) : s.incAddr.ret = s.ret := rfl
@[simp] theorem State.incAddr_par (s : State) : s.incAddr.par = s.par := rfl

/-! ### `returnOk` -/
@[simp] theorem State.returnOk_st (r : State × Bool) : (State.returnOk r).st = r.1.st := rfl
@[simp] theorem State.returnOk_pos (r : State × Bool) : (State.returnOk r).pos = r.1.pos := rfl
@[simp] theorem State.returnOk_addr (r : State × Bool) : (State.returnOk r).addr = r.1.addr := rfl
@[simp] theorem State.returnOk_blk (r : State × Bool) : (State.returnOk r).blk = r.1.blk := rfl
@[simp] theorem State.returnOk_nblk (r : State × Bool) : (State.returnOk r).nblk = r.1.nblk := rfl
@[simp] theorem State.returnOk_imgSize (r : State × Bool) : (State.returnOk r).imgSize = r.1.imgSize := rfl
@[simp] theorem State.returnOk_imgOpen (r : State × Bool) : (State.returnOk r).imgOpen = r.1.imgOpen := rfl
@[simp] theorem State.returnOk_modeEntered (r : State × Bool) : (State.returnOk r).modeEntered = r.1.modeEntered := rfl
@[simp] theorem State.returnOk_result (r : State × Bool) : (State.returnOk r).result = r.1.result := rfl
@[simp] theorem State.returnOk_buf (r : State × Bool) : (State.returnOk r).buf = r.1.buf := rfl
@[simp] theorem State.returnOk_nread (r : State × Bool) : (State.returnOk r).nread = r.1.nread := rfl
@[simp] theorem State.returnOk_attempt (r : State × Bool) : (State.returnOk r).attempt = r.1.attempt := rfl
@[simp] theorem State.returnOk_elapsed (r : State × Bool) : (State.returnOk r).elapsed = r.1.elapsed := rfl
@[simp] theorem State.returnOk_lobs (r : State × Bool) : (State.returnOk r).lobs = r.1.lobs := rfl
@[simp] theorem State.returnOk_rsp (r : State × Bool) : (State.returnOk r).rsp = r.1.rsp := rfl
@[simp] theorem State.returnOk_xok (r : State × Bool) : (State.returnOk r).xok = r.1.xok := rfl
@[simp] theorem State.returnOk_csum (r : State × Bool) : (State.returnOk r).csum = r.1.csum := rfl
@[simp] theorem State.returnOk_txcnt (r : State × Bool) : (State.returnOk r).txcnt = r.1.txcnt := rfl
@[simp] theorem State.returnOk_bootSel (r : State × Bool) : (State.returnOk r).bootSel = r.1.bootSel := rfl
@[simp] theorem State.returnOk_nrst (r : State × Bool) : (State.returnOk r).nrst = r.1.nrst := rfl
@[simp] theorem State.returnOk_eraseStat (r : State × Bool) : (State.returnOk r).eraseStat = r.1.eraseStat := rfl
@[simp] theorem State.returnOk_cfg (r : State × Bool) : (State.returnOk r).cfg = r.1.cfg := rfl
@[simp] theorem State.returnOk_world (r : State × Bool) : (State.returnOk r).world = r.1.world := rfl
@[simp] theorem State.returnOk_name (r : State × Bool) : (State.returnOk r).name = r.1.name := rfl
@[simp] theorem State.returnOk_inputs (r : State × Bool) : (State.returnOk r).inputs = r.1.inputs := rfl
@[simp] theorem State.returnOk_slot (r : State × Bool) : (State.returnOk r).slot = r.1.slot := rfl
@[simp] theorem State.returnOk_ret (r : State × Bool) : (State.returnOk r).ret = .ok r.2 := rfl
@[simp] theorem State.returnOk_par (r : State × Bool) : (State.returnOk r).par = r.1.par := rfl

/-! ### `setLevel` -/
@[simp] theorem State.setLevel_st (s : State) (line : Line) (v : Bool) : (s.setLevel line v).st = s.st := by cases line <;> rfl
@[simp] theorem State.setLevel_pos (s : State) (line : Line) (v : Bool) : (s.setLevel line v).pos = s.pos := by cases line <;> rfl
@[simp] theorem State.setLevel_addr (s : State) (line : Line) (v : Bool) : (s.setLevel line v).addr = s.addr := by cases line <;> rfl
@[simp] theorem State.setLevel_blk (s : State) (line : Line) (v : Bool) : (s.setLevel line v).blk = s.blk := by cases line <;> rfl
@[simp] theorem State.setLevel_nblk (s : State) (line : Line) (v : Bool) : (s.setLevel line v).nblk = s.nblk := by cases line <;> rfl
@[simp] theorem State.setLevel_imgSize (s : State) (line : Line) (v : Bool) : (s.setLevel line v).imgSize = s.imgSize := by cases line <;> rfl
@[simp] theorem State.setLevel_imgOpen (s : State) (line : Line) (v : Bool) : (s.setLevel line v).imgOpen = s.imgOpen := by cases line <;> rfl
@[simp] theorem State.setLevel_modeEntered (s : State) (line : Line) (v : Bool) : (s.setLevel line v).modeEntered = s.modeEntered := by cases line <;> rfl
@[simp] theorem State.setLevel_result (s : State) (line : Line) (v : Bool) : (s.setLevel line v).result = s.result := by cases line <;> rfl
@[simp] theorem State.setLevel_buf (s : State) (line : Line) (v : Bool) : (s.setLevel line v).buf = s.buf := by cases line <;> rfl
@[simp] theorem State.setLevel_nread (s : State) (line : Line) (v : Bool) : (s.setLevel line v).nread = s.nread := by cases line <;> rfl
@[simp] theorem State.setLevel_attempt (s : State) (line : Line) (v : Bool) : (s.setLevel line v).attempt = s.attempt := by cases line <;> rfl
@[simp] theorem State.setLevel_elapsed (s : State) (line : Line) (v : Bool) : (s.setLevel line v).elapsed = s.elapsed := by cases line <;> rfl
@[simp] theorem State.setLevel_lobs (s : State) (line : Line) (v : Bool) : (s.setLevel line v).lobs = s.lobs := by cases line <;> rfl
@[simp] theorem State.setLevel_rsp (s : State) (line : Line) (v : Bool) : (s.setLevel line v).rsp = s.rsp := by cases line <;> rfl
@[simp] theorem State.setLevel_xok (s : State) (line : Line) (v : Bool) : (s.setLevel line v).xok = s.xok := by cases line <;> rfl
@[simp] theorem State.setLevel_csum (s : State) (line : Line) (v : Bool) : (s.setLevel line v).csum = s.csum := by cases line <;> rfl
@[simp] theorem State.setLevel_txcnt (s : State) (line : Line) (v : Bool) : (s.setLevel line v).txcnt = s.txcnt := by cases line <;> rfl
@[simp] theorem State.setLevel_bootSel (s : State) (line : Line) (v : Bool) : (s.setLevel line v).bootSel = match line with | .reset => s.bootSel | .boot => v := by cases line <;> rfl
@[simp] theorem State.setLevel_nrst (s : State) (line : Line) (v : Bool) : (s.setLevel line v).nrst = match line with | .reset => v | .boot => s.nrst := by cases line <;> rfl
@[simp] theorem State.setLevel_eraseStat (s : State) (line : Line) (v : Bool) : (s.setLevel line v).eraseStat = s.eraseStat := by cases line <;> rfl
@[simp] theorem State.setLevel_cfg (s : State) (line : Line) (v : Bool) : (s.setLevel line v).cfg = s.cfg := by cases line <;> rfl
@[simp] theorem State.setLevel_world (s : State) (line : Line) (v : Bool) : (s.setLevel line v).world = World.setLevel s.cap line (s.lineId line) v s.world := by cases line <;> rfl
@[simp] theorem State.setLevel_name (s : State) (line : Line) (v : Bool) : (s.setLevel line v).name = s.name := by cases line <;> rfl
@[simp] theorem State.setLevel_inputs (s : State) (line : Line) (v : Bool) : (s.setLevel line v).inputs = s.inputs := by cases line <;> rfl
@[simp] theorem State.setLevel_slot (s : State) (line : Line) (v : Bool) : (s.setLevel line v).slot = s.slot := by cases line <;> rfl
@[simp] theorem State.setLevel_ret (s : State) (line : Line) (v : Bool) : (s.setLevel line v).ret = s.ret := by cases line <;> rfl
@[simp] theorem State.setLevel_par (s : State) (line : Line) (v : Bool) : (s.setLevel line v).par = s.par := by cases line <;> rfl

/-! ### Values the updates return -/
@[simp] theorem State.ask_snd {α : Type} (s : State) (call : World → World × α) : (s.ask call).2 = (call s.world).2 := rfl
@[simp] theorem State.xor8_snd (s : State) (seed : Byte) (bs : Bytes) : (s.xor8 seed bs).2 = xorFold seed bs := rfl

/-! ### The environment's move and the trace -/
@[simp] theorem World.tick_rxq (cap : Nat) (w : World) : (w.tick cap).rxq = w.rxq ++ admitted (draw w.arrivals Config.freeBatch w.moment) (cap - w.rxq.length) w.moment := rfl
@[simp] theorem World.tick_txlog (cap : Nat) (w : World) : (w.tick cap).txlog = w.txlog := rfl
@[simp] theorem World.tick_now (cap : Nat) (w : World) : (w.tick cap).now = w.now := rfl
@[simp] theorem World.tick_img (cap : Nat) (w : World) : (w.tick cap).img = w.img := rfl
@[simp] theorem World.tick_imgPos (cap : Nat) (w : World) : (w.tick cap).imgPos = w.imgPos := rfl
@[simp] theorem World.tick_arrivals (cap : Nat) (w : World) : (w.tick cap).arrivals = w.arrivals.tail := rfl
@[simp] theorem World.tick_dirOk (cap : Nat) (w : World) : (w.tick cap).dirOk = w.dirOk := rfl
@[simp] theorem World.tick_confOk (cap : Nat) (w : World) : (w.tick cap).confOk = w.confOk := rfl
@[simp] theorem World.tick_pinsOk (cap : Nat) (w : World) : (w.tick cap).pinsOk = w.pinsOk := rfl
@[simp] theorem World.tick_mountOk (cap : Nat) (w : World) : (w.tick cap).mountOk = w.mountOk := rfl
@[simp] theorem World.tick_openOk (cap : Nat) (w : World) : (w.tick cap).openOk = w.openOk := rfl
@[simp] theorem World.tick_txCount (cap : Nat) (w : World) : (w.tick cap).txCount = w.txCount := rfl
@[simp] theorem World.tick_sizes (cap : Nat) (w : World) : (w.tick cap).sizes = w.sizes := rfl
@[simp] theorem World.tick_reads (cap : Nat) (w : World) : (w.tick cap).reads = w.reads := rfl
@[simp] theorem World.tick_late (cap : Nat) (w : World) : (w.tick cap).late = w.late := rfl
@[simp] theorem World.tick_moment (cap : Nat) (w : World) : (w.tick cap).moment = w.moment + 1 := rfl
@[simp] theorem World.tick_trace (cap : Nat) (w : World) : (w.tick cap).trace = w.trace := rfl
@[simp] theorem World.log_rxq (e : Event) (w : World) : (w.log e).rxq = w.rxq := rfl
@[simp] theorem World.log_txlog (e : Event) (w : World) : (w.log e).txlog = w.txlog := rfl
@[simp] theorem World.log_now (e : Event) (w : World) : (w.log e).now = w.now := rfl
@[simp] theorem World.log_img (e : Event) (w : World) : (w.log e).img = w.img := rfl
@[simp] theorem World.log_imgPos (e : Event) (w : World) : (w.log e).imgPos = w.imgPos := rfl
@[simp] theorem World.log_arrivals (e : Event) (w : World) : (w.log e).arrivals = w.arrivals := rfl
@[simp] theorem World.log_dirOk (e : Event) (w : World) : (w.log e).dirOk = w.dirOk := rfl
@[simp] theorem World.log_confOk (e : Event) (w : World) : (w.log e).confOk = w.confOk := rfl
@[simp] theorem World.log_pinsOk (e : Event) (w : World) : (w.log e).pinsOk = w.pinsOk := rfl
@[simp] theorem World.log_mountOk (e : Event) (w : World) : (w.log e).mountOk = w.mountOk := rfl
@[simp] theorem World.log_openOk (e : Event) (w : World) : (w.log e).openOk = w.openOk := rfl
@[simp] theorem World.log_txCount (e : Event) (w : World) : (w.log e).txCount = w.txCount := rfl
@[simp] theorem World.log_sizes (e : Event) (w : World) : (w.log e).sizes = w.sizes := rfl
@[simp] theorem World.log_reads (e : Event) (w : World) : (w.log e).reads = w.reads := rfl
@[simp] theorem World.log_late (e : Event) (w : World) : (w.log e).late = w.late := rfl
@[simp] theorem World.log_moment (e : Event) (w : World) : (w.log e).moment = w.moment := rfl
@[simp] theorem World.log_trace (e : Event) (w : World) : (w.log e).trace = e :: w.trace := rfl

end Sys2Proof.Machine
end

