-- ==== Sys2Proof/Laws/Frames.lean ====
section
/-!
SUPPORT. The frame of every shared operation: which registers it may write, in the forms of Safety.lean.
-/
namespace Sys2Proof.Machine

/-! ### The frames compose -/

theorem OnlyTransport.refl (s : State) : OnlyTransport s s := rfl

theorem OnlyTransport.trans {s t u : State} (a : OnlyTransport s t) (b : OnlyTransport t u) :
    OnlyTransport s u := by
  unfold OnlyTransport at *
  rw [a] at b
  exact b

theorem OnlyCommand.trans {s t u : State} (a : OnlyCommand s t) (b : OnlyCommand t u) :
    OnlyCommand s u := by
  unfold OnlyCommand at *
  rw [a] at b
  exact b

theorem OnlyDetect.trans {s t u : State} (a : OnlyDetect s t) (b : OnlyDetect t u) :
    OnlyDetect s u := by
  unfold OnlyDetect at *
  rw [a] at b
  exact b

theorem OnlyLines.trans {s t u : State} (a : OnlyLines s t) (b : OnlyLines t u) : OnlyLines s u := by
  unfold OnlyLines at *
  rw [a] at b
  exact b

theorem OnlyTransport.command {s t : State} (a : OnlyTransport s t) : OnlyCommand s t := by
  unfold OnlyTransport at a
  unfold OnlyCommand
  rw [a]

theorem OnlyTransport.detect {s t : State} (a : OnlyTransport s t) : OnlyDetect s t := by
  unfold OnlyTransport at a
  unfold OnlyDetect
  rw [a]

/-! ### Boot mode (spec/40_bootmode.md) -/

theorem wait_frame (s : State) (n : Nat) : OnlyTransport s (s.wait n) := rfl

theorem wait_lines (s : State) (n : Nat) : OnlyLines s (s.wait n) := rfl

theorem setLevel_frame (s : State) (line : Line) (v : Bool) : OnlyLines s (s.setLevel line v) := by
  cases line <;> rfl

theorem configLines_frame (s : State) : OnlyLines s s.configLines.1 := rfl

theorem resetPulse_frame (s : State) : OnlyLines s s.resetPulse := by
  unfold State.resetPulse
  dsimp only
  exact (((setLevel_frame s _ _).trans (wait_lines _ _)).trans (setLevel_frame _ _ _)).trans
    (wait_lines _ _)

theorem resetPulse_nrst (s : State) : s.resetPulse.nrst = true := by simp [State.resetPulse]

theorem resetPulse_bootSel (s : State) : s.resetPulse.bootSel = s.bootSel := by
  simp [State.resetPulse]

theorem setLevel_detect (s : State) (v : Bool) : OnlyDetect s (s.setLevel .reset v) := rfl

theorem resetPulse_detect (s : State) : OnlyDetect s s.resetPulse := by
  unfold State.resetPulse
  dsimp only
  exact (((setLevel_detect s _).trans (wait_frame _ _).detect).trans (setLevel_detect _ _)).trans
    (wait_frame _ _).detect

theorem bootMode_frame (s : State) (v : Bool) : OnlyLines s (s.bootMode v).1 := by
  unfold State.bootMode
  dsimp only
  split
  · exact (configLines_frame s).trans ((setLevel_frame _ _ _).trans (resetPulse_frame _))
  · exact configLines_frame s

/-- What `ENTER_BL` and `EXIT_BL` leave on the lines (R131, R132). -/
theorem bootMode_lines (s : State) (v : Bool) :
    ((s.bootMode v).2 = true ∧ (s.bootMode v).1.bootSel = v ∧ (s.bootMode v).1.nrst = true)
      ∨ ((s.bootMode v).2 = false ∧ (s.bootMode v).1.bootSel = s.bootSel
        ∧ (s.bootMode v).1.nrst = s.nrst) := by
  unfold State.bootMode
  dsimp only
  split
  · exact .inl ⟨rfl, by simp [resetPulse_bootSel], resetPulse_nrst _⟩
  · exact .inr ⟨rfl, rfl, rfl⟩

/-! ### Transport (spec/41_transport.md) -/

theorem send_frame (s : State) (bs : Bytes) : OnlyTransport s (s.send bs).1 := rfl

theorem rxLen_frame (s : State) : OnlyTransport s s.rxLen.1 := rfl

theorem poll_frame (s : State) (n T : Nat) : OnlyTransport s (s.poll n T).1 := by
  unfold State.poll
  dsimp only
  split
  · rfl
  · split <;> rfl

theorem pause_frame (s : State) : OnlyTransport s s.pause := rfl

theorem awaitLoop_frame (n T : Nat) : ∀ (polls : Nat) (s : State),
    OnlyTransport s (State.awaitLoop polls n T s).1 := by
  intro polls
  induction polls with
  | zero => intro s; rfl
  | succ polls ih =>
    intro s
    have a := poll_frame s n T
    unfold State.awaitLoop
    dsimp only
    split
    · exact a
    · exact (a.trans (pause_frame _)).trans (ih _)

theorem awaitBytes_frame (s : State) (n T : Nat) : OnlyTransport s (s.awaitBytes n T).1 :=
  OnlyTransport.trans (t := { s with elapsed := 0 }) rfl (awaitLoop_frame n T _ _)

theorem readExact_frame (s : State) (n : Nat) : OnlyTransport s (s.readExact n).1 := rfl

theorem takeResponse_frame (s : State) (n : Nat) : OnlyTransport s (s.takeResponse n).1 := rfl

theorem exchange_frame (s : State) (bs : Bytes) (n : Nat) : OnlyTransport s (s.exchange bs n).1 := by
  unfold State.exchange
  dsimp only
  split
  · rfl
  · have b := (send_frame s bs).trans (awaitBytes_frame (s.send bs).1 n (s.send bs).1.par.timeout)
    split
    · exact b.trans rfl
    · exact b.trans (takeResponse_frame _ _)

/-- `XOK` is the result of an exchange (R32, R154). -/
theorem exchange_xok (s : State) (bs : Bytes) (n : Nat) :
    (s.exchange bs n).1.xok = (s.exchange bs n).2 := by
  unfold State.exchange
  dsimp only
  split
  · rfl
  · split <;> rfl

/-! ### Commands (spec/43_commands.md) -/

theorem loadAddr_frame (s : State) (a : Addr) : OnlyCommand s (s.loadAddr a).1 :=
  OnlyCommand.trans (t := (s.addrFrame a).1) rfl (exchange_frame _ _ _).command

theorem pageWriteData_frame (s : State) (p : Bytes) : OnlyCommand s (s.pageWriteData p).1 :=
  OnlyCommand.trans (t := (s.dataFrame p).1) rfl (exchange_frame _ _ _).command

theorem stageFrame_frame (s : State) (c : Stage) : OnlyCommand s (s.stageFrame c).1 := by cases c <;> rfl

theorem command_frame (s : State) (c : Stage) : OnlyCommand s (s.command c).1 :=
  (stageFrame_frame s c).trans (exchange_frame _ _ _).command

/-- A command returns the `XOK` of its exchange (R32, R199). -/
theorem command_xok (s : State) (c : Stage) : (s.command c).1.xok = (s.command c).2 := exchange_xok _ _ _

theorem massErase_frame (s : State) : OnlyTransport s s.massErase.1 := by
  have a : OnlyTransport s (s.command .massEraseCmd).1 := exchange_frame s _ _
  unfold State.massErase
  dsimp only
  split
  · exact a.trans (exchange_frame _ _ _)
  · exact a

theorem extErase_frame (s : State) : OnlyTransport s s.extErase.1 := by
  have a : OnlyTransport s (s.command .extEraseCmd).1 := exchange_frame s _ _
  unfold State.extErase
  dsimp only
  split
  · exact a.trans (exchange_frame _ _ _)
  · exact a

theorem pageWrite_frame (s : State) : OnlyCommand s s.pageWrite.1 := by
  have a := command_frame s .writeMem
  unfold State.pageWrite
  dsimp only
  split
  · split
    · exact (a.trans (command_frame _ _)).trans (command_frame _ _)
    · exact a.trans (command_frame _ _)
  · exact a

theorem pageRead_frame (s : State) : OnlyCommand s s.pageRead.1 := by
  have a := command_frame s .readMem
  unfold State.pageRead
  dsimp only
  split
  · exact (a.trans (command_frame _ _)).trans (command_frame _ _)
  · exact a

/-! ### The detector (spec/44_handshake.md) -/

theorem sync_frame (s : State) : OnlyTransport s (s.command .sync).1 := exchange_frame s _ _

theorem get_frame (s : State) : OnlyTransport s (s.command .get).1 := exchange_frame s _ _

theorem detectAttempt_frame (s : State) : OnlyDetect s s.detectAttempt.1 := by
  have a : OnlyDetect s ({ s with attempt := s.attempt + 1 } : State).resetPulse :=
    OnlyDetect.trans (t := { s with attempt := s.attempt + 1 }) rfl (resetPulse_detect _)
  unfold State.detectAttempt
  dsimp only
  split
  · exact (a.trans (sync_frame _).detect).trans (get_frame _).detect
  · exact a.trans (sync_frame _).detect

theorem OnlyTransport.nrst {s t : State} (a : OnlyTransport s t) : t.nrst = s.nrst := by
  unfold OnlyTransport at a; rw [a]

theorem OnlyTransport.attempt {s t : State} (a : OnlyTransport s t) : t.attempt = s.attempt := by
  unfold OnlyTransport at a; rw [a]

theorem resetPulse_attempt (s : State) : s.resetPulse.attempt = s.attempt := by
  simp [State.resetPulse]

/-- An attempt leaves the reset line high and is counted (R240). -/
theorem detectAttempt_counts (s : State) :
    s.detectAttempt.1.nrst = true ∧ s.detectAttempt.1.attempt = s.attempt + 1 := by
  have a := sync_frame ({ s with attempt := s.attempt + 1 } : State).resetPulse
  unfold State.detectAttempt
  dsimp only
  split
  · have b := a.trans (get_frame _)
    exact ⟨b.nrst.trans (resetPulse_nrst _), b.attempt.trans (resetPulse_attempt _)⟩
  · exact ⟨a.nrst.trans (resetPulse_nrst _), a.attempt.trans (resetPulse_attempt _)⟩

theorem detectLoop_frame : ∀ (left : Nat) (s : State), OnlyDetect s (State.detectLoop left s).1 := by
  intro left
  induction left with
  | zero => intro s; rfl
  | succ left ih =>
    intro s
    have a := detectAttempt_frame s
    unfold State.detectLoop
    dsimp only
    split
    · exact a
    · split
      · exact a
      · exact (a.trans (wait_frame _ _).detect).trans (ih _)

theorem detect_frame (s : State) : OnlyDetect s s.detect.1 :=
  OnlyDetect.trans (t := { s with attempt := 0 }) rfl (detectLoop_frame _ _)

/-! ### Blocks (spec/45_orchestrator.md) -/

/-- What `FETCH_BLOCK` may write: `NREAD`, `BUF` and the environment (R274). -/
theorem fetchBlock_frame (s : State) :
    s.fetchBlock.1 = { s with
      world := s.fetchBlock.1.world, nread := s.fetchBlock.1.nread, buf := s.fetchBlock.1.buf } := by
  unfold State.fetchBlock
  dsimp only
  split <;> rfl

/-! ### The transitions of the sequence -/

theorem OnlyControl.keeps {s t : State} (h : OnlyControl s t) :
    t.nblk = s.nblk ∧ t.imgSize = s.imgSize ∧ t.imgOpen = s.imgOpen ∧ t.buf = s.buf ∧ t.nread = s.nread
      ∧ t.attempt = s.attempt ∧ t.elapsed = s.elapsed ∧ t.lobs = s.lobs ∧ t.rsp = s.rsp ∧ t.xok = s.xok
      ∧ t.csum = s.csum ∧ t.txcnt = s.txcnt ∧ t.bootSel = s.bootSel ∧ t.nrst = s.nrst ∧ t.cfg = s.cfg
      ∧ t.world = s.world ∧ t.name = s.name ∧ t.inputs = s.inputs ∧ t.slot = s.slot ∧ t.ret = s.ret
      ∧ t.par = s.par := by
  unfold OnlyControl at h
  rw [h]
  simp

theorem OnlyControl.world {s t : State} (h : OnlyControl s t) : t.world = s.world := by
  unfold OnlyControl at h
  rw [h]

theorem OnlyControl.par {s t : State} (h : OnlyControl s t) : t.par = s.par := by
  unfold OnlyControl at h
  rw [h]

theorem raiseFail_control (s : State) (kind : Result) : OnlyControl s (s.raiseFail kind) := rfl

theorem pageDone_control (s : State) (ok : Bool) (kind : Result) : OnlyControl s (s.pageDone ok kind) := by
  cases ok <;> rfl

theorem attemptFailed_control (s : State) : OnlyControl s s.attemptFailed := by
  unfold State.attemptFailed
  split <;> rfl

theorem presenceFound_control (s : State) : OnlyControl s s.presenceFound := by
  unfold State.presenceFound
  split <;> rfl

/-- What follows a stage writes no register of the transport and makes no event. -/
theorem stageDone_control (s : State) (c : Stage) (ok : Bool) : OnlyControl s (s.stageDone c ok) := by
  cases c with
  | sync => cases ok; exacts [attemptFailed_control s, rfl]
  | get => cases ok; exacts [attemptFailed_control s, presenceFound_control s]
  | getver => cases ok <;> rfl
  | getid => cases ok <;> rfl
  | massEraseCmd => cases ok <;> rfl
  | massEraseParam => rfl
  | extEraseCmd => cases ok <;> rfl
  | extEraseParam => rfl
  | writeMem => cases ok <;> rfl
  | writeAddr => cases ok <;> rfl
  | pageData => exact pageDone_control s ok _
  | readMem => cases ok <;> rfl
  | readAddr => rfl
  | pageLen => exact pageDone_control s ok _

theorem bootDone_control (s : State) (ok : Bool) : OnlyControl s (s.bootDone ok) := by
  unfold State.bootDone
  split
  · rfl
  · cases ok <;> rfl

theorem pulseDone_control (s : State) : OnlyControl s s.pulseDone := by
  unfold State.pulseDone
  split
  · rfl
  · exact bootDone_control s true

/-! ### Sizes of the byte registers -/

theorem poll_rsp (s : State) (n T : Nat) : (s.poll n T).1.rsp = s.rsp := by
  unfold State.poll
  dsimp only
  split
  · rfl
  · split <;> rfl

theorem awaitLoop_rsp (n T : Nat) : ∀ (polls : Nat) (s : State),
    (State.awaitLoop polls n T s).1.rsp = s.rsp := by
  intro polls
  induction polls with
  | zero => intro s; rfl
  | succ polls ih =>
    intro s
    have a := poll_rsp s n T
    unfold State.awaitLoop
    dsimp only
    split
    · exact a
    · rw [ih]; exact a

theorem awaitBytes_rsp (s : State) (n T : Nat) : (s.awaitBytes n T).1.rsp = s.rsp :=
  awaitLoop_rsp n T _ _

theorem readExact_rsp_length (s : State) (n : Nat) (h : s.rsp.length = Config.rspBytes) :
    (s.readExact n).1.rsp.length = Config.rspBytes := by
  simp only [State.readExact, State.ask_rsp, List.length_take, List.length_append, List.length_drop, h]
  omega

/-- `RSP` keeps its 257 bytes through an exchange (R31). -/
theorem exchange_rsp_length (s : State) (bs : Bytes) (n : Nat) (h : s.rsp.length = Config.rspBytes) :
    (s.exchange bs n).1.rsp.length = Config.rspBytes := by
  unfold State.exchange
  dsimp only
  split
  · exact h
  · have a : ((s.send bs).1.awaitBytes n (s.send bs).1.par.timeout).1.rsp.length = Config.rspBytes := by
      rw [awaitBytes_rsp]; exact h
    split
    · exact a
    · exact readExact_rsp_length _ n a

theorem padBlock_length (par : Params) (bs : Bytes) (h : bs.length ≤ par.block) :
    (padBlock par bs).length = par.block := by
  simp [padBlock]; omega

/-- `BUF` keeps its size through `FETCH_BLOCK` (R27). -/
theorem fetchBlock_buf_length (s : State) (h : s.buf.length = s.par.block) :
    s.fetchBlock.1.buf.length = s.par.block := by
  unfold State.fetchBlock
  dsimp only
  split
  · exact h
  · apply padBlock_length
    simp [World.stoRead]

/-! ### What the frames keep, field by field -/

theorem OnlyTransport.keeps {s t : State} (h : OnlyTransport s t) :
    t.st = s.st ∧ t.pos = s.pos ∧ t.addr = s.addr ∧ t.blk = s.blk ∧ t.nblk = s.nblk
      ∧ t.imgSize = s.imgSize ∧ t.imgOpen = s.imgOpen ∧ t.modeEntered = s.modeEntered
      ∧ t.result = s.result ∧ t.buf = s.buf ∧ t.nread = s.nread ∧ t.attempt = s.attempt ∧ t.csum = s.csum
      ∧ t.bootSel = s.bootSel ∧ t.nrst = s.nrst ∧ t.eraseStat = s.eraseStat ∧ t.cfg = s.cfg
      ∧ t.name = s.name ∧ t.inputs = s.inputs ∧ t.slot = s.slot ∧ t.par = s.par := by
  unfold OnlyTransport at h
  rw [h]
  simp

theorem OnlyCommand.keeps {s t : State} (h : OnlyCommand s t) :
    t.st = s.st ∧ t.pos = s.pos ∧ t.addr = s.addr ∧ t.blk = s.blk ∧ t.nblk = s.nblk
      ∧ t.imgSize = s.imgSize ∧ t.imgOpen = s.imgOpen ∧ t.modeEntered = s.modeEntered
      ∧ t.result = s.result ∧ t.buf = s.buf ∧ t.nread = s.nread ∧ t.attempt = s.attempt
      ∧ t.bootSel = s.bootSel ∧ t.nrst = s.nrst ∧ t.eraseStat = s.eraseStat ∧ t.cfg = s.cfg
      ∧ t.name = s.name ∧ t.inputs = s.inputs ∧ t.slot = s.slot ∧ t.par = s.par := by
  unfold OnlyCommand at h
  rw [h]
  simp

theorem OnlyDetect.keeps {s t : State} (h : OnlyDetect s t) :
    t.st = s.st ∧ t.pos = s.pos ∧ t.addr = s.addr ∧ t.blk = s.blk ∧ t.nblk = s.nblk
      ∧ t.imgSize = s.imgSize ∧ t.imgOpen = s.imgOpen ∧ t.modeEntered = s.modeEntered
      ∧ t.result = s.result ∧ t.buf = s.buf ∧ t.nread = s.nread ∧ t.csum = s.csum ∧ t.bootSel = s.bootSel
      ∧ t.eraseStat = s.eraseStat ∧ t.cfg = s.cfg ∧ t.name = s.name ∧ t.inputs = s.inputs
      ∧ t.slot = s.slot ∧ t.par = s.par := by
  unfold OnlyDetect at h
  rw [h]
  simp

theorem OnlyLines.keeps {s t : State} (h : OnlyLines s t) :
    t.st = s.st ∧ t.pos = s.pos ∧ t.addr = s.addr ∧ t.blk = s.blk ∧ t.nblk = s.nblk
      ∧ t.imgSize = s.imgSize ∧ t.imgOpen = s.imgOpen ∧ t.modeEntered = s.modeEntered
      ∧ t.result = s.result ∧ t.buf = s.buf ∧ t.nread = s.nread ∧ t.attempt = s.attempt
      ∧ t.elapsed = s.elapsed ∧ t.lobs = s.lobs ∧ t.rsp = s.rsp ∧ t.xok = s.xok ∧ t.csum = s.csum
      ∧ t.txcnt = s.txcnt ∧ t.eraseStat = s.eraseStat ∧ t.cfg = s.cfg ∧ t.name = s.name
      ∧ t.inputs = s.inputs ∧ t.slot = s.slot ∧ t.par = s.par := by
  unfold OnlyLines at h
  rw [h]
  simp

/-- The detector leaves the reset line high if it was (R130, R240). -/
theorem detectLoop_nrst : ∀ (left : Nat) (s : State), s.nrst = true →
    (State.detectLoop left s).1.nrst = true := by
  intro left
  induction left with
  | zero => intro s h; exact h
  | succ left ih =>
    intro s h
    have a := (detectAttempt_counts s).1
    unfold State.detectLoop
    dsimp only
    split
    · exact a
    · split
      · exact a
      · exact ih _ (by simpa using a)

theorem detect_nrst (s : State) (h : s.nrst = true) : s.detect.1.nrst = true :=
  detectLoop_nrst _ { s with attempt := 0 } h

end Sys2Proof.Machine
end

