-- ==== Sys2Proof/Laws/Memory.lean ====
section
/-!
SUPPORT. The image's memory: loading a byte string gives the canonical form, and reading it back, by
offset or as consecutive bytes, gives the string (spec/20_memory.md R62).
-/
namespace Sys2Proof.Machine

theorem Memory.cellsFrom_rising (bs : Bytes) : ∀ a lo, lo ≤ a →
    Memory.risingFrom lo (Memory.cellsFrom a bs) = true := by
  induction bs with
  | nil => intro a lo _; rfl
  | cons b bs ih =>
    intro a lo h
    simp [Memory.cellsFrom, Memory.risingFrom, h, ih (a + 1) (a + 1) (Nat.le_refl _)]

/-- Loading an image gives the canonical form. -/
theorem Memory.ofBytes_wf (bs : Bytes) : Memory.wf (Memory.ofBytes bs) = true :=
  Memory.cellsFrom_rising bs 0 0 (Nat.le_refl _)

theorem Memory.bytesFrom_cellsFrom_skip (bs : Bytes) : ∀ a off, a ≤ off →
    Memory.bytesFrom off (Memory.cellsFrom a bs) = bs.drop (off - a) := by
  induction bs with
  | nil => intro a off _; simp [Memory.cellsFrom, Memory.bytesFrom]
  | cons b bs ih =>
    intro a off h
    simp only [Memory.cellsFrom, Memory.bytesFrom]
    by_cases e : a = off
    · subst e
      simp [ih (a + 1) (a + 1) (Nat.le_refl _)]
    · have lt : a < off := by omega
      have d : off - a = (off - (a + 1)) + 1 := by omega
      simp only [e, if_false, lt, if_true]
      rw [ih (a + 1) off (by omega), d, List.drop_succ_cons]

/-- Consecutive bytes of a loaded image are the string from that offset on. -/
theorem Memory.bytesFrom_ofBytes (bs : Bytes) (off : Nat) :
    Memory.bytesFrom off (Memory.ofBytes bs) = bs.drop off := by
  simpa [Memory.ofBytes] using Memory.bytesFrom_cellsFrom_skip bs 0 off (Nat.zero_le _)

/-- The size of a loaded image is the length of the string. -/
theorem Memory.size_ofBytes (bs : Bytes) : Memory.size (Memory.ofBytes bs) = bs.length := by
  simp [Memory.size, Memory.bytesFrom_ofBytes]

theorem Memory.read_cellsFrom (bs : Bytes) : ∀ a off, a ≤ off →
    Memory.read (Memory.cellsFrom a bs) off = bs[off - a]? := by
  induction bs with
  | nil => intro a off _; simp [Memory.cellsFrom, Memory.read]
  | cons b bs ih =>
    intro a off h
    simp only [Memory.cellsFrom, Memory.read]
    by_cases e : a = off
    · subst e; simp
    · have d : off - a = (off - (a + 1)) + 1 := by omega
      simp only [e, if_false]
      rw [ih (a + 1) off (by omega), d, List.getElem?_cons_succ]

/-- Reading a loaded image by offset gives the byte of the string, none beyond its end. -/
theorem Memory.read_ofBytes (bs : Bytes) (off : Nat) : Memory.read (Memory.ofBytes bs) off = bs[off]? := by
  simpa [Memory.ofBytes] using Memory.read_cellsFrom bs 0 off (Nat.zero_le _)

/-- The image after reset is in canonical form. -/
theorem Memory.reset_wf : Memory.wf State.reset.world.img = true := rfl

end Sys2Proof.Machine
end

