-- ==== Sys2Proof/Laws/PerInstr.lean ====
section
/-!
SUPPORT. Statements made of every operation: the frame an operation puts on the wire, if it has one, has a
length of spec/30_encoding.md R104.
-/
namespace Sys2Proof.Laws.FrameLength

/-- R104: "Transmit lengths are 1, 2, 3, 5 or 258 bytes, fixed by format". -/
def Statement (i : Instr) : Prop :=
  ∀ (par : Params) (bs : Bytes), i.wf = true → encode par i = some bs → isFrameLength bs.length = true

theorem sync : Statement .sync := by
  intro par bs _ h
  cases h
  rfl

theorem get : Statement .get := by
  intro par bs _ h
  cases h
  rfl

theorem getver : Statement .getver := by
  intro par bs _ h
  cases h
  rfl

theorem getid : Statement .getid := by
  intro par bs _ h
  cases h
  rfl

theorem massEraseCmd : Statement .massEraseCmd := by
  intro par bs _ h
  cases h
  rfl

theorem massEraseParam : Statement .massEraseParam := by
  intro par bs _ h
  cases h
  rfl

theorem massErase : Statement .massErase := by
  intro par bs _ h
  cases h

theorem extEraseCmd : Statement .extEraseCmd := by
  intro par bs _ h
  cases h
  rfl

theorem extEraseParam : Statement .extEraseParam := by
  intro par bs _ h
  cases h
  rfl

theorem extErase : Statement .extErase := by
  intro par bs _ h
  cases h

theorem writeMem : Statement .writeMem := by
  intro par bs _ h
  cases h
  rfl

theorem readMem : Statement .readMem := by
  intro par bs _ h
  cases h
  rfl

theorem loadAddr (a : Addr) : Statement (.loadAddr a) := by
  intro par bs _ h
  cases h
  rfl

theorem pageWriteData (p : Bytes) : Statement (.pageWriteData p) := by
  intro par bs w h
  cases h
  simp only [Instr.wf, beq_iff_eq] at w
  simp [dataFrame, w, isFrameLength, Config.block]

theorem pageWrite : Statement .pageWrite := by
  intro par bs _ h
  cases h

theorem pageReadLen : Statement .pageReadLen := by
  intro par bs _ h
  cases h
  rfl

theorem pageRead : Statement .pageRead := by
  intro par bs _ h
  cases h

theorem ack : Statement .ack := by
  intro par bs _ h
  cases h
  rfl

theorem configLines : Statement .configLines := by
  intro par bs _ h
  cases h

theorem resetPulse : Statement .resetPulse := by
  intro par bs _ h
  cases h

theorem enterBl : Statement .enterBl := by
  intro par bs _ h
  cases h

theorem exitBl : Statement .exitBl := by
  intro par bs _ h
  cases h

theorem send (bs : Bytes) : Statement (.send bs) := by
  intro par bs _ h
  cases h

theorem awaitBytes (n T : Nat) : Statement (.awaitBytes n T) := by
  intro par bs _ h
  cases h

theorem readExact (n : Nat) : Statement (.readExact n) := by
  intro par bs _ h
  cases h

theorem classify (b : Byte) : Statement (.classify b) := by
  intro par bs _ h
  cases h

theorem exchange (bs : Bytes) (n : Nat) : Statement (.exchange bs n) := by
  intro par bs _ h
  cases h

theorem compl (b : Byte) : Statement (.compl b) := by
  intro par bs _ h
  cases h

theorem xor8 (seed : Byte) (bs : Bytes) : Statement (.xor8 seed bs) := by
  intro par bs _ h
  cases h

theorem cmdframe (op : Byte) : Statement (.cmdframe op) := by
  intro par bs _ h
  cases h

theorem addrframe (a : Addr) : Statement (.addrframe a) := by
  intro par bs _ h
  cases h

theorem dataframe (p : Bytes) : Statement (.dataframe p) := by
  intro par bs _ h
  cases h

theorem lenparam (n : Byte) : Statement (.lenparam n) := by
  intro par bs _ h
  cases h

theorem detect : Statement .detect := by
  intro par bs _ h
  cases h

theorem incAddr : Statement .incAddr := by
  intro par bs _ h
  cases h

theorem fetchBlock : Statement .fetchBlock := by
  intro par bs _ h
  cases h

theorem flash (cfg : Cfg) (name : Name) : Statement (.flash cfg name) := by
  intro par bs _ h
  cases h

end Sys2Proof.Laws.FrameLength
end

