-- ==== Sys2Proof/Laws/Return.lean ====
section
/-!
SUPPORT. The value returned (`ret`, log 20) is written last and read by no operation: every operation of the
transport and every command does the same whatever it holds, so running the stages of a composite one by one
is running the composite.
-/
namespace Sys2Proof.Machine

@[simp] theorem setRet_setRet (s : State) (a b : Ret) : (s.setRet a).setRet b = s.setRet b := rfl

@[simp] theorem wait_setRet (s : State) (r : Ret) (n : Nat) : (s.setRet r).wait n = (s.wait n).setRet r := rfl

@[simp] theorem setLevel_setRet (s : State) (r : Ret) (line : Line) (v : Bool) :
    (s.setRet r).setLevel line v = (s.setLevel line v).setRet r := by cases line <;> rfl

@[simp] theorem resetPulse_setRet (s : State) (r : Ret) :
    (s.setRet r).resetPulse = s.resetPulse.setRet r := by
  simp [State.resetPulse]

@[simp] theorem send_setRet (s : State) (r : Ret) (bs : Bytes) :
    (s.setRet r).send bs = ((s.send bs).1.setRet r, (s.send bs).2) := rfl

theorem rxLen_setRet (s : State) (r : Ret) :
    (s.setRet r).rxLen = (s.rxLen.1.setRet r, s.rxLen.2) := rfl

theorem poll_setRet (s : State) (r : Ret) (n T : Nat) :
    (s.setRet r).poll n T = ((s.poll n T).1.setRet r, (s.poll n T).2) := by
  unfold State.poll
  rw [rxLen_setRet]
  dsimp only
  generalize s.rxLen = q
  obtain ⟨u, k⟩ := q
  dsimp only
  by_cases hL : n ≤ k
  · rw [if_pos hL, if_pos hL]; rfl
  · rw [if_neg hL, if_neg hL]
    by_cases hT : T ≤ u.elapsed.toNat
    · rw [if_pos (show T ≤ (u.setRet r).elapsed.toNat from hT), if_pos hT]; rfl
    · rw [if_neg (show ¬ T ≤ (u.setRet r).elapsed.toNat from hT), if_neg hT]

theorem pause_setRet (s : State) (r : Ret) : (s.setRet r).pause = s.pause.setRet r := rfl

theorem awaitLoop_setRet (n T : Nat) (r : Ret) : ∀ (polls : Nat) (s : State),
    State.awaitLoop polls n T (s.setRet r)
      = ((State.awaitLoop polls n T s).1.setRet r, (State.awaitLoop polls n T s).2) := by
  intro polls
  induction polls with
  | zero => intro s; rfl
  | succ polls ih =>
    intro s
    unfold State.awaitLoop
    rw [poll_setRet]
    dsimp only
    generalize s.poll n T = q
    obtain ⟨u, answer⟩ := q
    cases answer with
    | some L => rfl
    | none =>
      dsimp only
      rw [pause_setRet]
      exact ih u.pause

@[simp] theorem awaitBytes_setRet (s : State) (r : Ret) (n T : Nat) :
    (s.setRet r).awaitBytes n T = ((s.awaitBytes n T).1.setRet r, (s.awaitBytes n T).2) :=
  awaitLoop_setRet n T r (T + 1) { s with elapsed := 0 }

@[simp] theorem takeResponse_setRet (s : State) (r : Ret) (n : Nat) :
    (s.setRet r).takeResponse n = ((s.takeResponse n).1.setRet r, (s.takeResponse n).2) := rfl

/-- An exchange does the same whatever `ret` holds. -/
@[simp] theorem exchange_setRet (s : State) (r : Ret) (bs : Bytes) (n : Nat) :
    (s.setRet r).exchange bs n = ((s.exchange bs n).1.setRet r, (s.exchange bs n).2) := by
  unfold State.exchange
  rw [send_setRet]
  dsimp only
  generalize s.send bs = q
  obtain ⟨u, c⟩ := q
  dsimp only
  by_cases hc : c ≠ bs.length
  · rw [if_pos hc, if_pos hc]; rfl
  · rw [if_neg hc, if_neg hc, awaitBytes_setRet, State.setRet_par]
    dsimp only
    generalize u.awaitBytes n u.par.timeout = q
    obtain ⟨v, L⟩ := q
    dsimp only
    by_cases hL : L = 0
    · rw [if_pos hL, if_pos hL]; rfl
    · rw [if_neg hL, if_neg hL]; exact takeResponse_setRet v r n

@[simp] theorem loadAddr_setRet (s : State) (r : Ret) (a : Addr) :
    (s.setRet r).loadAddr a = ((s.loadAddr a).1.setRet r, (s.loadAddr a).2) :=
  exchange_setRet (s.addrFrame a).1 r (s.addrFrame a).2 s.par.rspAck

@[simp] theorem pageWriteData_setRet (s : State) (r : Ret) (p : Bytes) :
    (s.setRet r).pageWriteData p = ((s.pageWriteData p).1.setRet r, (s.pageWriteData p).2) :=
  exchange_setRet (s.dataFrame p).1 r (s.dataFrame p).2 s.par.rspAck

/-- A command does the same whatever `ret` holds. -/
@[simp] theorem command_setRet (s : State) (r : Ret) (c : Stage) :
    (s.setRet r).command c = ((s.command c).1.setRet r, (s.command c).2) := by
  have a : (s.setRet r).stageFrame c = ((s.stageFrame c).1.setRet r, (s.stageFrame c).2) := by
    cases c <;> rfl
  unfold State.command
  rw [a]
  exact exchange_setRet _ _ _ _

end Sys2Proof.Machine
end

