-- ==== Sys2Proof/Laws/Step.lean ====
section
/-!
SUPPORT. Everything a step can do when no operation is placed in the slot: a hardware reset, a session
start, or the next step of the sequence (spec/92_eei_decisions.md D2, D21, spec/93_implementation_defined.md
U1, U2).
-/
namespace Sys2Proof.Machine

/-- Without a placed operation a step never stops, and is one of three moves. -/
theorem step_cases (s : State) (h : s.slot = none) :
    (s.input = .rst ∧ step s = .next s.popInput.hwReset)
      ∨ (∃ c nm, s.input = .start c nm ∧ s.busy = false ∧ step s = .next (s.popInput.startSession c nm))
      ∨ (s.input ≠ .rst ∧ step s = .next s.popInput.seqStep) := by
  cases hi : s.input with
  | none => exact .inr (.inr ⟨by simp, by simp [step, select, State.advance, hi, h]⟩)
  | rst => exact .inl ⟨rfl, by simp [step, select, hi]⟩
  | start c nm =>
    cases hb : s.busy
    · exact .inr (.inl ⟨c, nm, rfl, rfl, by simp [step, select, State.advance, hi, h, hb]⟩)
    · exact .inr (.inr ⟨by simp, by simp [step, select, State.advance, hi, h, hb]⟩)

/-- Without a placed operation and without an input, a step is the next step of the sequence. -/
theorem step_sequence (s : State) (h : s.slot = none) (i : s.input = .none) :
    step s = .next s.popInput.seqStep := by
  simp [step, select, State.advance, h, i]

/-- A hardware reset comes before everything else. -/
theorem step_reset (s : State) (i : s.input = .rst) : step s = .next s.popInput.hwReset := by
  simp [step, select, i]

/-- A `start` in Idle or Done begins a session. -/
theorem step_start (s : State) (c : Cfg) (nm : Name) (h : s.slot = none) (i : s.input = .start c nm)
    (b : s.busy = false) : step s = .next (s.popInput.startSession c nm) := by
  simp [step, select, State.advance, h, i, b]

/-- `BUSY` is 0 exactly in Idle and Done (R21). -/
theorem busy_eq_false (s : State) : s.busy = false ↔ s.st = .idle ∨ s.st = .done := by
  unfold State.busy
  cases s.st <;> simp

end Sys2Proof.Machine
end

