-- ==== Sys2Proof/Laws/Transport.lean ====
section
/-!
SUPPORT. What the transport does, said once (spec/41_transport.md R150 to R154): the effect of one poll and
one wait, of the poll loop of `AWAIT`, and of `SEND`, `READEXACT` and the three ends of an `EXCHANGE`.
-/
namespace Sys2Proof.Machine

/-- One poll: the length seen, nothing consumed, no time passes (R64). -/
theorem rxLen_effect (s : State) : ∃ arrived,
    s.rxLen.1.world.rxq = s.world.rxq ++ arrived ∧ s.rxLen.2 = s.rxLen.1.world.rxq.length
      ∧ s.rxLen.1.world.trace = .rxLen s.cfg.ch s.rxLen.2 :: s.world.trace
      ∧ s.rxLen.1.world.txlog = s.world.txlog ∧ s.rxLen.1.world.now = s.world.now
      ∧ s.rxLen.1.elapsed = s.elapsed ∧ s.rxLen.1.cfg = s.cfg ∧ s.rxLen.1.par = s.par :=
  ⟨_, rfl, rfl, rfl, rfl, rfl, rfl, rfl, rfl⟩

/-- One wait: time passes, nothing is consumed or sent (R9). -/
theorem wait_effect (s : State) (n : Nat) : ∃ arrived,
    (s.wait n).world.rxq = s.world.rxq ++ arrived
      ∧ (s.wait n).world.trace = .wait n :: s.world.trace
      ∧ (s.wait n).world.txlog = s.world.txlog ∧ s.world.now + n ≤ (s.wait n).world.now
      ∧ (s.wait n).elapsed = s.elapsed ∧ (s.wait n).cfg = s.cfg ∧ (s.wait n).par = s.par :=
  ⟨_, rfl, rfl, rfl, Nat.le_add_right _ _, rfl, rfl, rfl⟩

/-- One poll of `AWAIT` and its decision (R151): `k` is the length seen; a response, a timeout, or wait on. -/
theorem poll_effect (s : State) (n T : Nat) : ∃ arrived k,
    (s.poll n T).1.world.rxq = s.world.rxq ++ arrived ∧ (s.poll n T).1.world.rxq.length = k
      ∧ (s.poll n T).1.world.trace = .rxLen s.cfg.ch k :: s.world.trace
      ∧ (s.poll n T).1.world.txlog = s.world.txlog ∧ (s.poll n T).1.world.now = s.world.now
      ∧ (s.poll n T).1.elapsed = s.elapsed ∧ (s.poll n T).1.cfg = s.cfg ∧ (s.poll n T).1.par = s.par
      ∧ ((n ≤ k ∧ (s.poll n T).2 = some k ∧ (s.poll n T).1.lobs = BitVec.ofNat 16 k)
        ∨ (k < n ∧ T ≤ s.elapsed.toNat ∧ (s.poll n T).2 = some 0 ∧ (s.poll n T).1.lobs = 0)
        ∨ (k < n ∧ s.elapsed.toNat < T ∧ (s.poll n T).2 = none)) := by
  obtain ⟨arr, q, len, tr, tx, no, el, cf, pa⟩ := rxLen_effect s
  unfold State.poll
  dsimp only
  generalize s.rxLen = r at q len tr tx no el cf pa ⊢
  obtain ⟨u, k⟩ := r
  dsimp only at q len tr tx no el cf pa ⊢
  refine ⟨arr, k, ?_⟩
  by_cases hL : n ≤ k
  · rw [if_pos hL]
    exact ⟨q, len.symm, tr, tx, no, el, cf, pa, .inl ⟨hL, rfl, rfl⟩⟩
  · rw [if_neg hL]
    by_cases hT : T ≤ u.elapsed.toNat
    · rw [if_pos hT]
      exact ⟨q, len.symm, tr, tx, no, el, cf, pa, .inr (.inl ⟨by omega, by rw [← el]; exact hT, rfl, rfl⟩)⟩
    · rw [if_neg hT]
      exact ⟨q, len.symm, tr, tx, no, el, cf, pa, .inr (.inr ⟨by omega, by rw [← el]; omega, rfl⟩)⟩

/-- One wait between polls (R151): time passes and is counted, nothing is consumed or sent. -/
theorem pause_effect (s : State) : ∃ arrived,
    s.pause.world.rxq = s.world.rxq ++ arrived
      ∧ s.pause.world.trace = .wait s.par.pollInterval :: s.world.trace
      ∧ s.pause.world.txlog = s.world.txlog ∧ s.world.now + s.par.pollInterval ≤ s.pause.world.now
      ∧ s.pause.elapsed = s.elapsed + BitVec.ofNat 32 s.par.pollInterval
      ∧ s.pause.cfg = s.cfg ∧ s.pause.par = s.par :=
  ⟨_, rfl, rfl, rfl, Nat.le_add_right _ _, rfl, rfl, rfl⟩

/-- What the poll loop leaves in the environment and in `LOBS`: it only polled and waited, nothing was
consumed or sent, and the value returned is 0 or the length of `RXQ`, at least `n`. -/
theorem awaitLoop_effect (n T : Nat) : ∀ (polls : Nat) (s : State), ∃ new arrived,
    (State.awaitLoop polls n T s).1.world.trace = new ++ s.world.trace
      ∧ (State.awaitLoop polls n T s).1.world.rxq = s.world.rxq ++ arrived
      ∧ (State.awaitLoop polls n T s).1.world.txlog = s.world.txlog
      ∧ (State.awaitLoop polls n T s).1.lobs = BitVec.ofNat 16 (State.awaitLoop polls n T s).2
      ∧ ((State.awaitLoop polls n T s).2 = 0 ∨
          n ≤ (State.awaitLoop polls n T s).2
            ∧ (State.awaitLoop polls n T s).1.world.rxq.length = (State.awaitLoop polls n T s).2)
      ∧ (1 ≤ n → ∀ e ∈ new,
          (∃ k, e = .rxLen s.cfg.ch k ∧ ((State.awaitLoop polls n T s).2 = 0 → k < n))
            ∨ e = .wait s.par.pollInterval) := by
  intro polls
  induction polls with
  | zero => intro s; exact ⟨[], [], rfl, by simp [State.awaitLoop], rfl, rfl, .inl rfl, by simp⟩
  | succ polls ih =>
    intro s
    obtain ⟨arr, k, q, len, tr, tx, -, -, cf, pa, ends⟩ := poll_effect s n T
    unfold State.awaitLoop
    dsimp only
    generalize s.poll n T = r at q len tr tx cf pa ends ⊢
    obtain ⟨u, answer⟩ := r
    dsimp only at q len tr tx cf pa ends ⊢
    rcases ends with ⟨hL, rfl, lo⟩ | ⟨hL, -, rfl, lo⟩ | ⟨hL, -, rfl⟩
    · refine ⟨[.rxLen s.cfg.ch k], arr, tr, q, tx, lo, .inr ⟨hL, len⟩, fun h e he => ?_⟩
      simp only [List.mem_singleton] at he
      exact .inl ⟨k, he, fun z => absurd z (by dsimp only; omega)⟩
    · refine ⟨[.rxLen s.cfg.ch k], arr, tr, q, tx, lo, .inl rfl, fun h e he => ?_⟩
      simp only [List.mem_singleton] at he
      exact .inl ⟨k, he, fun _ => hL⟩
    · obtain ⟨arr2, q2, tr2, tx2, -, -, cf2, pa2⟩ := pause_effect u
      dsimp only
      generalize u.pause = v at q2 tr2 tx2 cf2 pa2 ⊢
      obtain ⟨new, arr3, h1, h2, h3, h4, h5, h6⟩ := ih v
      generalize State.awaitLoop polls n T v = w at h1 h2 h3 h4 h5 h6 ⊢
      refine ⟨new ++ [.wait u.par.pollInterval, .rxLen s.cfg.ch k], arr ++ (arr2 ++ arr3), ?_, ?_, ?_, h4,
        h5, fun h e he => ?_⟩
      · rw [h1, tr2, tr]; simp
      · rw [h2, q2, q]; simp
      · rw [h3, tx2, tx]
      · rcases List.mem_append.mp he with he | he
        · rcases h6 h e he with ⟨j, hj, hk⟩ | hj
          · exact .inl ⟨j, by rw [hj, cf2, cf], hk⟩
          · exact .inr (by rw [hj, pa2, pa])
        · rcases List.mem_cons.mp he with he | he
          · exact .inr (by rw [he, pa])
          · simp only [List.mem_singleton] at he
            exact .inl ⟨k, he, fun _ => hL⟩

/-- When the loop ends (R151): with a positive poll interval and enough polls, `ELAPSED` ends below
`T + POLL_INTERVAL`, a timeout is at `ELAPSED >= T` with fewer than `n` bytes in `RXQ`, and the time passed
is at least what `ELAPSED` counts. -/
theorem awaitLoop_ends (n T : Nat) : ∀ (polls : Nat) (s : State), 1 ≤ n → 1 ≤ s.par.pollInterval →
    T + s.par.pollInterval < 2 ^ 32 → s.elapsed.toNat < T + s.par.pollInterval →
    1 ≤ polls → T < s.elapsed.toNat + polls →
    (State.awaitLoop polls n T s).1.elapsed.toNat < T + s.par.pollInterval
      ∧ ((State.awaitLoop polls n T s).2 = 0 →
          (State.awaitLoop polls n T s).1.world.rxq.length < n
            ∧ T ≤ (State.awaitLoop polls n T s).1.elapsed.toNat)
      ∧ s.world.now + (State.awaitLoop polls n T s).1.elapsed.toNat
          ≤ (State.awaitLoop polls n T s).1.world.now + s.elapsed.toNat := by
  intro polls
  induction polls with
  | zero => intro s hn hp hT he h1 hs; omega
  | succ polls ih =>
    intro s hn hp hT he h1 hs
    obtain ⟨arr, k, q, len, tr, tx, no, el, cf, pa, ends⟩ := poll_effect s n T
    unfold State.awaitLoop
    dsimp only
    generalize s.poll n T = r at q len tr tx no el cf pa ends ⊢
    obtain ⟨u, answer⟩ := r
    dsimp only at q len tr tx no el cf pa ends ⊢
    rcases ends with ⟨hL, rfl, lo⟩ | ⟨hL, hE, rfl, lo⟩ | ⟨hL, hE, rfl⟩
    · exact ⟨by simpa [el] using he, fun z => absurd z (by dsimp only; omega), by simp [el, no]⟩
    · exact ⟨by simpa [el] using he, fun _ => ⟨by dsimp only; omega, by simpa [el] using hE⟩,
        by simp [el, no]⟩
    · obtain ⟨arr2, q2, tr2, tx2, no2, el2, cf2, pa2⟩ := pause_effect u
      have e : u.pause.elapsed.toNat = s.elapsed.toNat + s.par.pollInterval := by
        rw [el2, el, pa, BitVec.toNat_add, BitVec.toNat_ofNat]
        omega
      dsimp only
      generalize u.pause = v at no2 pa2 e ⊢
      have hv : v.par = s.par := pa2.trans pa
      have hx := ih v hn (by simpa [hv] using hp) (by simpa [hv] using hT) (by rw [e, hv]; omega)
        (by omega) (by rw [e]; omega)
      generalize State.awaitLoop polls n T v = w at hx ⊢
      rw [e, hv] at hx
      rw [pa] at no2
      exact ⟨hx.1, hx.2.1, by omega⟩

/-- All that `AWAIT` writes: `ELAPSED`, `LOBS` and the environment (R151). -/
def OnlyAwait (s t : State) : Prop := t = { s with world := t.world, elapsed := t.elapsed, lobs := t.lobs }

theorem OnlyAwait.trans {s t u : State} (a : OnlyAwait s t) (b : OnlyAwait t u) : OnlyAwait s u := by
  unfold OnlyAwait at *
  rw [a] at b
  exact b

theorem poll_only (s : State) (n T : Nat) : OnlyAwait s (s.poll n T).1 := by
  unfold State.poll
  dsimp only
  split
  · rfl
  · split <;> rfl

theorem pause_only (s : State) : OnlyAwait s s.pause := rfl

theorem awaitLoop_only (n T : Nat) : ∀ (polls : Nat) (s : State),
    OnlyAwait s (State.awaitLoop polls n T s).1 := by
  intro polls
  induction polls with
  | zero => intro s; rfl
  | succ polls ih =>
    intro s
    have a := poll_only s n T
    unfold State.awaitLoop
    dsimp only
    split
    · exact a
    · exact (a.trans (pause_only _)).trans (ih _)

theorem awaitBytes_only (s : State) (n T : Nat) : OnlyAwait s (s.awaitBytes n T).1 :=
  OnlyAwait.trans (t := { s with elapsed := 0 }) rfl (awaitLoop_only n T _ _)

theorem awaitBytes_txcnt (s : State) (n T : Nat) : (s.awaitBytes n T).1.txcnt = s.txcnt := by
  rw [awaitBytes_only s n T]

/-- `AWAIT` (R151): both descriptions, from its start. -/
theorem awaitBytes_effect (s : State) (n T : Nat) : ∃ new arrived,
    (s.awaitBytes n T).1.world.trace = new ++ s.world.trace
      ∧ (s.awaitBytes n T).1.world.rxq = s.world.rxq ++ arrived
      ∧ (s.awaitBytes n T).1.world.txlog = s.world.txlog
      ∧ (s.awaitBytes n T).1.lobs = BitVec.ofNat 16 (s.awaitBytes n T).2
      ∧ ((s.awaitBytes n T).2 = 0 ∨
          n ≤ (s.awaitBytes n T).2 ∧ (s.awaitBytes n T).1.world.rxq.length = (s.awaitBytes n T).2)
      ∧ (1 ≤ n → ∀ e ∈ new,
          (∃ k, e = .rxLen s.cfg.ch k ∧ ((s.awaitBytes n T).2 = 0 → k < n))
            ∨ e = .wait s.par.pollInterval) :=
  awaitLoop_effect n T (T + 1) { s with elapsed := 0 }

theorem awaitBytes_ends (s : State) (n T : Nat) (hn : 1 ≤ n) (hp : 1 ≤ s.par.pollInterval)
    (hT : T + s.par.pollInterval < 2 ^ 32) :
    (s.awaitBytes n T).1.elapsed.toNat < T + s.par.pollInterval
      ∧ ((s.awaitBytes n T).2 = 0 →
          (s.awaitBytes n T).1.world.rxq.length < n ∧ T ≤ (s.awaitBytes n T).1.elapsed.toNat)
      ∧ s.world.now + (s.awaitBytes n T).1.elapsed.toNat ≤ (s.awaitBytes n T).1.world.now := by
  have h := awaitLoop_ends n T (T + 1) { s with elapsed := 0 } hn hp hT
    (show (0 : BitVec 32).toNat < _ by simp; omega) (Nat.le_add_left _ _)
    (show T < (0 : BitVec 32).toNat + (T + 1) by simp)
  simpa [State.awaitBytes] using h

/-- The count `Tx` accepted for a frame (R63, R150). -/
theorem send_effect (s : State) (bs : Bytes) : ∃ arrived,
    (s.send bs).2 ≤ bs.length
      ∧ (s.send bs).1.world.rxq = s.world.rxq ++ arrived
      ∧ (s.send bs).1.world.txlog = s.world.txlog ++ bs.take (s.send bs).2
      ∧ (s.send bs).1.world.trace = .tx s.cfg.ch bs (s.send bs).2 :: s.world.trace
      ∧ (s.send bs).1.world.now = s.world.now
      ∧ (s.send bs).1.txcnt = BitVec.ofNat 16 (s.send bs).2 :=
  ⟨_, Nat.min_le_right _ _, rfl, rfl, rfl, rfl, rfl⟩

/-- `READEXACT n` with `n` bytes buffered (R152): the oldest `n` bytes, now in `RSP`. -/
theorem readExact_effect (s : State) (n : Nat) (hn : n ≤ s.world.rxq.length) (h257 : n ≤ Config.rspBytes)
    (hr : s.rsp.length = Config.rspBytes) : ∃ arrived,
    (s.readExact n).2 = s.world.rxq.take n
      ∧ (s.readExact n).1.rsp = s.world.rxq.take n ++ s.rsp.drop n
      ∧ (s.readExact n).1.world.rxq = s.world.rxq.drop n ++ arrived
      ∧ (s.readExact n).1.world.txlog = s.world.txlog
      ∧ (s.readExact n).1.world.now = s.world.now
      ∧ (s.readExact n).1.world.trace = .rxPop s.cfg.ch n (s.world.rxq.take n) :: s.world.trace := by
  have e : ∀ l : Bytes, (s.world.rxq ++ l).take n = s.world.rxq.take n := fun l => by
    rw [List.take_append_of_le_length hn]
  refine ⟨_, e _, ?_, List.drop_append_of_le_length hn, rfl, rfl, ?_⟩
  · show List.take Config.rspBytes ((s.world.rxq ++ _).take n ++ s.rsp.drop ((s.world.rxq ++ _).take n).length) = _
    rw [e, List.length_take, Nat.min_eq_left hn]
    apply List.take_of_length_le
    simp only [List.length_append, List.length_take, List.length_drop, hr]
    omega
  · show Event.rxPop s.cfg.ch n ((s.world.rxq ++ _).take n) :: _ = _
    rw [e]
    rfl

/-- The three ends of an exchange (R154), with the events of each: a send-count mismatch, a timeout, or a
response whose first byte decides. -/
theorem exchange_effect (s : State) (bs : Bytes) (n : Nat) (h1 : 1 ≤ n) (h257 : n ≤ Config.rspBytes)
    (hr : s.rsp.length = Config.rspBytes) : ∃ c, c ≤ bs.length
      ∧ (s.exchange bs n).1.txcnt = BitVec.ofNat 16 c
      ∧ (s.exchange bs n).1.world.txlog = s.world.txlog ++ bs.take c
      ∧ ((c ≠ bs.length ∧ (s.exchange bs n).2 = false ∧ (s.exchange bs n).1.rsp = s.rsp
            ∧ s.world.rxq <+: (s.exchange bs n).1.world.rxq
            ∧ (s.exchange bs n).1.world.trace = .tx s.cfg.ch bs c :: s.world.trace)
        ∨ (c = bs.length ∧ (s.exchange bs n).2 = false ∧ (s.exchange bs n).1.lobs = 0
            ∧ (s.exchange bs n).1.rsp = s.rsp ∧ s.world.rxq <+: (s.exchange bs n).1.world.rxq
            ∧ (1 ≤ s.par.pollInterval → s.par.timeout + s.par.pollInterval < 2 ^ 32 →
                (s.exchange bs n).1.world.rxq.length < n
                  ∧ s.par.timeout ≤ (s.exchange bs n).1.elapsed.toNat)
            ∧ ∃ polls, (s.exchange bs n).1.world.trace = polls ++ .tx s.cfg.ch bs c :: s.world.trace
              ∧ ∀ e ∈ polls, (∃ k, e = .rxLen s.cfg.ch k ∧ k < n) ∨ e = .wait s.par.pollInterval)
        ∨ (c = bs.length ∧ ∃ polls response, response.length = n
            ∧ (s.exchange bs n).1.rsp = response ++ s.rsp.drop n
            ∧ (∃ arrived, (s.world.rxq ++ arrived).take n = response
              ∧ (s.world.rxq ++ arrived).drop n <+: (s.exchange bs n).1.world.rxq)
            ∧ (s.exchange bs n).2 = (response.headD 0 == s.par.ack)
            ∧ (s.exchange bs n).1.world.trace
              = .rxPop s.cfg.ch n response :: (polls ++ .tx s.cfg.ch bs c :: s.world.trace)
            ∧ ∀ e ∈ polls, (∃ k, e = .rxLen s.cfg.ch k) ∨ e = .wait s.par.pollInterval)) := by
  obtain ⟨a1, cle, q1, t1, tr1, -, tx1⟩ := send_effect s bs
  unfold State.exchange
  dsimp only
  have r1 : (s.send bs).1.rsp = s.rsp := rfl
  have par1 : (s.send bs).1.par = s.par := rfl
  have cfg1 : (s.send bs).1.cfg = s.cfg := rfl
  generalize s.send bs = r at cle q1 t1 tr1 tx1 r1 par1 cfg1 ⊢
  obtain ⟨u, c⟩ := r
  dsimp only at cle q1 t1 tr1 tx1 r1 par1 cfg1 ⊢
  refine ⟨c, cle, ?_⟩
  by_cases hc : c = bs.length
  · rw [if_neg (by simpa using hc)]
    obtain ⟨new, a2, tr2, q2, t2, l2, w2, ev2⟩ := awaitBytes_effect u n u.par.timeout
    have ev := ev2 h1
    have ends := awaitBytes_ends u n u.par.timeout h1
    have only := awaitBytes_only u n u.par.timeout
    generalize u.awaitBytes n u.par.timeout = r at tr2 q2 t2 l2 w2 ev ends only ⊢
    obtain ⟨v, L⟩ := r
    dsimp only at tr2 q2 t2 l2 w2 ev ends only ⊢
    have r2 : v.rsp = u.rsp := by rw [only]
    have x2 : v.txcnt = u.txcnt := by rw [only]
    have par2 : v.par = u.par := by rw [only]
    have cfg2 : v.cfg = u.cfg := by rw [only]
    by_cases hL : L = 0
    · rw [if_pos hL]
      refine ⟨x2.trans tx1, by simp [t2, t1], .inr (.inl ⟨hc, rfl, by simp [l2, hL], by simp [r2, r1],
        ⟨a1 ++ a2, by simp [q2, q1]⟩, fun hp hT => ?_, new, by simp [tr2, tr1], fun e he => ?_⟩)⟩
      · rw [par1] at ends
        exact ((ends hp hT).2.1 hL)
      · rw [cfg1, par1] at ev
        rcases ev e he with ⟨k, hk, z⟩ | hw
        · exact .inl ⟨k, hk, z hL⟩
        · exact .inr hw
    · rw [if_neg hL]
      have wL := w2.resolve_left hL
      obtain ⟨a3, p1, p2, p3, p4, -, tr3⟩ := readExact_effect v n (by omega) h257 (by rw [r2, r1, hr])
      unfold State.takeResponse
      dsimp only
      have x3 : (v.readExact n).1.txcnt = v.txcnt := rfl
      have par3 : (v.readExact n).1.par = v.par := rfl
      generalize v.readExact n = r at p1 p2 p3 p4 x3 tr3 par3 ⊢
      obtain ⟨w, b⟩ := r
      dsimp only at p1 p2 p3 p4 x3 tr3 par3 ⊢
      have q : v.world.rxq = s.world.rxq ++ (a1 ++ a2) := by rw [q2, q1, List.append_assoc]
      refine ⟨by simp [x3, x2, tx1], by simp [p4, t2, t1], .inr (.inr ⟨hc, new, v.world.rxq.take n, ?_, ?_,
        ⟨a1 ++ a2, by rw [q], a3, ?_⟩, ?_, ?_, fun e he => ?_⟩)⟩
      · rw [List.length_take]; omega
      · simp [p2, r2, r1]
      · simp [p3, q]
      · show (b.headD 0 == w.par.ack) = _
        rw [p1, par3, par2, par1]
      · simp [tr3, tr2, tr1, cfg2, cfg1]
      · rw [cfg1, par1] at ev
        rcases ev e he with ⟨k, hk, -⟩ | hw
        · exact .inl ⟨k, hk⟩
        · exact .inr hw
  · rw [if_pos (by simpa using hc)]
    exact ⟨tx1, t1, .inl ⟨hc, rfl, by simp [r1], ⟨a1, by simp [q1]⟩, by simp [tr1]⟩⟩

end Sys2Proof.Machine
end

