-- ==== Sys2Proof/Laws/Sequence.lean ====
section
/-!
SUPPORT. The sequence event by event (spec/92_eei_decisions.md D33): what no step of it writes, several steps
in a row, and that the events of an exchange or of a reset pulse, taken one a step, do what the operation
does in one.
-/
namespace Sys2Proof.Machine

/-! ### What the sequence never writes -/

/-- `CFG_*`, the name, the ports, the slot, the value returned and the parameters are the same. -/
def Untouched (s t : State) : Prop :=
  t.cfg = s.cfg ∧ t.name = s.name ∧ t.inputs = s.inputs ∧ t.slot = s.slot ∧ t.ret = s.ret ∧ t.par = s.par

theorem Untouched.refl (s : State) : Untouched s s := ⟨rfl, rfl, rfl, rfl, rfl, rfl⟩

theorem Untouched.trans {s t u : State} (a : Untouched s t) (b : Untouched t u) : Untouched s u := by
  obtain ⟨a1, a2, a3, a4, a5, a6⟩ := a
  obtain ⟨b1, b2, b3, b4, b5, b6⟩ := b
  exact ⟨b1.trans a1, b2.trans a2, b3.trans a3, b4.trans a4, b5.trans a5, b6.trans a6⟩

theorem OnlyControl.untouched {s t : State} (h : OnlyControl s t) : Untouched s t := by
  unfold OnlyControl at h
  rw [h]
  exact Untouched.refl s

theorem setLevel_untouched (s : State) (line : Line) (v : Bool) : Untouched s (s.setLevel line v) := by
  cases line <;> exact Untouched.refl s

theorem poll_untouched (s : State) (n T : Nat) : Untouched s (s.poll n T).1 := by
  have h := poll_only s n T
  unfold OnlyAwait at h
  rw [h]
  exact Untouched.refl s

theorem stageFrame_untouched (s : State) (c : Stage) : Untouched s (s.stageFrame c).1 := by
  cases c <;> exact Untouched.refl s

theorem stageStep_untouched (s : State) (c : Stage) (x : ExchangePos) :
    Untouched s (s.stageStep c x) := by
  cases x with
  | tx =>
    have a : Untouched s ((s.stageFrame c).1.send (s.stageFrame c).2).1 := stageFrame_untouched s c
    show Untouched s (s.stageTx c)
    unfold State.stageTx
    dsimp only
    generalize (s.stageFrame c).1.send (s.stageFrame c).2 = r at a ⊢
    split
    · exact a.trans ((Untouched.refl _).trans (stageDone_control (r.1.setXok false) c false).untouched)
    · exact a
  | poll =>
    have a := poll_untouched s (c.response s.par) s.par.timeout
    show Untouched s (s.stagePoll c)
    unfold State.stagePoll
    dsimp only
    generalize s.poll (c.response s.par) s.par.timeout = r at a ⊢
    split
    · exact a
    · split
      · exact a.trans ((Untouched.refl _).trans (stageDone_control (r.1.setXok false) c false).untouched)
      · exact a
  | pause => exact Untouched.refl s
  | pop => exact (stageDone_control (s.takeResponse (c.response s.par)).1 c _).untouched

theorem pulseStep_untouched (s : State) (p : PulsePos) : Untouched s (s.pulseStep p) := by
  cases p with
  | low => exact setLevel_untouched s .reset false
  | hold => exact Untouched.refl s
  | high => exact setLevel_untouched s .reset true
  | settle => exact (pulseDone_control (s.wait s.par.tSettle)).untouched

theorem bootStep_untouched (s : State) (p : Pos) : Untouched s (s.bootStep p) := by
  unfold State.bootStep
  split
  · unfold State.configBoot
    dsimp only
    split
    · exact Untouched.refl s
    · exact (bootDone_control (s.setDir .boot).1 false).untouched
  · exact setLevel_untouched s .boot (s.st != .modeExited)
  · exact pulseStep_untouched s _
  · exact Untouched.refl s

theorem startAttempt_untouched (s : State) : Untouched s s.startAttempt :=
  pulseStep_untouched { s with attempt := s.attempt + 1 } .low

theorem fetchBlock_untouched (s : State) : Untouched s s.fetchBlock.1 := by
  rw [fetchBlock_frame]
  exact Untouched.refl s

theorem nextBlock_untouched (s : State) (page : Stage) (after : St) :
    Untouched s (s.nextBlock page after) := by
  unfold State.nextBlock
  dsimp only
  split
  · split <;> exact fetchBlock_untouched s
  · exact Untouched.refl s

theorem seqStep_untouched (s : State) : Untouched s s.seqStep := by
  unfold State.seqStep
  split
  · exact Untouched.refl s
  · unfold State.validateConfig; split <;> exact Untouched.refl s
  · unfold State.mountStorage; dsimp only; split <;> exact Untouched.refl s
  · split
    · unfold State.sizeImage; dsimp only
      split
      · exact Untouched.refl s
      · split <;> exact Untouched.refl s
    · unfold State.openImage; dsimp only; split <;> exact Untouched.refl s
  · exact bootStep_untouched s _
  · split
    · unfold State.setPins; dsimp only; split <;> exact Untouched.refl s
    · exact Untouched.refl s
  · split
    · exact startAttempt_untouched s
    · exact pulseStep_untouched s _
    · exact stageStep_untouched s _ _
    · exact Untouched.refl s
    · exact startAttempt_untouched { s with attempt := 0 }
  · split
    · exact stageStep_untouched s _ _
    · exact stageStep_untouched s .massEraseCmd .tx
  · split
    · exact nextBlock_untouched s _ _
    · exact stageStep_untouched s _ _
    · exact Untouched.refl s
  · split
    · exact nextBlock_untouched s _ _
    · exact stageStep_untouched s _ _
    · exact Untouched.refl s
  · split
    · unfold State.startCleanup; split <;> exact Untouched.refl s
    · unfold State.cleanupImage; split <;> exact Untouched.refl s
    · exact bootStep_untouched s _
  · exact Untouched.refl s

/-! ### Several steps in a row -/

/-- A run whose first step answers a next state goes on from it. -/
theorem run_next {M : Host.Core} {s t : M.State} (k : Nat) (e : M.step s = .next t) :
    M.run (k + 1) s = M.run k t := by
  show (match M.step s with
    | .next t => M.run k t
    | .fault r => .fault r
    | .refused r => .refused r) = _
  rw [e]

/-- Without a placed operation and with nothing on the ports, `k` steps of the machine are `k` steps of the
sequence. -/
theorem run_sequence : ∀ (k : Nat) (s : State), s.slot = none → s.inputs = [] →
    Sys2Proof.core.run k s = .next (State.seqStep^[k] s) := by
  intro k
  induction k with
  | zero => intro s _ _; rfl
  | succ k ih =>
    intro s h i
    have e : step s = .next s.seqStep := by
      have p : s.popInput = s := by
        unfold State.popInput
        rw [i]
        cases s
        cases i
        rfl
      rw [step_sequence s h (by simp [State.input, i]), p]
    obtain ⟨-, -, ui, us, -, -⟩ := seqStep_untouched s
    exact (run_next k e).trans (ih s.seqStep (us.trans h) (ui.trans i))

theorem reaches_of_sequence {s t : State} (h : s.slot = none) (i : s.inputs = [])
    (e : ∃ k, State.seqStep^[k] s = t) : Reaches s t := by
  obtain ⟨k, rfl⟩ := e
  exact ⟨k, run_sequence k s h i⟩

/-- One step, then some more. -/
theorem sequence_cons {s t u : State} (e : s.seqStep = t) (h : ∃ k, State.seqStep^[k] t = u) :
    ∃ k, State.seqStep^[k] s = u := by
  obtain ⟨k, rfl⟩ := h
  exact ⟨k + 1, by rw [Function.iterate_succ_apply, e]⟩

/-- Some steps, then some more. -/
theorem sequence_trans {s t u : State} (a : ∃ k, State.seqStep^[k] s = t)
    (b : ∃ k, State.seqStep^[k] t = u) : ∃ k, State.seqStep^[k] s = u := by
  obtain ⟨k, rfl⟩ := a
  obtain ⟨l, rfl⟩ := b
  exact ⟨l + k, Function.iterate_add_apply _ l k s⟩

/-! ### An exchange, event by event -/

/-- What follows a stage does not read the position it was at. -/
@[simp] theorem stageDone_goPos (s : State) (c : Stage) (ok : Bool) (p : Pos) :
    (s.goPos p).stageDone c ok = s.stageDone c ok := by
  have failed : (s.goPos p).attemptFailed = s.attemptFailed := by
    unfold State.attemptFailed
    rfl
  have found : (s.goPos p).presenceFound = s.presenceFound := by
    unfold State.presenceFound
    rfl
  cases c with
  | sync => cases ok; exacts [failed, rfl]
  | get => cases ok; exacts [failed, found]
  | _ => cases ok <;> rfl

/-- Inside a stage, in the state it belongs to, the sequence takes the stage's next event. -/
theorem seqStep_stage (s : State) (c : Stage) (x : ExchangePos) (h : s.st = c.home)
    (p : s.pos = .stage c x) : s.seqStep = s.stageStep c x := by
  cases c <;> simp [State.seqStep, h, p, Stage.home]

/-- The end of a stage whose `AWAIT` returned `r.2` (R154). -/
def awaited (c : Stage) (r : State × Nat) : State :=
  if r.2 = 0 then (r.1.setXok false).stageDone c false
  else (r.1.takeResponse (c.response r.1.par)).1.stageDone c (r.1.takeResponse (c.response r.1.par)).2

theorem goPos_self (s : State) {p : Pos} (h : s.pos = p) : s.goPos p = s := by cases s; cases h; rfl

/-- From its first poll on, a stage polls and waits as `AWAIT` does and then ends. -/
theorem poll_runs (c : Stage) : ∀ (polls : Nat) (s : State), s.st = c.home → s.pos = .stage c .poll →
    1 ≤ s.par.pollInterval → s.par.timeout + s.par.pollInterval < 2 ^ 32 →
    s.elapsed.toNat < s.par.timeout + s.par.pollInterval → 1 ≤ polls →
    s.par.timeout < s.elapsed.toNat + polls →
    ∃ k, State.seqStep^[k] s
      = awaited c (State.awaitLoop polls (c.response s.par) s.par.timeout s) := by
  intro polls
  induction polls with
  | zero => intro s _ _ _ _ _ h _; omega
  | succ polls ih =>
    intro s hst hpos hp hT he h1 hs
    have e : s.seqStep = s.stagePoll c := seqStep_stage s c .poll hst hpos
    have only := poll_only s (c.response s.par) s.par.timeout
    obtain ⟨_, k, -, -, -, -, -, el, -, pa, ends⟩ := poll_effect s (c.response s.par) s.par.timeout
    refine sequence_cons e ?_
    unfold State.stagePoll State.awaitLoop
    dsimp only
    generalize s.poll (c.response s.par) s.par.timeout = r at only el pa ends ⊢
    obtain ⟨u, answer⟩ := r
    dsimp only at only el pa ends ⊢
    have ust : u.st = c.home := by rw [only]; exact hst
    have upos : u.pos = .stage c .poll := by rw [only]; exact hpos
    rcases ends with ⟨-, rfl, -⟩ | ⟨-, -, rfl, -⟩ | ⟨-, hE, rfl⟩
    · dsimp only
      split
      · next hL => exact ⟨0, by simp [awaited, hL]⟩
      · next hL =>
        refine ⟨1, ?_⟩
        show (u.goPos (.stage c .pop)).seqStep = _
        rw [seqStep_stage (u.goPos (.stage c .pop)) c .pop ust rfl]
        simp only [awaited, hL, if_false]
        exact stageDone_goPos (u.takeResponse (c.response u.par)).1 c
          (u.takeResponse (c.response u.par)).2 (.stage c .pop)
    · exact ⟨0, by simp [awaited]⟩
    · dsimp only
      have step2 : (u.goPos (.stage c .pause)).seqStep = u.pause := by
        rw [seqStep_stage (u.goPos (.stage c .pause)) c .pause ust rfl]
        exact goPos_self u.pause upos
      have pe : u.pause.elapsed.toNat = s.elapsed.toNat + s.par.pollInterval := by
        rw [State.pause_elapsed, el, pa, BitVec.toNat_add, BitVec.toNat_ofNat]
        omega
      have vp : u.pause.par = s.par := pa
      have next := ih u.pause ust upos (by rw [vp]; exact hp) (by rw [vp]; exact hT) (by rw [vp, pe]; omega)
        (by omega) (by rw [vp, pe]; omega)
      rw [vp] at next
      exact sequence_cons step2 next

/-- The poll loop does not read the position. -/
theorem awaitLoop_goPos (n T : Nat) (p : Pos) : ∀ (polls : Nat) (s : State),
    State.awaitLoop polls n T (s.goPos p)
      = ((State.awaitLoop polls n T s).1.goPos p, (State.awaitLoop polls n T s).2) := by
  intro polls
  induction polls with
  | zero => intro s; rfl
  | succ polls ih =>
    intro s
    have a : (s.goPos p).poll n T = ((s.poll n T).1.goPos p, (s.poll n T).2) := by
      unfold State.poll
      rw [show (s.goPos p).rxLen = (s.rxLen.1.goPos p, s.rxLen.2) from rfl]
      dsimp only
      generalize s.rxLen = r
      by_cases hL : n ≤ r.2
      · rw [if_pos hL, if_pos hL]; rfl
      · rw [if_neg hL, if_neg hL]
        by_cases hT : T ≤ r.1.elapsed.toNat
        · rw [if_pos (show T ≤ (r.1.goPos p).elapsed.toNat from hT), if_pos hT]; rfl
        · rw [if_neg (show ¬ T ≤ (r.1.goPos p).elapsed.toNat from hT), if_neg hT]
    unfold State.awaitLoop
    rw [a]
    dsimp only
    cases (s.poll n T).2 with
    | some L => rfl
    | none => exact ih (s.poll n T).1.pause

/-- The end of a stage does not read the position. -/
theorem awaited_goPos (c : Stage) (r : State × Nat) (p : Pos) :
    awaited c (r.1.goPos p, r.2) = awaited c r := by
  unfold awaited
  dsimp only
  split
  · exact stageDone_goPos (r.1.setXok false) c false p
  · exact stageDone_goPos (r.1.takeResponse (c.response r.1.par)).1 c
      (r.1.takeResponse (c.response r.1.par)).2 p

/-- A stage, taken event by event from its `Tx`, ends as its command does, with what follows the stage. -/
theorem stage_runs (s : State) (c : Stage) (hst : s.st = c.home) (hpos : s.pos = .stage c .tx)
    (hp : 1 ≤ s.par.pollInterval) (hT : s.par.timeout + s.par.pollInterval < 2 ^ 32) :
    ∃ k, State.seqStep^[k] s = (s.command c).1.stageDone c (s.command c).2 := by
  refine sequence_cons (seqStep_stage s c .tx hst hpos) ?_
  have fk := (stageFrame_frame s c).keeps
  show ∃ k, State.seqStep^[k] (s.stageTx c) = _
  unfold State.stageTx State.command State.exchange
  dsimp only
  generalize s.stageFrame c = f at fk ⊢
  obtain ⟨f, bs⟩ := f
  dsimp only at fk ⊢
  have sk := (send_frame f bs).keeps
  generalize f.send bs = r at sk ⊢
  obtain ⟨u, n⟩ := r
  dsimp only at sk ⊢
  have ust : u.st = c.home := sk.1.trans (fk.1.trans hst)
  have up : u.par = s.par := by
    obtain ⟨-, -, -, -, -, -, -, -, -, -, -, -, -, -, -, -, -, -, -, a⟩ := fk
    obtain ⟨-, -, -, -, -, -, -, -, -, -, -, -, -, -, -, -, -, -, -, -, b⟩ := sk
    exact b.trans a
  by_cases hc : n ≠ bs.length
  · rw [if_pos hc, if_pos hc]
    exact ⟨0, rfl⟩
  · rw [if_neg hc, if_neg hc]
    have run := poll_runs c (u.par.timeout + 1) (({ u with elapsed := 0 } : State).goPos (.stage c .poll))
      ust rfl (by simpa [up] using hp) (by simpa [up] using hT) (by simp [up]; omega) (by omega)
      (by simp)
    rw [awaitLoop_goPos, awaited_goPos] at run
    refine sequence_trans run ⟨0, ?_⟩
    show awaited c (u.awaitBytes (c.response u.par) u.par.timeout) = _
    rw [up]
    have wp : (u.awaitBytes (c.response s.par) s.par.timeout).1.par = s.par := by
      rw [awaitBytes_only]; exact up
    unfold awaited
    rw [wp]
    generalize u.awaitBytes (c.response s.par) s.par.timeout = w
    split <;> rfl

/-! ### A reset pulse, event by event -/

/-- What follows a pulse does not read the position it was at. -/
theorem pulseDone_goPos (s : State) (p : Pos) : (s.goPos p).pulseDone = s.pulseDone := by
  unfold State.pulseDone State.bootDone
  cases h : s.st <;> simp [State.goPos, State.goto, State.issue, h]

/-- Inside a pulse, but for the first event of one of `DETECT`, the sequence takes the pulse's next event. -/
theorem seqStep_pulse (s : State) (p : PulsePos)
    (h : s.st = .modeEntered ∨ s.st = .modeExited ∨ (s.st = .presenceConfirmed ∧ p ≠ .low))
    (hp : s.pos = .pulse p) : s.seqStep = s.pulseStep p := by
  rcases h with h | h | ⟨h, hl⟩
  · simp [State.seqStep, State.bootStep, h, hp]
  · simp [State.seqStep, State.bootStep, h, hp]
  · cases p <;> simp_all [State.seqStep]

/-- A reset pulse whose first event has been made ends, event by event, as `RESET_PULSE` does, with what
follows the pulse. -/
theorem pulse_runs (s : State)
    (h : s.st = .modeEntered ∨ s.st = .modeExited ∨ s.st = .presenceConfirmed) :
    ∃ k, State.seqStep^[k] (s.pulseStep .low) = s.resetPulse.pulseDone := by
  have next : ∀ (u : State) (p : PulsePos), u.st = s.st → p ≠ .low →
      (u.goPos (.pulse p)).seqStep = (u.goPos (.pulse p)).pulseStep p := fun u p hu hl =>
    seqStep_pulse _ p (by simpa [hu, hl] using h) rfl
  have e : s.pulseStep .low = (s.setLevel .reset false).goPos (.pulse .hold) := rfl
  have r : s.resetPulse
      = (((s.setLevel .reset false).wait s.par.tResetLow).setLevel .reset true).wait s.par.tSettle := rfl
  have h1 : (s.setLevel .reset false).st = s.st ∧ (s.setLevel .reset false).par = s.par := by simp
  rw [e, r]
  generalize s.setLevel .reset false = u at h1 ⊢
  have c2 : (u.goPos (.pulse .hold)).pulseStep .hold
      = (u.wait s.par.tResetLow).goPos (.pulse .high) := by rw [← h1.2]; rfl
  refine sequence_cons ((next u .hold h1.1 (by simp)).trans c2) ?_
  have h2 : (u.wait s.par.tResetLow).st = s.st ∧ (u.wait s.par.tResetLow).par = s.par := h1
  generalize u.wait s.par.tResetLow = v at h2 ⊢
  have c3 : (v.goPos (.pulse .high)).pulseStep .high
      = (v.setLevel .reset true).goPos (.pulse .settle) := rfl
  refine sequence_cons ((next v .high h2.1 (by simp)).trans c3) ?_
  have h3 : (v.setLevel .reset true).st = s.st ∧ (v.setLevel .reset true).par = s.par := by simpa using h2
  generalize v.setLevel .reset true = w at h3 ⊢
  have c4 : (w.goPos (.pulse .settle)).pulseStep .settle
      = ((w.wait s.par.tSettle).goPos (.pulse .settle)).pulseDone := by rw [← h3.2]; rfl
  exact sequence_cons ((next w .settle h3.1 (by simp)).trans c4) ⟨0, pulseDone_goPos _ _⟩

end Sys2Proof.Machine
end

