-- ==== Sys2Proof/Laws/World.lean ====
section
/-!
SUPPORT. What the environment can go through, said once: a relation on environments that is reflexive,
transitive and kept by every provider call and wait relates the environment before an operation to the
environment after it, for every operation (`exec_worldRel`) and every step of the sequence
(`seqStep_worldRel`).
-/
namespace Sys2Proof.Machine

/-- A relation on environments kept by every event of spec/20_memory.md R76. -/
structure WorldRel (cap : Nat) (R : World → World → Prop) : Prop where
  refl : ∀ w, R w w
  trans : ∀ u v w, R u v → R v w → R u w
  setDir : ∀ line id w, R w (World.setDir cap line id w).1
  setLevel : ∀ line id v w, R w (World.setLevel cap line id v w)
  wait : ∀ n w, R w (World.wait cap n w)
  uartConfigure : ∀ ch format w, R w (World.uartConfigure cap ch format w).1
  uartSetPins : ∀ c w, R w (World.uartSetPins cap c w).1
  send : ∀ ch bs w, R w (World.send cap ch bs w).1
  rxLen : ∀ ch w, R w (World.rxLen cap ch w).1
  rxPop : ∀ ch n w, R w (World.rxPop cap ch n w).1
  stoMount : ∀ w, R w (World.stoMount cap w).1
  stoOpen : ∀ name w, R w (World.stoOpen cap name w).1
  stoSize : ∀ w, R w (World.stoSize cap w).1
  stoRead : ∀ n w, R w (World.stoRead cap n w).1
  stoRewind : ∀ w, R w (World.stoRewind cap w)
  stoClose : ∀ w, R w (World.stoClose cap w)
  result : ∀ r w, R w (w.log (.result r))

/-- A relation on states: the parameters are the same and the environments are related. -/
def Related (R : World → World → Prop) (s t : State) : Prop := t.par = s.par ∧ R s.world t.world

section
variable {R : World → World → Prop} {k : Nat}

theorem Related.refl (h : WorldRel k R) (s : State) : Related R s s := ⟨rfl, h.refl _⟩

theorem Related.trans (h : WorldRel k R) {s t u : State} (a : Related R s t) (b : Related R t u) :
    Related R s u := ⟨b.1.trans a.1, h.trans _ _ _ a.2 b.2⟩

/-- An update of registers only. -/
theorem Related.regs (h : WorldRel k R) {s t : State} (p : t.par = s.par) (w : t.world = s.world) :
    Related R s t := ⟨p, w ▸ h.refl _⟩

theorem Related.ask {α : Type} {s : State} {call : World → World × α}
    (h : R s.world (call s.world).1) : Related R s (s.ask call).1 := ⟨rfl, h⟩

theorem Related.tell {s : State} {call : World → World} (h : R s.world (call s.world)) :
    Related R s (s.tell call) := ⟨rfl, h⟩

/-- A capacity of the related state. -/
theorem Related.cap_eq {s t : State} (a : Related R s t) : t.cap = s.cap := by
  simp [State.cap, a.1]

/-- The relation's closure, at the related state's capacity. -/
theorem Related.carry {s t : State} (a : Related R s t) (h : WorldRel s.cap R) : WorldRel t.cap R := by
  rw [a.cap_eq]; exact h

theorem wait_related {s : State} (h : WorldRel s.cap R) (n : Nat) : Related R s (s.wait n) :=
  Related.tell (h.wait _ _)

theorem setDir_related {s : State} (h : WorldRel s.cap R) (line : Line) :
    Related R s (s.setDir line).1 := Related.ask (h.setDir _ _ _)

theorem setLevel_related {s : State} (h : WorldRel s.cap R) (line : Line) (v : Bool) :
    Related R s (s.setLevel line v) := by
  cases line <;> exact ⟨rfl, h.setLevel _ _ _ _⟩

theorem configLines_related {s : State} (h : WorldRel s.cap R) : Related R s s.configLines.1 := by
  have a := setDir_related h .reset
  exact a.trans h (setDir_related (a.carry h) .boot)

theorem resetPulse_related {s : State} (h : WorldRel s.cap R) : Related R s s.resetPulse := by
  unfold State.resetPulse
  dsimp only
  have a := setLevel_related h .reset false
  generalize s.setLevel .reset false = s1 at a ⊢
  have b := a.trans h (wait_related (a.carry h) s.par.tResetLow)
  generalize s1.wait s.par.tResetLow = s2 at b ⊢
  have c := b.trans h (setLevel_related (b.carry h) .reset true)
  exact c.trans h (wait_related (c.carry h) s.par.tSettle)

theorem bootMode_related {s : State} (h : WorldRel s.cap R) (v : Bool) :
    Related R s (s.bootMode v).1 := by
  have a := configLines_related h
  unfold State.bootMode
  dsimp only
  split
  · have b := a.trans h (setLevel_related (a.carry h) .boot v)
    exact b.trans h (resetPulse_related (b.carry h))
  · exact a

theorem send_related {s : State} (h : WorldRel s.cap R) (bs : Bytes) : Related R s (s.send bs).1 :=
  (Related.ask (h.send _ _ _)).trans h (Related.regs h rfl rfl)

theorem rxLen_related {s : State} (h : WorldRel s.cap R) : Related R s s.rxLen.1 :=
  Related.ask (h.rxLen _ _)

theorem poll_related {s : State} (h : WorldRel s.cap R) (n T : Nat) : Related R s (s.poll n T).1 := by
  have a := rxLen_related h
  unfold State.poll
  dsimp only
  split
  · exact a.trans h (Related.regs h rfl rfl)
  · split
    · exact a.trans h (Related.regs h rfl rfl)
    · exact a

theorem pause_related {s : State} (h : WorldRel s.cap R) : Related R s s.pause :=
  (wait_related h s.par.pollInterval).trans h (Related.regs h rfl rfl)

theorem awaitLoop_related (n T : Nat) : ∀ (polls : Nat) (s : State), WorldRel s.cap R →
    Related R s (State.awaitLoop polls n T s).1 := by
  intro polls
  induction polls with
  | zero => intro s h; exact Related.regs h rfl rfl
  | succ polls ih =>
    intro s h
    have a := poll_related h n T
    unfold State.awaitLoop
    dsimp only
    split
    · exact a
    · have b := a.trans h (pause_related (a.carry h))
      exact b.trans h (ih _ (b.carry h))

theorem awaitBytes_related {s : State} (h : WorldRel s.cap R) (n T : Nat) :
    Related R s (s.awaitBytes n T).1 :=
  (Related.regs (t := { s with elapsed := 0 }) h rfl rfl).trans h (awaitLoop_related n T _ _ h)

theorem readExact_related {s : State} (h : WorldRel s.cap R) (n : Nat) :
    Related R s (s.readExact n).1 :=
  (Related.ask (h.rxPop _ _ _)).trans h (Related.regs h rfl rfl)

theorem takeResponse_related {s : State} (h : WorldRel s.cap R) (n : Nat) :
    Related R s (s.takeResponse n).1 :=
  (readExact_related h n).trans h (Related.regs h rfl rfl)

theorem exchange_related {s : State} (h : WorldRel s.cap R) (bs : Bytes) (n : Nat) :
    Related R s (s.exchange bs n).1 := by
  have a := send_related h bs
  unfold State.exchange
  dsimp only
  split
  · exact a.trans h (Related.regs h rfl rfl)
  · have b := a.trans h (awaitBytes_related (a.carry h) n (s.send bs).1.par.timeout)
    split
    · exact b.trans h (Related.regs h rfl rfl)
    · exact b.trans h (takeResponse_related (b.carry h) n)

theorem loadAddr_related {s : State} (h : WorldRel s.cap R) (a : Addr) :
    Related R s (s.loadAddr a).1 :=
  (Related.regs (t := (s.addrFrame a).1) h rfl rfl).trans h
    (exchange_related (s := (s.addrFrame a).1) h _ _)

theorem pageWriteData_related {s : State} (h : WorldRel s.cap R) (p : Bytes) :
    Related R s (s.pageWriteData p).1 :=
  (Related.regs (t := (s.dataFrame p).1) h rfl rfl).trans h
    (exchange_related (s := (s.dataFrame p).1) h _ _)

theorem stageFrame_related {s : State} (h : WorldRel s.cap R) (c : Stage) :
    Related R s (s.stageFrame c).1 := by cases c <;> exact Related.regs h rfl rfl

theorem command_related {s : State} (h : WorldRel s.cap R) (c : Stage) : Related R s (s.command c).1 := by
  have a := stageFrame_related h c
  exact a.trans h (exchange_related (a.carry h) _ _)

theorem massErase_related {s : State} (h : WorldRel s.cap R) : Related R s s.massErase.1 := by
  have a := command_related h .massEraseCmd
  unfold State.massErase
  dsimp only
  split
  · exact a.trans h (command_related (a.carry h) _)
  · exact a

theorem extErase_related {s : State} (h : WorldRel s.cap R) : Related R s s.extErase.1 := by
  have a := command_related h .extEraseCmd
  unfold State.extErase
  dsimp only
  split
  · exact a.trans h (command_related (a.carry h) _)
  · exact a

theorem pageWrite_related {s : State} (h : WorldRel s.cap R) : Related R s s.pageWrite.1 := by
  have a := command_related h .writeMem
  unfold State.pageWrite
  dsimp only
  split
  · have b := a.trans h (command_related (a.carry h) .writeAddr)
    split
    · exact b.trans h (command_related (b.carry h) _)
    · exact b
  · exact a

theorem pageRead_related {s : State} (h : WorldRel s.cap R) : Related R s s.pageRead.1 := by
  have a := command_related h .readMem
  unfold State.pageRead
  dsimp only
  split
  · have b := a.trans h (command_related (a.carry h) .readAddr)
    exact b.trans h (command_related (b.carry h) _)
  · exact a

theorem detectAttempt_related {s : State} (h : WorldRel s.cap R) : Related R s s.detectAttempt.1 := by
  have a : Related R s ({ s with attempt := s.attempt + 1 } : State).resetPulse :=
    (Related.regs (t := { s with attempt := s.attempt + 1 }) h rfl rfl).trans h
      (resetPulse_related (s := { s with attempt := s.attempt + 1 }) h)
  have b := a.trans h (command_related (a.carry h) .sync)
  unfold State.detectAttempt
  dsimp only
  split
  · exact b.trans h (command_related (b.carry h) _)
  · exact b

theorem detectLoop_related : ∀ (left : Nat) (s : State), WorldRel s.cap R →
    Related R s (State.detectLoop left s).1 := by
  intro left
  induction left with
  | zero => intro s h; exact Related.refl h s
  | succ left ih =>
    intro s h
    have a := detectAttempt_related h
    unfold State.detectLoop
    dsimp only
    split
    · exact a
    · split
      · exact a
      · have b := a.trans h (wait_related (a.carry h) s.detectAttempt.1.par.tBackoff)
        exact b.trans h (ih _ (b.carry h))

theorem detect_related {s : State} (h : WorldRel s.cap R) : Related R s s.detect.1 :=
  (Related.regs (t := { s with attempt := 0 }) h rfl rfl).trans h (detectLoop_related _ _ h)

theorem fetchBlock_related {s : State} (h : WorldRel s.cap R) : Related R s s.fetchBlock.1 := by
  have a : Related R s (s.ask (World.stoRead s.cap s.par.block)).1 := Related.ask (h.stoRead _ _)
  unfold State.fetchBlock
  dsimp only
  split <;> exact a.trans h (Related.regs h rfl rfl)

/-! ### The sequence, event by event -/

theorem stageDone_related {s : State} (h : WorldRel s.cap R) (c : Stage) (ok : Bool) :
    Related R s (s.stageDone c ok) :=
  Related.regs h (stageDone_control s c ok).par (stageDone_control s c ok).world

theorem bootDone_related {s : State} (h : WorldRel s.cap R) (ok : Bool) : Related R s (s.bootDone ok) :=
  Related.regs h (bootDone_control s ok).par (bootDone_control s ok).world

theorem pulseDone_related {s : State} (h : WorldRel s.cap R) : Related R s s.pulseDone :=
  Related.regs h (pulseDone_control s).par (pulseDone_control s).world

theorem stageStep_related {s : State} (h : WorldRel s.cap R) (c : Stage) (x : ExchangePos) :
    Related R s (s.stageStep c x) := by
  cases x with
  | tx =>
    have a := stageFrame_related h c
    have b := a.trans h (send_related (a.carry h) (s.stageFrame c).2)
    show Related R s (s.stageTx c)
    unfold State.stageTx
    dsimp only
    generalize (s.stageFrame c).1.send (s.stageFrame c).2 = r at b ⊢
    split
    · have d := b.trans h (Related.regs (t := r.1.setXok false) h rfl rfl)
      exact d.trans h (stageDone_related (d.carry h) c false)
    · exact b.trans h (Related.regs h rfl rfl)
  | poll =>
    have a := poll_related h (c.response s.par) s.par.timeout
    show Related R s (s.stagePoll c)
    unfold State.stagePoll
    dsimp only
    generalize s.poll (c.response s.par) s.par.timeout = r at a ⊢
    split
    · exact a.trans h (Related.regs h rfl rfl)
    · split
      · have d := a.trans h (Related.regs (t := r.1.setXok false) h rfl rfl)
        exact d.trans h (stageDone_related (d.carry h) c false)
      · exact a.trans h (Related.regs h rfl rfl)
  | pause => exact (pause_related h).trans h (Related.regs h rfl rfl)
  | pop =>
    have a := takeResponse_related h (c.response s.par)
    exact a.trans h (stageDone_related (a.carry h) c _)

theorem pulseStep_related {s : State} (h : WorldRel s.cap R) (p : PulsePos) :
    Related R s (s.pulseStep p) := by
  cases p with
  | low => exact (setLevel_related h .reset false).trans h (Related.regs h rfl rfl)
  | hold => exact (wait_related h _).trans h (Related.regs h rfl rfl)
  | high => exact (setLevel_related h .reset true).trans h (Related.regs h rfl rfl)
  | settle =>
    have a := wait_related h s.par.tSettle
    exact a.trans h (pulseDone_related (a.carry h))

theorem configReset_related {s : State} (h : WorldRel s.cap R) : Related R s s.configReset :=
  (setDir_related h .reset).trans h (Related.regs h rfl rfl)

theorem bootStep_related {s : State} (h : WorldRel s.cap R) (p : Pos) : Related R s (s.bootStep p) := by
  unfold State.bootStep
  split
  · have a := setDir_related h .boot
    unfold State.configBoot
    dsimp only
    split
    · exact a.trans h (Related.regs h rfl rfl)
    · exact a.trans h (bootDone_related (a.carry h) false)
  · exact (setLevel_related h .boot _).trans h (Related.regs h rfl rfl)
  · exact pulseStep_related h _
  · exact configReset_related h

theorem startAttempt_related {s : State} (h : WorldRel s.cap R) : Related R s s.startAttempt :=
  (Related.regs (t := { s with attempt := s.attempt + 1 }) h rfl rfl).trans h (pulseStep_related h .low)

theorem sizeImage_related {s : State} (h : WorldRel s.cap R) : Related R s s.sizeImage := by
  have a : Related R s (s.ask (World.stoSize s.cap)).1 := Related.ask (h.stoSize _)
  unfold State.sizeImage
  dsimp only
  split
  · exact a.trans h (Related.regs h rfl rfl)
  · split <;> exact a.trans h (Related.regs h rfl rfl)

theorem nextBlock_related {s : State} (h : WorldRel s.cap R) (page : Stage) (after : St) :
    Related R s (s.nextBlock page after) := by
  unfold State.nextBlock
  dsimp only
  split
  · split <;> exact (fetchBlock_related h).trans h (Related.regs h rfl rfl)
  · exact Related.regs h rfl rfl

/-- One step of the sequence, from any state and position. -/
theorem seqStep_worldRel {s : State} (h : WorldRel s.cap R) : Related R s s.seqStep := by
  unfold State.seqStep
  split
  · exact Related.refl h s
  · unfold State.validateConfig; split <;> exact Related.regs h rfl rfl
  · have a : Related R s (s.ask (World.stoMount s.cap)).1 := Related.ask (h.stoMount _)
    unfold State.mountStorage; dsimp only
    split <;> exact a.trans h (Related.regs h rfl rfl)
  · split
    · exact sizeImage_related h
    · have a : Related R s (s.ask (World.stoOpen s.cap s.name)).1 := Related.ask (h.stoOpen _ _)
      unfold State.openImage; dsimp only
      split <;> exact a.trans h (Related.regs h rfl rfl)
  · exact bootStep_related h _
  · split
    · have a : Related R s (s.ask (World.uartSetPins s.cap s.cfg)).1 := Related.ask (h.uartSetPins _ _)
      unfold State.setPins; dsimp only
      split <;> exact a.trans h (Related.regs h rfl rfl)
    · exact (Related.ask (call := World.uartConfigure s.cap s.cfg.ch s.par.uart)
        (h.uartConfigure _ _ _)).trans h (Related.regs h rfl rfl)
  · split
    · exact startAttempt_related h
    · exact pulseStep_related h _
    · exact stageStep_related h _ _
    · exact (wait_related h _).trans h (Related.regs h rfl rfl)
    · exact (Related.regs (t := { s with attempt := 0 }) h rfl rfl).trans h (startAttempt_related h)
  · split
    · exact stageStep_related h _ _
    · exact stageStep_related h .massEraseCmd .tx
  · split
    · exact nextBlock_related h _ _
    · exact stageStep_related h _ _
    · exact Related.regs h rfl rfl
  · split
    · exact nextBlock_related h _ _
    · exact stageStep_related h _ _
    · exact (Related.tell (h.stoRewind _)).trans h (Related.regs h rfl rfl)
  · split
    · unfold State.startCleanup
      split
      · exact configReset_related h
      · exact Related.regs h rfl rfl
    · unfold State.cleanupImage
      split
      · exact (Related.tell (h.stoClose _)).trans h (Related.regs h rfl rfl)
      · exact (Related.tell (h.result _ _)).trans h (Related.regs h rfl rfl)
    · exact bootStep_related h _
  · exact Related.refl h s

theorem runSequence_worldRel : ∀ (fuel : Nat) (s : State), WorldRel s.cap R →
    Related R s (State.runSequence fuel s) := by
  intro fuel
  induction fuel with
  | zero => intro s h; exact Related.refl h s
  | succ fuel ih =>
    intro s h
    unfold State.runSequence
    split
    · have a := seqStep_worldRel h
      exact a.trans h (ih _ (a.carry h))
    · exact Related.refl h s

theorem flash_related {s : State} (h : WorldRel s.cap R) (c : Cfg) (nm : Name) :
    Related R s (s.flash c nm) := by
  unfold State.flash
  split
  · exact Related.refl h s
  · extract_lets t
    have a : Related R s (s.startSession c nm) := Related.regs h rfl rfl
    have b : Related R (s.startSession c nm) t := runSequence_worldRel _ _ h
    clear_value t
    exact (a.trans h b).trans h (Related.regs h rfl rfl)

/-- Every operation relates the environment before it to the environment after it, and keeps the
parameters. -/
theorem exec_worldRel {s t : State} (h : WorldRel s.cap R) (i : Instr) (e : exec i s = .next t) :
    Related R s t := by
  have ret : ∀ {u : State} (r : Ret), Related R s u → Related R s (u.setRet r) :=
    fun r a => a.trans h (Related.regs h rfl rfl)
  cases i with
  | sync => cases e; exact ret _ (command_related h .sync)
  | get => cases e; exact ret _ (command_related h .get)
  | getver => cases e; exact ret _ (command_related h .getver)
  | getid => cases e; exact ret _ (command_related h .getid)
  | massEraseCmd => cases e; exact ret _ (command_related h .massEraseCmd)
  | massEraseParam => cases e; exact ret _ (command_related h .massEraseParam)
  | massErase => cases e; exact ret _ (massErase_related h)
  | extEraseCmd => cases e; exact ret _ (command_related h .extEraseCmd)
  | extEraseParam => cases e; exact ret _ (command_related h .extEraseParam)
  | extErase => cases e; exact ret _ (extErase_related h)
  | writeMem => cases e; exact ret _ (command_related h .writeMem)
  | readMem => cases e; exact ret _ (command_related h .readMem)
  | loadAddr a => cases e; exact ret _ (loadAddr_related h a)
  | pageWriteData p => cases e; exact ret _ (pageWriteData_related h p)
  | pageWrite => cases e; exact ret _ (pageWrite_related h)
  | pageReadLen => cases e; exact ret _ (command_related h .pageLen)
  | pageRead => cases e; exact ret _ (pageRead_related h)
  | ack => cases e; exact ret _ (Related.refl h s)
  | configLines => cases e; exact ret _ (configLines_related h)
  | resetPulse => cases e; exact ret _ (resetPulse_related h)
  | enterBl => cases e; exact ret _ (bootMode_related h true)
  | exitBl => cases e; exact ret _ (bootMode_related h false)
  | send bs => cases e; exact ret _ (send_related h bs)
  | awaitBytes n T => cases e; exact ret _ (awaitBytes_related h n T)
  | readExact n =>
    simp only [exec, execReadExact] at e
    split at e
    · cases e
    · cases e; exact ret _ (readExact_related h n)
  | classify b => cases e; exact ret _ (Related.refl h s)
  | exchange bs n => cases e; exact ret _ (exchange_related h bs n)
  | compl b => cases e; exact ret _ (Related.refl h s)
  | xor8 seed bs => cases e; exact ret _ (Related.regs h rfl rfl)
  | cmdframe op => cases e; exact ret _ (Related.refl h s)
  | addrframe a => cases e; exact ret _ (Related.regs h rfl rfl)
  | dataframe p => cases e; exact ret _ (Related.regs h rfl rfl)
  | lenparam n => cases e; exact ret _ (Related.refl h s)
  | detect => cases e; exact ret _ (detect_related h)
  | incAddr => cases e; exact ret _ (Related.regs h rfl rfl)
  | fetchBlock => cases e; exact ret _ (fetchBlock_related h)
  | flash c nm => cases e; exact flash_related h c nm

end

end Sys2Proof.Machine
end

