-- ==== Sys2Proof/Tests/Slice0.lean ====
section
/-!
SUPPORT. The model's own tests. Expected results come from spec/95_test_vectors.md (V-… and S-… ids), from
spec/30_encoding.md and from the rules' worked examples. `TIMEOUT` is 3 here where the vectors have 5000, and
every `Wait` lasts exactly its argument, so that the kernel runs a step in a moment. Then, for every
obligation with hypotheses, a concrete state and operands that meet them, at the bounds of each clause.
-/
namespace Sys2Proof.Tests

open Sys2Proof Sys2Proof.Machine

-- One theorem is checked after another, not each in a thread of its own.
set_option Elab.async false

/-! ### Small states -/

/-- The parameters of the vectors, with a short timeout. -/
def par : Params where
  ack := 0x79
  block := 256
  lenInd := 0xFF
  pad := 0xFF
  uart := ⟨115200, 8, .even, 1⟩
  rspSync := 1
  rspGet := 15
  rspGetver := 5
  rspGetid := 5
  rspAck := 1
  rspPage := 257
  timeout := 3
  pollInterval := 1
  timeUnit := 1
  tResetLow := 100
  tSettle := 500
  tBackoff := 100
  maxAttempts := 3
  maxImage := 32768
  baseAddr := ⟨0x08, 0x00, 0x00, 0x00⟩
  pageCsumSeed := 0xFF
  unset := 0xFF
  uartChannels := 3
  identPhase := false
  rxCapacity := 600

/-- Providers that answer well, a target that sends `replies`, one entry an event. -/
def world (replies : List Bytes) : World :=
  { World.initial with
    arrivals := replies ++ List.replicate 60 []
    dirOk := List.replicate 6 true
    confOk := [true], pinsOk := [true], mountOk := [true], openOk := [true]
    txCount := List.replicate 10 1000
    sizes := [none], reads := List.replicate 4 none
    late := List.replicate 60 0 }

/-- After reset, with the vectors' configuration. -/
def start (replies : List Bytes) : State :=
  { State.reset with par := par, world := world replies, cfg := ⟨0x04, 0x05, 0x11, 0x10, 0x01⟩ }

/-- In the sequence at a state and position. -/
def atPos (st : St) (pos : Pos) (replies : List Bytes) : State :=
  { start replies with st := st, pos := pos }

/-- What a next state shows. -/
def shows {α : Type} (o : Host.Outcome State Fault Refusal) (look : State → α) : Option α :=
  match o with
  | .next t => some (look t)
  | .fault _ => none
  | .refused _ => none

/-- `RxLen` polls left out of a trace (R76: their number is no behaviour). -/
def events (t : State) : List Event :=
  (t.world.trace.reverse).filter fun e => match e with
    | .rxLen _ _ => false
    | _ => true

/-- The 14 bytes after the ACK of the vectors' Get reply. -/
def getReply : Bytes :=
  [0x79, 0x0B, 0x31, 0x00, 0x01, 0x02, 0x11, 0x21, 0x31, 0x43, 0x63, 0x73, 0x82, 0x92, 0x79]

/-! ### WellFormed refuses the ill-formed (R104, R150, R181, R184) -/

theorem test_wf_send_empty : (Instr.send []).wf = false := by decide
theorem test_wf_send_long : (Instr.send (List.replicate 259 0)).wf = false := by decide +kernel
theorem test_wf_send_longest : (Instr.send (List.replicate 258 0)).wf = true := by decide +kernel
theorem test_wf_await_count : (Instr.awaitBytes 2 5000).wf = false := by decide
theorem test_wf_readExact_count : (Instr.readExact 256).wf = false := by decide
theorem test_wf_exchange_length : (Instr.exchange [1, 2, 3, 4] 1).wf = false := by decide
theorem test_wf_exchange_count : (Instr.exchange [0x7F] 0).wf = false := by decide
theorem test_wf_xor8_long : (Instr.xor8 0 (List.replicate 258 0)).wf = false := by decide +kernel
theorem test_wf_dataframe_short : (Instr.dataframe (List.replicate 255 0)).wf = false := by decide +kernel
theorem test_wf_pageWriteData_long : (Instr.pageWriteData (List.replicate 257 0)).wf = false := by
  decide +kernel

/-! ### Decoding the bytes the spec writes (R91 to R101, S-1) -/

theorem test_decode_sync : decode par .afterMassErase [0x7F] = .ok .sync := by decide
theorem test_decode_ack : decode par .afterMassErase [0x79] = .ok .ack := by decide
theorem test_decode_get : decode par .afterMassErase [0x00, 0xFF] = .ok .get := by decide
theorem test_decode_getver : decode par .afterMassErase [0x01, 0xFE] = .ok .getver := by decide
theorem test_decode_getid : decode par .afterMassErase [0x02, 0xFD] = .ok .getid := by decide
theorem test_decode_massEraseCmd : decode par .afterMassErase [0x43, 0xBC] = .ok .massEraseCmd := by decide
theorem test_decode_massEraseParam :
    decode par .afterMassErase [0xFF, 0x00] = .ok .massEraseParam := by decide
theorem test_decode_extEraseCmd : decode par .afterMassErase [0x44, 0xBB] = .ok .extEraseCmd := by decide
theorem test_decode_extEraseParam :
    decode par .afterMassErase [0xFF, 0xFF, 0x00] = .ok .extEraseParam := by decide
theorem test_decode_writeMem : decode par .afterMassErase [0x31, 0xCE] = .ok .writeMem := by decide
theorem test_decode_readMem : decode par .afterMassErase [0x11, 0xEE] = .ok .readMem := by decide
theorem test_decode_pageReadLen : decode par .afterReadMem [0xFF, 0x00] = .ok .pageReadLen := by decide
/-- V-C5.13. -/
theorem test_decode_loadAddr : decode par .afterReadMem [0x12, 0x34, 0x56, 0x78, 0x08]
    = .ok (.loadAddr ⟨0x12, 0x34, 0x56, 0x78⟩) := by decide
/-- V-C13: 255 bytes AA then 55, checksum FF. -/
theorem test_decode_pageWriteData :
    decode par .afterReadMem (0xFF :: (List.replicate 255 0xAA ++ [0x55, 0xFF]))
      = .ok (.pageWriteData (List.replicate 255 0xAA ++ [0x55])) := by decide +kernel

theorem test_reject_empty : decode par .afterMassErase [] = .error .empty := by decide
theorem test_reject_byte : decode par .afterMassErase [0x1F] = .error .unknownByte := by decide
theorem test_reject_complement : decode par .afterMassErase [0x00, 0xFE] = .error .badComplement := by
  decide
theorem test_reject_opcode : decode par .afterMassErase [0x21, 0xDE] = .error .unknownOpcode := by decide
theorem test_reject_xparam : decode par .afterMassErase [0xFF, 0xFF, 0x01] = .error .badXparam := by decide
/-- The losing reading of C3 (seed FF) gives F7. -/
theorem test_reject_address : decode par .afterMassErase [0x08, 0x00, 0x00, 0x00, 0xF7]
    = .error .badAddrChecksum := by decide
theorem test_reject_length : decode par .afterMassErase [0x08, 0x00, 0x00, 0x00] = .error .badLength := by
  decide
theorem test_reject_indicator : decode par .afterMassErase (0xFE :: List.replicate 257 0x00)
    = .error .badLengthIndicator := by decide +kernel
/-- V-C9: with the normative seed the checksum of 256 bytes FF is 00, not FF. -/
theorem test_reject_data : decode par .afterMassErase (List.replicate 258 0xFF)
    = .error .badDataChecksum := by decide +kernel
/-- V-C9 with the alternative seed 00 (D22). -/
theorem test_decode_data_seed_zero :
    decode { par with pageCsumSeed := 0x00 } .afterMassErase (List.replicate 258 0xFF)
    = .ok (.pageWriteData (List.replicate 256 0xFF)) := by decide +kernel
theorem test_encode_loadAddr : encode par (.loadAddr ⟨0x08, 0xFF, 0xFF, 0x00⟩)
    = some [0x08, 0xFF, 0xFF, 0x00, 0x08] := by decide

/-! ### Codec (V-C1 to V-C15) -/

theorem test_compl : shows (exec (.compl 0x43) (start [])) (·.ret) = some (.byte 0xBC) := by decide
theorem test_xor8 : shows (exec (.xor8 0x00 [0x01, 0x02, 0x04, 0x08, 0x10, 0x20, 0x40, 0x80]) (start []))
    (fun t => (t.ret, t.csum)) = some (.byte 0xFF, 0xFF) := by decide
theorem test_xor8_empty : shows (exec (.xor8 0xFF []) (start [])) (·.ret) = some (.byte 0xFF) := by decide
theorem test_cmdframe : shows (exec (.cmdframe 0x31) (start [])) (·.ret) = some (.bytes [0x31, 0xCE]) := by
  decide
theorem test_addrframe : shows (exec (.addrframe ⟨0x08, 0x00, 0x7F, 0x00⟩) (start [])) (·.ret)
    = some (.bytes [0x08, 0x00, 0x7F, 0x00, 0x77]) := by decide
/-- V-C11: 5A then 255 bytes 00. -/
theorem test_dataframe : shows (exec (.dataframe (0x5A :: List.replicate 255 0x00)) (start [])) (·.ret)
    = some (.bytes (0xFF :: 0x5A :: (List.replicate 255 0x00 ++ [0x5A]))) := by decide +kernel
/-- V-C14, seed 00: FB. -/
theorem test_dataframe_seed_zero :
    shows (exec (.dataframe ([0x01, 0x02, 0x03, 0x04] ++ List.replicate 252 0xFF))
      { start [] with par := { par with pageCsumSeed := 0x00 } }) (·.csum) = some 0xFB := by decide +kernel
theorem test_lenparam : shows (exec (.lenparam 0xFF) (start [])) (·.ret) = some (.bytes [0xFF, 0x00]) := by
  decide

/-! ### Transport (V-T1 to V-T13) -/

theorem test_send : shows (exec (.send [0x31, 0xCE]) (start []))
    (fun t => (t.ret, t.txcnt, t.world.txlog)) = some (.count 2, 2, [0x31, 0xCE]) := by decide
/-- V-T2: the observed length, not the expected one. -/
theorem test_await_longer : shows (exec (.awaitBytes 15 3) (start [getReply ++ [0x79]]))
    (fun t => (t.ret, t.elapsed, t.world.now)) = some (.count 16, 0, 0) := by decide +kernel
/-- V-T3: 0 on timeout although a byte is buffered; the byte stays. -/
theorem test_await_timeout : shows (exec (.awaitBytes 15 3) (start [[0x79]]))
    (fun t => (t.ret, t.lobs, t.elapsed, t.world.rxq, t.world.now)) = some (.count 0, 0, 3, [0x79], 3) := by
  decide +kernel
/-- V-T6. -/
theorem test_readExact :
    shows (exec (.readExact 1) { start [] with world := { world [] with rxq := [0x79, 0x1F, 0x00] } })
      (fun t => (t.ret, t.rsp.headD 0, t.world.rxq)) = some (.bytes [0x79], 0x79, [0x1F, 0x00]) := by
  decide +kernel
/-- U3: fewer than `n` bytes buffered. -/
theorem test_readExact_short : shows (exec (.readExact 1) (start [])) (·.ret) = none := by decide
/-- V-T7. -/
theorem test_classify_ack : shows (exec (.classify 0x79) (start [])) (·.ret) = some (.ok true) := by decide
theorem test_classify_other : shows (exec (.classify 0x7A) (start [])) (·.ret) = some (.ok false) := by decide
theorem test_ack : shows (exec .ack (start [])) (·.ret) = some (.ok true) := by decide
/-- V-T9: a NACK is consumed. -/
theorem test_exchange_nack : shows (exec (.exchange [0x31, 0xCE] 1) (start [[0x1F]]))
    (fun t => (t.ret, t.xok, t.world.rxq)) = some (.ok false, false, []) := by decide +kernel
/-- V-T11: `Tx` accepts 100 of 258 bytes: no poll, no wait. -/
theorem test_exchange_partial :
    shows (exec (.exchange (List.replicate 258 0xFF) 1)
      { start [[0x79]] with world := { world [[0x79]] with txCount := [100] } })
      (fun t => (t.ret, t.txcnt, t.world.txlog.length, t.world.trace.length, t.world.rxq))
      = some (.ok false, 100, 100, 1, [0x79]) := by decide +kernel

/-! ### Boot mode (V-B1 to V-B4) -/

/-- V-B1. -/
theorem test_resetPulse : shows (exec .resetPulse (start [])) (fun t => (events t, t.nrst, t.world.now))
    = some ([.setLevel .reset 4 false, .wait 100, .setLevel .reset 4 true, .wait 500], true, 600) := by decide
/-- V-B2. -/
theorem test_enterBl : shows (exec .enterBl (start [])) (fun t => (events t, t.bootSel, t.ret))
    = some ([.setDir .reset 4 true, .setDir .boot 5 true, .setLevel .boot 5 true, .setLevel .reset 4 false,
        .wait 100, .setLevel .reset 4 true, .wait 500], true, .ok true) := by decide
/-- V-B4. -/
theorem test_enterBl_fails :
    shows (exec .enterBl { start [] with world := { world [] with dirOk := [false, true] } })
      (fun t => (events t, t.bootSel, t.ret))
      = some ([.setDir .reset 4 false, .setDir .boot 5 true], false, .ok false) := by decide
/-- V-B3. -/
theorem test_exitBl : shows (exec .exitBl { start [] with bootSel := true })
    (fun t => (events t, t.bootSel, t.ret))
    = some ([.setDir .reset 4 true, .setDir .boot 5 true, .setLevel .boot 5 false, .setLevel .reset 4 false,
        .wait 100, .setLevel .reset 4 true, .wait 500], false, .ok true) := by decide
theorem test_configLines : shows (exec .configLines (start [])) (fun t => (events t, t.ret))
    = some ([.setDir .reset 4 true, .setDir .boot 5 true], .ok true) := by decide

/-! ### Commands (V-K1 to V-K11) -/

/-- V-K1. -/
theorem test_sync : shows (exec .sync (start [[0x79]])) (fun t => (t.ret, events t))
    = some (.ok true, [.tx 1 [0x7F] 1, .rxPop 1 1 [0x79]]) := by decide +kernel
/-- V-K1: no reply. -/
theorem test_sync_silent : shows (exec .sync (start [])) (fun t => (t.ret, t.world.now))
    = some (.ok false, 3) := by decide +kernel
/-- V-K2. -/
theorem test_get : shows (exec .get (start [getReply])) (fun t => (t.ret, events t))
    = some (.ok true, [.tx 1 [0x00, 0xFF] 2, .rxPop 1 15 getReply]) := by decide +kernel
/-- V-K2: byte 0 not ACK, all 15 consumed. -/
theorem test_get_nack : shows (exec .get (start [0x1F :: getReply.tail])) (fun t => (t.ret, t.world.rxq))
    = some (.ok false, []) := by decide +kernel
/-- V-K3. -/
theorem test_getver : shows (exec .getver (start [[0x79, 0x31, 0x00, 0x00, 0x79]]))
    (fun t => (t.ret, t.world.txlog, t.world.rxq)) = some (.ok true, [0x01, 0xFE], []) := by decide +kernel
theorem test_getid : shows (exec .getid (start [[0x79, 0x01, 0x04, 0x10, 0x79]]))
    (fun t => (t.ret, t.world.txlog, t.world.rxq)) = some (.ok true, [0x02, 0xFD], []) := by decide +kernel
/-- V-K4. -/
theorem test_massErase : shows (exec .massErase (start [[0x79], [], [], [0x79]]))
    (fun t => (t.ret, t.world.txlog)) = some (.ok true, [0x43, 0xBC, 0xFF, 0x00]) := by decide +kernel
theorem test_massErase_refused : shows (exec .massErase (start [[0x1F]]))
    (fun t => (t.ret, t.world.txlog)) = some (.ok false, [0x43, 0xBC]) := by decide +kernel
theorem test_massEraseCmd : shows (exec .massEraseCmd (start [[0x79]]))
    (fun t => (t.ret, t.world.txlog)) = some (.ok true, [0x43, 0xBC]) := by decide +kernel
theorem test_massEraseParam : shows (exec .massEraseParam (start [[0x1F]]))
    (fun t => (t.ret, t.world.txlog)) = some (.ok false, [0xFF, 0x00]) := by decide +kernel
/-- V-K5. -/
theorem test_extErase : shows (exec .extErase (start [[0x79], [], [], [0x79]]))
    (fun t => (t.ret, t.world.txlog)) = some (.ok true, [0x44, 0xBB, 0xFF, 0xFF, 0x00]) := by decide +kernel
theorem test_extErase_refused : shows (exec .extErase (start [[0x1F]]))
    (fun t => (t.ret, t.world.txlog)) = some (.ok false, [0x44, 0xBB]) := by decide +kernel
theorem test_extEraseCmd : shows (exec .extEraseCmd (start [[0x79]]))
    (fun t => (t.ret, t.world.txlog)) = some (.ok true, [0x44, 0xBB]) := by decide +kernel
theorem test_extEraseParam : shows (exec .extEraseParam (start [[0x79]]))
    (fun t => (t.ret, t.world.txlog)) = some (.ok true, [0xFF, 0xFF, 0x00]) := by decide +kernel
theorem test_writeMem : shows (exec .writeMem (start [[0x79]]))
    (fun t => (t.ret, t.world.txlog)) = some (.ok true, [0x31, 0xCE]) := by decide +kernel
theorem test_readMem : shows (exec .readMem (start [[0x79]]))
    (fun t => (t.ret, t.world.txlog)) = some (.ok true, [0x11, 0xEE]) := by decide +kernel
/-- V-K6. -/
theorem test_loadAddr : shows (exec (.loadAddr ⟨0x08, 0x00, 0x02, 0x00⟩) (start [[0x79]]))
    (fun t => (t.ret, t.world.txlog)) = some (.ok true, [0x08, 0x00, 0x02, 0x00, 0x0A]) := by decide +kernel
/-- V-C9 on the wire. -/
theorem test_pageWriteData : shows (exec (.pageWriteData (List.replicate 256 0xFF)) (start [[0x79]]))
    (fun t => (t.ret, t.world.txlog)) = some (.ok true, List.replicate 257 0xFF ++ [0x00]) := by
  decide +kernel
/-- V-K7. -/
theorem test_pageWrite :
    shows (exec .pageWrite { start [[0x79], [], [], [0x79], [], [], [0x79]] with
      addr := ⟨0x08, 0x00, 0x00, 0x00⟩, buf := 0x5A :: List.replicate 255 0x00 })
      (fun t => (t.ret, t.world.txlog))
      = some (.ok true, [0x31, 0xCE, 0x08, 0x00, 0x00, 0x00, 0x08, 0xFF, 0x5A]
          ++ List.replicate 255 0x00 ++ [0x5A]) := by decide +kernel
/-- V-K7: the address stage refused, no data frame. -/
theorem test_pageWrite_refused :
    shows (exec .pageWrite { start [[0x79], [], [], [0x1F]] with addr := ⟨0x08, 0x00, 0x00, 0x00⟩ })
      (fun t => (t.ret, t.world.txlog.length)) = some (.ok false, 7) := by decide +kernel
theorem test_pageReadLen : shows (exec .pageReadLen (start [0x79 :: List.replicate 256 0x00]))
    (fun t => (t.ret, t.world.txlog, t.world.rxq)) = some (.ok true, [0xFF, 0x00], []) := by decide +kernel
/-- V-K9: the address NACK is consumed and ignored. -/
theorem test_pageRead :
    shows (exec .pageRead { start [[0x79], [], [], [0x1F], [], [], 0x79 :: List.replicate 256 0xD0] with
      addr := ⟨0x08, 0x00, 0x00, 0x00⟩ })
      (fun t => (t.ret, t.world.txlog, t.world.rxq))
      = some (.ok true, [0x11, 0xEE, 0x08, 0x00, 0x00, 0x00, 0x08, 0xFF, 0x00], []) := by decide +kernel
/-- V-K10. -/
theorem test_pageRead_refused : shows (exec .pageRead (start [[0x1F]]))
    (fun t => (t.ret, t.world.txlog)) = some (.ok false, [0x11, 0xEE]) := by decide +kernel

/-! ### Detector, address, block, session (V-H2, V-H5, V-A3, V-A4, P5, V-O2, V-O10) -/

/-- V-H2. -/
theorem test_detect : shows (exec .detect (start [[], [], [], [], [0x79], [], [], getReply]))
    (fun t => (t.ret, t.attempt, t.world.txlog, t.world.now)) = some (.ok true, 1, [0x7F, 0x00, 0xFF], 600) := by
  decide +kernel
/-- V-H5. -/
theorem test_detect_nack : shows (exec .detect (start
      [[], [], [], [], [0x1F], [], [], [], [], [], [], [], [0x1F], [], [], [], [], [], [], [], [0x1F]]))
    (fun t => (t.ret, t.attempt, t.world.txlog, t.world.now))
    = some (.ok false, 3, [0x7F, 0x7F, 0x7F], 2000) := by decide +kernel
theorem test_incAddr_carries : shows (exec .incAddr { start [] with addr := ⟨0x08, 0xFF, 0xFF, 0x00⟩ })
    (·.addr) = some ⟨0x09, 0x00, 0x00, 0x00⟩ := by decide
theorem test_incAddr_wraps : shows (exec .incAddr { start [] with addr := ⟨0xFF, 0xFF, 0xFF, 0x00⟩ })
    (·.addr) = some ⟨0x00, 0x00, 0x00, 0x00⟩ := by decide

/-- A 300-byte image, its second block next. -/
def shortBlock : State :=
  { start [] with
    imgSize := 300, blk := 1
    world := { world [] with img := Memory.ofBytes (List.replicate 256 0xEE ++ List.replicate 44 0x2B)
                             imgPos := 256 } }

/-- R274's worked example: 44 bytes wanted, the rest FF. -/
theorem test_fetchBlock : shows (exec .fetchBlock shortBlock) (fun t => (t.ret, t.nread, t.buf))
    = some (.ok true, 44, List.replicate 44 0x2B ++ List.replicate 212 0xFF) := by decide +kernel
/-- V-O19: 255 bytes where 256 are wanted. -/
theorem test_fetchBlock_short :
    shows (exec .fetchBlock { start [] with
      imgSize := 600, blk := 1, world := { world [] with reads := [some (List.replicate 255 0x00)] } })
      (fun t => (t.ret, t.nread, t.buf)) = some (.ok false, 255, List.replicate 256 0x00) := by decide +kernel
/-- V-O2. -/
theorem test_flash_invalid : shows (exec (.flash ⟨0x04, 0x04, 0x11, 0x10, 0x01⟩ []) (start []))
    (fun t => (t.ret, t.st, t.world.trace)) = some (.result .configurationInvalid, .done,
      [.result .configurationInvalid]) := by
  decide +kernel
/-- V-O10. -/
theorem test_flash_too_large :
    shows (exec (.flash ⟨0x04, 0x05, 0x11, 0x10, 0x01⟩ [])
      { start [] with world := { world [] with sizes := [some 32769] } })
      (fun t => (t.ret, events t))
      = some (.result .imageTooLarge,
          [.stoMount true, .stoOpen [] true, .stoSize 32769, .stoClose, .result .imageTooLarge]) := by decide +kernel

/-! ### The sequence, one event a step (D33) -/

/-- R91, R240: `Tx` of `SYNC`; `AWAIT` starts. -/
theorem test_step_tx :
    shows (step { atPos .presenceConfirmed (.stage .sync .tx) [] with elapsed := 9 })
      (fun t => (t.pos, t.elapsed, t.world.trace)) = some (.stage .sync .poll, 0, [.tx 1 [0x7F] 1]) := by
  decide +kernel
/-- R151: a poll that sees nothing before `TIMEOUT`, and one at `TIMEOUT` (the exchange fails: R267, D6). -/
theorem test_step_poll :
    shows (step { atPos .presenceConfirmed (.stage .sync .poll) [] with elapsed := 2 })
      (fun t => (t.pos, t.world.trace)) = some (.stage .sync .pause, [.rxLen 1 0])
    ∧ shows (step { atPos .presenceConfirmed (.stage .sync .poll) [] with elapsed := 3, attempt := 2 })
      (fun t => (t.pos, t.xok, t.world.trace)) = some (.backoff, false, [.rxLen 1 0]) := by decide +kernel
/-- R151: between two polls `ELAPSED` counts the wait. -/
theorem test_step_pause :
    shows (step { atPos .presenceConfirmed (.stage .sync .pause) [] with elapsed := 2 })
      (fun t => (t.pos, t.elapsed, t.world.trace)) = some (.stage .sync .poll, 3, [.wait 1]) := by
  decide +kernel
/-- R154, R240: the response is popped; an ACK leads to `GET`, a NACK to the backoff. -/
theorem test_step_pop :
    shows (step (atPos .presenceConfirmed (.stage .sync .pop) [[0x79]]))
      (fun t => (t.pos, t.xok, t.world.rxq, t.world.trace))
      = some (.stage .get .tx, true, [], [.rxPop 1 1 [0x79]])
    ∧ shows (step (atPos .presenceConfirmed (.stage .sync .pop) [[0x1F]])) (fun t => (t.pos, t.xok))
      = some (.backoff, false) := by decide +kernel
/-- R130, R267: inside the detector's pulse `NRST` is low; the settling wait leads to `SYNC`. -/
theorem test_step_pulse :
    shows (step (atPos .presenceConfirmed .entry [])) (fun t => (t.pos, t.attempt, t.nrst))
      = some (.pulse .hold, 1, false)
    ∧ shows (step (atPos .presenceConfirmed (.pulse .settle) [])) (fun t => (t.pos, t.world.trace))
      = some (.stage .sync .tx, [.wait 500]) := by decide +kernel
/-- R271: after the pulse of `EXIT_BL` `MODE_ENTERED` is cleared. -/
theorem test_step_exit :
    shows (step { atPos .modeExited .level [] with bootSel := true, modeEntered := true })
      (fun t => (t.pos, t.bootSel, t.modeEntered)) = some (.pulse .low, false, true)
    ∧ shows (step { atPos .modeExited (.pulse .settle) [] with modeEntered := true })
      (fun t => (t.pos, t.modeEntered)) = some (.closing, false) := by decide +kernel

/-! ### Witnesses: states and operands that meet the hypotheses of each obligation -/

/-- HardwareResetRestoresRegistersOnly: a reset while a session runs, and the last input. -/
theorem witness_hardwareReset :
    ∃ s : State, ∃ rest, s.inputs = .rst :: rest ∧ rest = [] ∧ s.busy = true ∧ s.bootSel = true :=
  ⟨{ atPos .writing .blocks [] with inputs := [.rst], bootSel := true }, [], rfl, rfl, rfl, rfl⟩

/-- SessionBeginsOnlyWithAStart: both states, without and with a `start`. -/
theorem witness_start : (start []).st = .idle ∧ (start []).slot = none ∧ (start []).input = .none
    ∧ (atPos .done .entry []).st = .done
    ∧ ({ atPos .done .entry [] with inputs := [.start ⟨4, 5, 17, 16, 1⟩ [0x62]] } : State).inputs
        = .start ⟨4, 5, 17, 16, 1⟩ [0x62] :: [] := by decide
theorem witness_start_runs :
    shows (step { atPos .done .entry [] with inputs := [.start ⟨4, 5, 17, 16, 1⟩ [0x62]] })
      (fun t => (t.st, t.cfg.ch, t.name)) = some (.configValidated, 1, [0x62]) := by decide +kernel

/-- StartWhileBusyIsTurnedAway. -/
theorem witness_busy : (atPos .writing .blocks []).st ≠ .idle ∧ (atPos .writing .blocks []).st ≠ .done
    ∧ (atPos .writing .blocks []).slot = none := by decide

/-- ExclusiveOrFoldObeysItsLaws: a permutation, an index at the end, two different indexes. -/
theorem witness_fold : ([0x01, 0x02] : Bytes).Perm [0x02, 0x01] ∧ 1 < ([0x01, 0x02] : Bytes).length
    ∧ (0 : Nat) ≠ 1 :=
  ⟨List.Perm.swap _ _ _, by decide, by decide⟩

/-- The parameters have R6's values and meet the spec's bounds: statements with `Params.asStated`,
`Params.wf` or one row's value as a hypothesis. -/
theorem witness_parameters : par.asStated ∧ par.wf = true ∧ (start []).par = par := by
  refine ⟨?_, by decide, rfl⟩
  unfold Params.asStated
  decide

/-- DataFrameChecksumCoversIndicatorAndPayload: a payload of 256 bytes, the normative seed. -/
theorem witness_payload : (List.replicate 256 (0xAA : Byte)).length = 256
    ∧ (start []).par.lenInd = 0xFF ∧ (start []).par.pageCsumSeed = 0xFF := by decide +kernel

/-- ConfigLinesAlwaysMakesBothCalls, BootModeIsDrivenBeforeThePulse: scripted answers, both outcomes. -/
theorem witness_lines : (world []).dirOk = true :: true :: List.replicate 4 true
    ∧ shows (exec .enterBl (start [])) (·.ret) = some (.ok true)
    ∧ shows (exec .exitBl { start [] with world := { world [] with dirOk := [true, false] } }) (·.ret)
        = some (.ok false) := by decide

/-- SendReportsTheCountAccepted: a scripted count. -/
theorem witness_send : (world []).txCount = 1000 :: List.replicate 9 1000 := by decide

/-- AwaitReturnsLengthOrZeroOnTimeout: the least count and timeout, and both results. -/
theorem witness_await : 1 ≤ 1 ∧ 1 ≤ (start []).par.pollInterval
    ∧ 0 + (start []).par.pollInterval < 2 ^ 32
    ∧ shows (exec (.awaitBytes 1 0) (start [])) (·.ret) = some (.count 0)
    ∧ shows (exec (.awaitBytes 1 0) (start [[0x79]])) (·.ret) = some (.count 1) := by decide +kernel

/-- ReadExactTakesTheOldestBytes: exactly `n` bytes buffered, and one fewer. -/
theorem witness_readExact :
    ∃ s : State, s.world.rxq.length = 15 ∧ s.rsp.length = 257 ∧ 15 ≤ s.world.rxq.length
      ∧ ¬ 15 < s.world.rxq.length ∧ s.world.rxq.length < 16 :=
  ⟨{ start [] with world := { world [] with rxq := getReply } }, by decide +kernel⟩

/-- OnlySeventyNineClassifiesAsAck: a byte of each side. -/
theorem witness_classify : (0x79 : Byte) = 0x79 ∧ (0x78 : Byte) ≠ 0x79 ∧ (start []).par.ack = 0x79 := by
  decide

/-- ExchangeEndsInMismatchTimeoutOrResponse: the least and the greatest response length; its three ends. -/
theorem witness_exchange : (start []).rsp.length = 257 ∧ 1 ≤ 257 ∧ 257 ≤ 257
    ∧ (start []).par.ack = 0x79 ∧ 1 ≤ (start []).par.pollInterval
    ∧ (start []).par.timeout + (start []).par.pollInterval < 2 ^ 32
    ∧ shows (exec (.exchange [0xFF, 0x00] 257) (start [0x79 :: List.replicate 256 0x00]))
        (·.xok) = some true
    ∧ shows (exec (.exchange [0x7F] 1) (start [])) (·.lobs) = some 0
    ∧ shows (exec (.exchange [0x7F] 1) { start [] with world := { world [] with txCount := [0] } })
        (fun t => (t.txcnt, t.world.trace.length)) = some (0, 1) := by decide +kernel

/-- ResponseAtTheFirstPollDecidesTheExchange: 257 bytes in the buffer at the poll, none before. -/
theorem witness_first_poll :
    ∃ (s : State) (c : Nat) (first second : Bytes) (later : List Bytes) (counts : List Nat),
      s.rsp.length = 257 ∧ s.par.ack = 0x79 ∧ s.world.txCount = c :: counts ∧ ([0xFF, 0x00] : Bytes).length ≤ c
        ∧ s.world.arrivals = first :: second :: later
        ∧ (s.world.rxq ++ first ++ second).length ≤ s.par.rxCapacity
        ∧ 257 ≤ (s.world.rxq ++ first ++ second).length :=
  ⟨{ start [] with world := { world [] with
      txCount := [2], arrivals := [[], 0x79 :: List.replicate 256 0x00] } },
    2, [], 0x79 :: List.replicate 256 0x00, [], [], by decide +kernel⟩

/-- EraseSendsTheParameterOnlyAfterAnAck, PageWriteGatesEveryStage, PageReadIgnoresTheAddressStageResult:
each branch is taken by some state. -/
theorem witness_stages :
    shows (exec .massEraseCmd (start [[0x79]])) (·.ret) = some (.ok true)
    ∧ shows (exec .massEraseCmd (start [[0x1F]])) (·.ret) = some (.ok false)
    ∧ shows (exec .extEraseCmd (start [])) (·.ret) = some (.ok false)
    ∧ shows (exec .writeMem (start [])) (·.ret) = some (.ok false)
    ∧ shows (exec .readMem (start [])) (·.ret) = some (.ok false) := by decide +kernel

/-- CommandsKeepEveryOtherRegister, XokIsWrittenByExchangesOnly, ConfigurationIsImmutable,
NoOperationWritesTheImage, TimeAndTraceOnlyGrow, TxStreamIsTheBytesAcceptedInOrder,
OnlyRxPopRemovesReceivedBytes: an operation of each kind that answers a next state. -/
theorem witness_next : (∃ t, exec .sync (start [[0x79]]) = .next t)
    ∧ (∃ t, exec .pageWrite (start []) = .next t) ∧ (∃ t, exec .resetPulse (start []) = .next t)
    ∧ (∃ t, exec .fetchBlock shortBlock = .next t)
    ∧ (∃ t, exec (.flash ⟨4, 5, 17, 16, 1⟩ []) (start []) = .next t) :=
  ⟨⟨_, rfl⟩, ⟨_, rfl⟩, ⟨_, rfl⟩, ⟨_, rfl⟩, ⟨_, rfl⟩⟩

/-- DetectPulsesOncePerAttempt, DetectEndsAtTheFirstSuccess: one attempt and three, Sync refused, Get
refused, both ACKed in the second attempt (after one backoff). -/
theorem witness_detect : 1 ≤ (start []).par.maxAttempts ∧ (start []).par.maxAttempts ≤ 3
    ∧ shows (exec .detect { start [[], [], [], [], [0x1F]] with par := { par with maxAttempts := 1 } })
        (fun t => (t.ret, t.attempt)) = some (.ok false, 1)
    ∧ shows (exec .detect { start [[], [], [], [], [0x79]] with par := { par with maxAttempts := 1 } })
        (fun t => (t.ret, t.world.txlog)) = some (.ok false, [0x7F, 0x00, 0xFF])
    ∧ shows (exec .detect (start
          [[], [], [], [], [0x1F], [], [], [], [], [], [], [], [0x79], [], [], getReply]))
        (fun t => (t.ret, t.attempt, t.world.now)) = some (.ok true, 2, 1300) := by decide +kernel

/-- FetchBlockAcceptsOnlyTheWantedLength, FetchBlockReadsTheImageInOrder. -/
theorem witness_fetch :
    ∃ (s : State) (image : Bytes) (answers : List (Option Bytes)),
      s.world.img = Memory.ofBytes image ∧ s.world.reads = none :: answers
        ∧ s.world.imgPos = 256 * s.blk.toNat ∧ s.imgSize.toNat = image.length
        ∧ 256 * s.blk.toNat < image.length :=
  ⟨shortBlock, List.replicate 256 0xEE ++ List.replicate 44 0x2B, List.replicate 3 none, by decide +kernel⟩

/-- InvalidConfigurationFailsBeforeAnyProviderCall: V-O7 passes, V-O6 (the channel at the bound) fails. -/
theorem witness_configuration :
    (atPos .configValidated .entry []).slot = none ∧ (atPos .configValidated .entry []).input = .none
    ∧ shows (step { atPos .configValidated .entry [] with cfg := ⟨0x04, 0x05, 0x04, 0x05, 0x00⟩ })
        (·.st) = some .storageReady
    ∧ shows (step { atPos .configValidated .entry [] with cfg := ⟨0x04, 0x05, 0x11, 0x10, 0x03⟩ })
        (fun t => (t.st, t.result)) = some (.modeExited, .configurationInvalid) := by decide +kernel

/-- StorageFailureAbortsBeforeAnyLine: both answers (V-O15). -/
theorem witness_storage :
    (atPos .storageReady .entry []).slot = none ∧ (atPos .storageReady .entry []).input = .none
    ∧ shows (step (atPos .storageReady .entry [])) (·.st) = some .imageLocated
    ∧ shows (step { atPos .storageReady .entry [] with world := { world [] with mountOk := [false] } })
        (fun t => (t.st, t.result)) = some (.modeExited, .transportInitFailed) := by decide +kernel

/-- The image is open and is sized next; the provider answers `n`. -/
def sized (n : Nat) : State :=
  { atPos .imageLocated .size [] with imgOpen := true, world := { world [] with sizes := [some n] } }

/-- ImageChecksAreMadeInOrder: V-O9 to V-O14, each answer of the open and each bound of the size. -/
theorem witness_image :
    (atPos .imageLocated .entry []).undisturbed .imageLocated .entry
    ∧ (start []).result = .success ∧ (start []).par.maxImage ≤ 256 * 65535
    ∧ shows (step (atPos .imageLocated .entry [])) (fun t => (t.pos, t.imgOpen)) = some (.size, true)
    ∧ shows (step { atPos .imageLocated .entry [] with world := { world [] with openOk := [false] } })
        (fun t => (t.result, t.imgOpen)) = some (.imageNotFound, false)
    ∧ shows (step (sized 0)) (·.result) = some .imageEmpty
    ∧ shows (step (sized 1)) (fun t => (t.st, t.nblk, t.modeEntered)) = some (.modeEntered, 1, true)
    ∧ shows (step (sized 257)) (·.nblk) = some 2
    ∧ shows (step (sized 32768)) (fun t => (t.st, t.nblk)) = some (.modeEntered, 128)
    ∧ shows (step (sized 32769)) (fun t => (t.result, t.modeEntered)) = some (.imageTooLarge, false) :=
  ⟨⟨rfl, rfl, rfl, rfl⟩, by decide +kernel⟩

/-- ModeEnteredRunsEnterBl: both answers (V-O16). -/
theorem witness_enter :
    (atPos .modeEntered .entry []).undisturbed .modeEntered .entry
    ∧ shows (exec .enterBl (atPos .modeEntered .entry [])) (fun t => (t.ret, t.bootSel))
        = some (.ok true, true)
    ∧ shows (exec .enterBl { atPos .modeEntered .entry [] with
          world := { world [] with dirOk := [true, false] } }) (·.ret) = some (.ok false)
    ∧ shows (step { atPos .modeEntered (.dirBoot false) [] with modeEntered := true })
        (fun t => (t.st, t.result, t.modeEntered)) = some (.modeExited, .unknown, true) :=
  ⟨⟨rfl, rfl, rfl, rfl⟩, by decide +kernel⟩

/-- UartIsConfiguredThenGivenItsPins: both answers of both calls (V-O17). -/
theorem witness_uart :
    (atPos .transportReady .entry []).undisturbed .transportReady .entry
    ∧ shows (step { atPos .transportReady .entry [] with world := { world [] with confOk := [false] } })
        (·.pos) = some (.pins false)
    ∧ shows (step (atPos .transportReady .entry [])) (fun t => (t.pos, t.world.trace))
        = some (.pins true, [.uartConfigure 1 ⟨115200, 8, .even, 1⟩ true])
    ∧ shows (step (atPos .transportReady (.pins true) [])) (·.st) = some .presenceConfirmed
    ∧ shows (step (atPos .transportReady (.pins false) []))
        (fun t => (t.result, t.world.trace)) = some (.transportInitFailed, [.uartSetPins 1 0x11 0x10 true]) :=
  ⟨⟨rfl, rfl, rfl, rfl⟩, by decide +kernel⟩

/-- PresenceAndIdentificationDecideTheirFailures: each position with each answer. -/
theorem witness_presence :
    (atPos .presenceConfirmed .entry []).undisturbed .presenceConfirmed .entry
    ∧ (atPos .presenceConfirmed (.stage .getver .tx) []).undisturbed .presenceConfirmed (.stage .getver .tx)
    ∧ (atPos .presenceConfirmed (.stage .getid .tx) []).undisturbed .presenceConfirmed (.stage .getid .tx)
    ∧ (start []).result = .success
    ∧ shows (exec .detect (atPos .presenceConfirmed .entry [])) (·.ret) = some (.ok false)
    ∧ shows (exec .detect (atPos .presenceConfirmed .entry [[], [], [], [], [0x79], [], [], getReply]))
        (·.ret) = some (.ok true)
    ∧ shows (exec .getver (atPos .presenceConfirmed (.stage .getver .tx) [])) (·.ret) = some (.ok false)
    ∧ shows (exec .getid (atPos .presenceConfirmed (.stage .getid .tx) [[0x79, 0x01, 0x04, 0x10, 0x79]]))
        (·.ret) = some (.ok true)
    ∧ shows (step (atPos .presenceConfirmed (.stage .get .pop) [getReply])) (·.st) = some .erased
    ∧ shows (step { atPos .presenceConfirmed (.stage .get .pop) [getReply] with
        par := { par with identPhase := true } }) (·.pos) = some (.stage .getver .tx)
    ∧ shows (step { atPos .presenceConfirmed (.stage .get .pop) [0x1F :: getReply.tail] with attempt := 3 })
        (·.result) = some .targetNotFound
    ∧ shows (step (atPos .presenceConfirmed (.stage .getid .pop) [[0x1F, 0, 0, 0, 0]])) (·.result)
        = some .getIdFailed :=
  ⟨⟨rfl, rfl, rfl, rfl⟩, ⟨rfl, rfl, rfl, rfl⟩, ⟨rfl, rfl, rfl, rfl⟩, by decide +kernel⟩

/-- EraseResultsAreRecordedNotTested: both positions, both answers (R268's example: 10). -/
theorem witness_erase :
    (atPos .erased .entry []).undisturbed .erased .entry
    ∧ (atPos .erased (.stage .extEraseCmd .tx) []).undisturbed .erased (.stage .extEraseCmd .tx)
    ∧ shows (exec .massErase (atPos .erased .entry [[0x1F]])) (·.ret) = some (.ok false)
    ∧ shows (exec .extErase (atPos .erased .entry [[0x79], [], [], [0x79]])) (·.ret) = some (.ok true)
    ∧ shows (step (atPos .erased (.stage .massEraseCmd .pop) [[0x1F]]))
        (fun t => (t.pos, t.eraseStat)) = some (.stage .extEraseCmd .tx, 0b00)
    ∧ shows (step (atPos .erased (.stage .extEraseParam .pop) [[0x79]])) (fun t => (t.st, t.eraseStat))
        = some (.writing, 0b10) :=
  ⟨⟨rfl, rfl, rfl, rfl⟩, ⟨rfl, rfl, rfl, rfl⟩, by decide +kernel⟩

/-- BlockPhasesSeedAndFetch: each clause; `BLK` just below and at `NBLK`. -/
theorem witness_blocks :
    (atPos .writing .entry []).slot = none ∧ (atPos .writing .entry []).input = .none
    ∧ shows (step { atPos .writing .entry [] with blk := 7 }) (fun t => (t.pos, t.blk)) = some (.blocks, 0)
    ∧ shows (step { atPos .reading .entry [] with world := { world [] with imgPos := 300 } })
        (fun t => (t.pos, t.world.imgPos)) = some (.blocks, 0)
    ∧ shows (step { shortBlock with st := .writing, pos := .blocks, nblk := 2 }) (·.pos)
        = some (.stage .writeMem .tx)
    ∧ shows (step { shortBlock with st := .reading, pos := .blocks, nblk := 2, imgSize := 301 })
        (·.result) = some .imageUnreadable
    ∧ shows (step { shortBlock with st := .writing, pos := .blocks, nblk := 1 }) (·.st) = some .reading
    ∧ shows (step { shortBlock with st := .reading, pos := .blocks, nblk := 1 }) (·.st)
        = some .modeExited := by decide +kernel

/-- PagesAdvanceOnlyOnSuccess: success and failure of both phases; the carry at a 64 KiB boundary. -/
theorem witness_pages :
    (atPos .writing (.stage .writeMem .tx) []).undisturbed .writing (.stage .writeMem .tx)
    ∧ (atPos .reading (.stage .readMem .tx) []).undisturbed .reading (.stage .readMem .tx)
    ∧ shows (exec .pageWrite (atPos .writing (.stage .writeMem .tx) [[0x79], [], [], [0x79], [], [], [0x79]]))
        (·.ret) = some (.ok true)
    ∧ shows (exec .pageWrite (atPos .writing (.stage .writeMem .tx) [[0x1F]])) (·.ret) = some (.ok false)
    ∧ shows (exec .pageRead (atPos .reading (.stage .readMem .tx) [[0x1F]])) (·.ret) = some (.ok false)
    ∧ shows (step { atPos .writing (.stage .pageData .pop) [[0x79]] with addr := ⟨8, 0, 0xFF, 0⟩ })
        (fun t => (t.pos, t.addr, t.blk)) = some (.blocks, ⟨8, 1, 0, 0⟩, 1)
    ∧ shows (step (atPos .writing (.stage .writeAddr .pop) [[0x1F]])) (fun t => (t.result, t.blk))
        = some (.writeFailed, 0)
    ∧ shows (step (atPos .reading (.stage .readAddr .pop) [[0x1F]])) (·.pos)
        = some (.stage .pageLen .tx)
    ∧ shows (step (atPos .reading (.stage .pageLen .pop) [0x1F :: List.replicate 256 0]))
        (fun t => (t.result, t.blk)) = some (.readFailed, 0) :=
  ⟨⟨rfl, rfl, rfl, rfl⟩, ⟨rfl, rfl, rfl, rfl⟩, by decide +kernel⟩

/-- CleanupUndoesWhatWasBegun: each clause (V-O22). -/
theorem witness_cleanup :
    (atPos .modeExited .entry []).undisturbed .modeExited .entry
    ∧ (atPos .modeExited .closing []).undisturbed .modeExited .closing
    ∧ shows (step { atPos .modeExited .entry [] with modeEntered := true }) (fun t => (t.pos, t.world.trace))
        = some (.dirBoot true, [.setDir .reset 4 true])
    ∧ shows (step (atPos .modeExited .entry [])) (fun t => (t.pos, t.world.trace)) = some (.closing, [])
    ∧ shows (step { atPos .modeExited .closing [] with imgOpen := true })
        (fun t => (t.st, t.imgOpen, t.world.trace)) = some (.modeExited, false, [.stoClose])
    ∧ shows (step { atPos .modeExited .closing [] with result := .writeFailed })
        (fun t => (t.st, t.world.trace)) = some (.done, [.result .writeFailed]) :=
  ⟨⟨rfl, rfl, rfl, rfl⟩, ⟨rfl, rfl, rfl, rfl⟩, by decide +kernel⟩

/-- SequencingStateNeverGoesBack, FirstFailureWins, ConfigurationIsImmutable, NoOperationWritesTheImage,
TimeAndTraceOnlyGrow, TxStreamIsTheBytesAcceptedInOrder, OnlyRxPopRemovesReceivedBytes: a step of a session,
at a position of its state; a failure recorded and one not. -/
theorem witness_sequence :
    legalPos .reading (.stage .pageLen .pop) = true
    ∧ (atPos .reading (.stage .pageLen .pop) []).slot = none
    ∧ (atPos .reading (.stage .pageLen .pop) []).input = .none
    ∧ (∃ t, step (atPos .reading (.stage .pageLen .pop) []) = .next t)
    ∧ shows (step { atPos .reading (.stage .readMem .pop) [[0x1F]] with result := .writeFailed }) (·.result)
        = some .writeFailed :=
  ⟨rfl, rfl, rfl, ⟨_, rfl⟩, by decide +kernel⟩

/-- The response of `PAGE_READ` is in `RXQ` and is popped next. -/
def readBack (data : Byte) : State :=
  { atPos .reading (.stage .pageLen .pop) [] with
    world := { world [] with rxq := 0x79 :: List.replicate 256 data } }

/-- ReadBackBytesSteerNothing: two read-backs that differ in their data; two states that differ in `RSP`. -/
theorem witness_readBack : (readBack 0).slot = none ∧ (readBack 0).input = .none
    ∧ (readBack 0).par.rspPage = 257 ∧ (readBack 0).rsp.length = 257
    ∧ (readBack 0).world.rxq.length = 257
    ∧ (readBack 0xFF).world.rxq.length = (readBack 0).world.rxq.length
    ∧ (readBack 0xFF).world.rxq.headD 0 = (readBack 0).world.rxq.headD 0
    ∧ (readBack 0xFF).world.rxq.drop 257 = (readBack 0).world.rxq.drop 257
    ∧ (readBack 0xFF).world.rxq ≠ (readBack 0).world.rxq
    ∧ shows (step (readBack 0xFF)) (fun t => (t.pos, t.blk, t.rsp)) =
        some (.blocks, 1, 0x79 :: List.replicate 256 0xFF)
    ∧ SameButResponse (start []) { start [] with rsp := List.replicate 257 0x79 } := by
  refine ⟨rfl, rfl, rfl, ?_⟩
  refine ⟨by decide +kernel, by decide +kernel, by decide +kernel, by decide +kernel, by decide +kernel,
    by decide +kernel, by decide +kernel, rfl⟩

/-- A session in the write phase, one block done of two. -/
def midSession : State :=
  { shortBlock with
    st := .writing, pos := .blocks, nblk := 2, addr := ⟨0x08, 0x00, 0x01, 0x00⟩
    imgOpen := true, modeEntered := true, bootSel := true }

/-- EveryStepKeepsTheSessionInvariant, EveryStepKeepsTheBlockAddress: a state the invariants hold of, that
steps. -/
theorem witness_invariant : midSession.sessionOk ∧ midSession.addressOk
    ∧ ∃ t, step midSession = .next t := by
  refine ⟨⟨rfl, ?_, rfl, rfl, fun _ _ => rfl, fun _ => rfl, fun _ => rfl, fun _ => ⟨.inr (.inl rfl), rfl⟩,
    fun _ => .inr (.inr (.inl rfl)), fun _ => rfl, fun h => ?_, fun _ _ => by decide, fun _ _ => by decide,
    fun c h => nomatch (show Pos.blocks = .stage c .pop from h)⟩, fun _ _ => by decide, ⟨_, rfl⟩⟩
  · unfold State.sized
    decide +kernel
  · exact absurd h (by decide)

/-- FlashAlwaysReachesDone, FlashClosesTheImageExactlyWhenOpened, FlashRestoresTheLines,
FlashRejectsAnInvalidConfigurationUntouched, StepwiseSessionRefinesFlash. -/
theorem witness_flash : (start []).st = .idle ∧ (start []).slot = none ∧ (start []).inputs = []
    ∧ (start []).par.wf = true ∧ (start []).bootSel = false ∧ (start []).nrst = true
    ∧ (start []).world.dirOk = true :: true :: true :: true :: [true, true]
    ∧ (3 : Byte).toNat = (start []).par.uartChannels ∧ (start []).par.unset = 0xFF := by decide

/-- DecodeOfEncodeIsTheRow, EncodeOfDecodeIsTheBytes, TransmittedRowsSendTheirEncoding. -/
theorem witness_encoding :
    (Instr.loadAddr ⟨0x08, 0x00, 0x01, 0x00⟩).wf = true
    ∧ encode par (.loadAddr ⟨0x08, 0x00, 0x01, 0x00⟩) = some [0x08, 0x00, 0x01, 0x00, 0x09]
    ∧ decode par .afterReadMem [0xFF, 0x00] = .ok .pageReadLen
    ∧ (Instr.loadAddr ⟨0x08, 0x00, 0x01, 0x00⟩ ≠ .ack) := by decide

/-- StepRunsThePlacedOperation: an operation, bytes that decode, bytes that do not, and a table word. -/
theorem witness_placed :
    (start []).input ≠ .rst ∧ (start []).par = par ∧ (start []).par.pageCsumSeed = 0xFF
    ∧ decode (start []).par .afterMassErase [0x7F] = .ok .sync
    ∧ decode (start []).par .afterMassErase [0x1F] = .error .unknownByte
    ∧ decodeTableWord 16 0x31CE = some .writeMem
    ∧ shows (step ((start [[0x79]]).withFetchWord 16 0x31CE)) (fun t => (t.ret, t.world.txlog))
        = some (.ok true, [0x31, 0xCE])
    ∧ shows (step { start [] with slot := some (.oper .incAddr) }) (fun t => (t.addr, t.slot))
        = some (⟨0, 0, 1, 0⟩, none) := by decide +kernel

end Sys2Proof.Tests
end

section
/-!
PROOFS. What one step can do, said once: the event of a stage (`stageStep_cases`), the move of the sequence
from each position of a state's own work (`seqStep_move`), and the step of the machine (`step_next_cases`).
-/
namespace Sys2Proof.Machine

/-! ### What an event leaves alone -/

/-- No event writes the image (R62). -/
theorem worldRel_img (cap : Nat) : WorldRel cap fun w v => v.img = w.img where
  refl _ := rfl
  trans _ _ _ a b := b.trans a
  setDir _ _ _ := rfl
  setLevel _ _ _ _ := rfl
  wait _ _ := rfl
  uartConfigure _ _ _ := rfl
  uartSetPins _ _ := rfl
  send _ _ _ := rfl
  rxLen _ _ := rfl
  rxPop _ _ _ := rfl
  stoMount _ := rfl
  stoOpen _ _ := rfl
  stoSize _ := rfl
  stoRead _ _ := rfl
  stoRewind _ := rfl
  stoClose _ := rfl
  result _ _ := rfl

/-- What the event of a stage does before the sequence moves on: only registers of a command are written, and
`RSP` keeps its size. -/
structure StageEvent (s u : State) : Prop where
  only : OnlyCommand s u
  img : u.world.img = s.world.img
  rsp : s.rsp.length = Config.rspBytes → u.rsp.length = Config.rspBytes

/-- The event of a stage, and then registers of a command. -/
theorem StageEvent.regs {s u v : State} (a : StageEvent s u) (only : OnlyCommand u v)
    (img : v.world.img = u.world.img) (rsp : v.rsp = u.rsp) : StageEvent s v :=
  ⟨a.only.trans only, img.trans a.img, fun h => rsp ▸ a.rsp h⟩

/-- A poll that ends with a response has seen it in the buffer. -/
theorem poll_buffered (s : State) (n T : Nat) {L : Nat} (h : (s.poll n T).2 = some L) (hL : L ≠ 0) :
    n ≤ (s.poll n T).1.world.rxq.length := by
  obtain ⟨_, k, -, len, -, -, -, -, -, -, ends⟩ := poll_effect s n T
  rcases ends with ⟨hn, -⟩ | ⟨-, -, h0, -⟩ | ⟨-, -, h0⟩
  · exact len ▸ hn
  · exact absurd (Option.some.inj (h.symm.trans h0)) hL
  · cases h.symm.trans h0

/-- Everything an event of a stage can do: the stage goes on, at a pop only with its response buffered, or it
returns. -/
theorem stageStep_cases (s : State) (c : Stage) (x : ExchangePos) : ∃ u, StageEvent s u ∧
    ((∃ y, (y = .pop → c.response s.par ≤ u.world.rxq.length) ∧ s.stageStep c x = u.goPos (.stage c y))
      ∨ ∃ ok, s.stageStep c x = u.stageDone c ok) := by
  cases x with
  | tx =>
    have sent : StageEvent s ((s.stageFrame c).1.send (s.stageFrame c).2).1 := by
      refine ⟨(stageFrame_frame s c).trans (send_frame _ _).command, ?_, fun h => ?_⟩
      · cases c <;> rfl
      · cases c <;> exact h
    show ∃ u, StageEvent s u ∧ ((∃ y, _ ∧ s.stageTx c = _) ∨ ∃ ok, s.stageTx c = _)
    unfold State.stageTx
    dsimp only
    generalize (s.stageFrame c).1.send (s.stageFrame c).2 = r at sent ⊢
    split
    · exact ⟨r.1.setXok false, sent.regs rfl rfl rfl, .inr ⟨false, rfl⟩⟩
    · exact ⟨{ r.1 with elapsed := 0 }, sent.regs rfl rfl rfl, .inl ⟨.poll, by simp, rfl⟩⟩
  | poll =>
    have polled : StageEvent s (s.poll (c.response s.par) s.par.timeout).1 :=
      ⟨(poll_frame s _ _).command, (poll_related (worldRel_img s.cap) _ _).2, fun h => by rw [poll_rsp, h]⟩
    have seen := fun L => poll_buffered s (c.response s.par) s.par.timeout (L := L)
    show ∃ u, StageEvent s u ∧ ((∃ y, _ ∧ s.stagePoll c = _) ∨ ∃ ok, s.stagePoll c = _)
    unfold State.stagePoll
    dsimp only
    generalize s.poll (c.response s.par) s.par.timeout = r at polled seen ⊢
    split
    · exact ⟨r.1, polled, .inl ⟨.pause, by simp, rfl⟩⟩
    · next L hr =>
      split
      · exact ⟨r.1.setXok false, polled.regs rfl rfl rfl, .inr ⟨false, rfl⟩⟩
      · next hL => exact ⟨r.1, polled, .inl ⟨.pop, fun _ => seen L hr hL, rfl⟩⟩
  | pause => exact ⟨_, ⟨(pause_frame s).command, rfl, fun h => h⟩, .inl ⟨.poll, by simp, rfl⟩⟩
  | pop =>
    exact ⟨_, ⟨(takeResponse_frame s (c.response s.par)).command, rfl,
      readExact_rsp_length s (c.response s.par)⟩, .inr ⟨_, rfl⟩⟩

/-- `FETCH_BLOCK` keeps the sizes and reads its block without writing the image. -/
theorem fetchBlock_sized (s : State) (h : s.sized) : s.fetchBlock.1.sized := by
  obtain ⟨buf, rsp, img⟩ := h
  have world := (fetchBlock_related (worldRel_img s.cap)).2
  obtain ⟨-, -, -, -, -, par⟩ := fetchBlock_untouched s
  refine ⟨?_, ?_, ?_⟩
  · rw [par]; exact fetchBlock_buf_length s buf
  · rw [fetchBlock_frame]; exact rsp
  · rw [world]; exact img

/-! ### After an operation -/

theorem bootDone_modeEntered {s : State} (e : s.st = .modeEntered) (ok : Bool) :
    s.bootDone ok = if ok then s.goto .transportReady else s.raiseFail .unknown := by
  simp [State.bootDone, e]

theorem bootDone_modeExited {s : State} (e : s.st = .modeExited) (ok : Bool) :
    s.bootDone ok = ({ s with modeEntered := false } : State).goPos .closing := by
  simp [State.bootDone, e]

theorem pulseDone_boot {s : State} (st : s.st = .modeEntered ∨ s.st = .modeExited) :
    s.pulseDone = s.bootDone true := by
  rcases st with e | e <;> simp [State.pulseDone, e]

theorem pulseDone_presence {s : State} (e : s.st = .presenceConfirmed) : s.pulseDone = s.issue .sync := by
  simp [State.pulseDone, e]

/-! ### What the sequence does next -/

/-- In Idle and Done the sequence rests (R272). -/
theorem seqStep_of_not_busy {s : State} (idle : s.busy = false) : s.seqStep = s := by
  rcases (busy_eq_false s).mp idle with st | st <;> simp [State.seqStep, st]

/-- What one step of the sequence does in each state at each position of the state's own work. -/
inductive SeqMove (s : State) : State → Prop
  | rest (st : s.st = .idle ∨ s.st = .done) : SeqMove s s
  | validate (st : s.st = .configValidated) : SeqMove s s.validateConfig
  | mount (st : s.st = .storageReady) : SeqMove s s.mountStorage
  | openImage (st : s.st = .imageLocated) (pos : s.pos = .entry) : SeqMove s s.openImage
  | sizeImage (st : s.st = .imageLocated) (pos : s.pos = .size) : SeqMove s s.sizeImage
  | enterBl (st : s.st = .modeEntered) (pos : s.pos = .entry ∨ s.pos.inBootOp = true) :
      SeqMove s (s.bootStep s.pos)
  | configureUart (st : s.st = .transportReady) (pos : s.pos = .entry) : SeqMove s s.configureUart
  | setPins (ok1 : Bool) (st : s.st = .transportReady) (pos : s.pos = .pins ok1) : SeqMove s (s.setPins ok1)
  | firstAttempt (st : s.st = .presenceConfirmed) (pos : s.pos = .entry) :
      SeqMove s ({ s with attempt := 0 } : State).startAttempt
  | nextAttempt (st : s.st = .presenceConfirmed) (pos : s.pos = .pulse .low) : SeqMove s s.startAttempt
  | pulse (q : PulsePos) (later : q ≠ .low) (st : s.st = .presenceConfirmed) (pos : s.pos = .pulse q) :
      SeqMove s (s.pulseStep q)
  | backOff (st : s.st = .presenceConfirmed) (pos : s.pos = .backoff) : SeqMove s s.backOff
  | stage (c : Stage) (x : ExchangePos) (st : s.st = c.home) (pos : s.pos = .stage c x) :
      SeqMove s (s.stageStep c x)
  | eraseAll (st : s.st = .erased) (pos : s.pos = .entry) : SeqMove s (s.stageStep .massEraseCmd .tx)
  | seedWriting (st : s.st = .writing) (pos : s.pos = .entry) : SeqMove s s.seedBlocks
  | seedReading (st : s.st = .reading) (pos : s.pos = .entry) : SeqMove s s.seedReading
  | nextWriting (st : s.st = .writing) (pos : s.pos = .blocks) : SeqMove s (s.nextBlock .writeMem .reading)
  | nextReading (st : s.st = .reading) (pos : s.pos = .blocks) :
      SeqMove s (s.nextBlock .readMem .modeExited)
  | startCleanup (st : s.st = .modeExited) (pos : s.pos = .entry) : SeqMove s s.startCleanup
  | exitBl (st : s.st = .modeExited) (pos : s.pos.inBootOp = true) : SeqMove s (s.bootStep s.pos)
  | cleanupImage (st : s.st = .modeExited) (pos : s.pos = .closing) : SeqMove s s.cleanupImage

/-- Inside `ENTER_BL` and `EXIT_BL` the next event is theirs. -/
theorem seqMove_of_inBootOp {s : State} (st : s.st = .modeEntered ∨ s.st = .modeExited)
    (pos : s.pos.inBootOp = true) : SeqMove s s.seqStep := by
  have e : s.seqStep = s.bootStep s.pos := by
    cases p : s.pos with
    | dirBoot | level | pulse => rcases st with st | st <;> simp [State.seqStep, st, p]
    | _ => rw [p] at pos; cases pos
  rw [e]
  rcases st with st | st
  exacts [.enterBl st (.inr pos), .exitBl st pos]

/-- The start of each state's work. -/
theorem seqMove_of_entry {s : State} (p : s.pos = .entry) : SeqMove s s.seqStep := by
  cases st : s.st with
  | idle => simpa [State.seqStep, st] using SeqMove.rest (.inl st)
  | configValidated => simpa [State.seqStep, st] using SeqMove.validate st
  | storageReady => simpa [State.seqStep, st] using SeqMove.mount st
  | imageLocated => simpa [State.seqStep, st, p] using SeqMove.openImage st p
  | modeEntered => simpa [State.seqStep, st] using SeqMove.enterBl st (.inl p)
  | transportReady => simpa [State.seqStep, st, p] using SeqMove.configureUart st p
  | presenceConfirmed => simpa [State.seqStep, st, p] using SeqMove.firstAttempt st p
  | erased =>
    have e : s.seqStep = s.stageStep .massEraseCmd .tx := by simp [State.seqStep, st, p, State.stageStep]
    exact e ▸ SeqMove.eraseAll st p
  | writing => simpa [State.seqStep, st, p] using SeqMove.seedWriting st p
  | reading => simpa [State.seqStep, st, p] using SeqMove.seedReading st p
  | modeExited => simpa [State.seqStep, st, p] using SeqMove.startCleanup st p
  | done => simpa [State.seqStep, st] using SeqMove.rest (.inr st)

/-- From a position of the state's own work the sequence makes one of these moves. -/
theorem seqStep_move (s : State) (legal : legalPos s.st s.pos = true) : SeqMove s s.seqStep := by
  cases p : s.pos with
  | entry => exact seqMove_of_entry p
  | size =>
    have st : s.st = .imageLocated := by simpa [p, legalPos] using legal
    simpa [State.seqStep, st, p] using SeqMove.sizeImage st p
  | dirBoot ok1 => exact seqMove_of_inBootOp (by simpa [p, legalPos] using legal) (by rw [p]; rfl)
  | level => exact seqMove_of_inBootOp (by simpa [p, legalPos] using legal) (by rw [p]; rfl)
  | pulse q =>
    rcases (show (s.st = .modeEntered ∨ s.st = .presenceConfirmed) ∨ s.st = .modeExited by
      simpa [p, legalPos] using legal) with (st | st) | st
    · exact seqMove_of_inBootOp (.inl st) (by rw [p]; rfl)
    · cases q with
      | low => simpa [State.seqStep, st, p] using SeqMove.nextAttempt st p
      | hold | high | settle => simpa [State.seqStep, st, p] using SeqMove.pulse _ (by simp) st p
    · exact seqMove_of_inBootOp (.inr st) (by rw [p]; rfl)
  | pins ok1 =>
    have st : s.st = .transportReady := by simpa [p, legalPos] using legal
    simpa [State.seqStep, st, p] using SeqMove.setPins ok1 st p
  | stage c x =>
    have st : s.st = c.home := by simpa [p, legalPos] using legal
    rw [seqStep_stage s c x st p]
    exact .stage c x st p
  | backoff =>
    have st : s.st = .presenceConfirmed := by simpa [p, legalPos] using legal
    simpa [State.seqStep, st, p] using SeqMove.backOff st p
  | blocks =>
    rcases (show s.st = .writing ∨ s.st = .reading by simpa [p, legalPos] using legal) with st | st
    · simpa [State.seqStep, st, p] using SeqMove.nextWriting st p
    · simpa [State.seqStep, st, p] using SeqMove.nextReading st p
  | closing =>
    have st : s.st = .modeExited := by simpa [p, legalPos] using legal
    simpa [State.seqStep, st, p] using SeqMove.cleanupImage st p

/-! ### What a step of the machine does -/

/-- Everything a step that answers a next state does, with or without a placed operation. -/
theorem step_next_cases {s t : State} (e : step s = .next t) :
    (∃ i, exec i s.takeSlot = .next t) ∨ t = s.popInput.hwReset
      ∨ (∃ c nm, t = s.popInput.startSession c nm) ∨ t = s.popInput.seqStep := by
  cases slot : s.slot with
  | none =>
    obtain ⟨-, r⟩ | ⟨c, nm, -, -, r⟩ | ⟨-, r⟩ := step_cases s slot <;> cases r.symm.trans e
    exacts [.inr (.inl rfl), .inr (.inr (.inl ⟨c, nm, rfl⟩)), .inr (.inr (.inr rfl))]
  | some placed =>
    by_cases reset : s.input = .rst
    · cases (step_reset s reset).symm.trans e
      exact .inr (.inl rfl)
    · refine .inl ?_
      cases placed with
      | oper i => exact ⟨i, by simpa [step, select, slot, reset] using e⟩
      | frame ctx bs =>
        cases d : decode s.par ctx bs with
        | ok i => exact ⟨i, by simpa [step, select, slot, reset, d] using e⟩
        | error why => simp [step, select, slot, d] at e

end Sys2Proof.Machine
end

section
/-!
PROOFS. The session invariant (spec/10_state.md R21, R25, spec/60_exceptions.md R315). The states and
positions of a session fall into groups: outside boot mode with nothing to clean up, the image open and not
yet sized, ModeEntered, bootloader mode, and the cleanup. For each group one lemma says from what the invariant
follows (`sessionOk_of_…`, `State.engaged.sessionOk`), and each event is led back to one of them.
-/
namespace Sys2Proof.Machine

/-! ### Outside boot mode, and the cleanup -/

/-- The states in which boot mode is not entered and no cleanup is due. -/
def St.outside : St → Bool
  | .idle | .configValidated | .storageReady | .imageLocated | .done => true
  | _ => false

theorem St.outside_ne {st : St} (out : st.outside = true) :
    st ≠ .modeEntered ∧ st.inBootloader = false ∧ st ≠ .modeExited ∧ st ≠ .writing ∧ st ≠ .reading := by
  cases st with
  | idle | configValidated | storageReady | imageLocated | done => simp [St.inBootloader]
  | _ => cases out

/-- Outside, at the start of the state's work: both flags are clear. -/
theorem sessionOk_of_outside {t : State} (slot : t.slot = none) (sized : t.sized)
    (out : t.st.outside = true) (entry : t.pos = .entry) (nrst : t.nrst = true)
    (success : t.st ≠ .done → t.result = .success) (closed : t.imgOpen = false)
    (left : t.modeEntered = false) : t.sessionOk := by
  obtain ⟨notEntered, notIn, notExited, notWriting, notReading⟩ := St.outside_ne out
  exact {
    noSlot := slot
    sized := sized
    legal := by rw [entry]; rfl
    nrst := by rw [nrst, entry]; rfl
    noFailure := fun _ => success
    opened := fun h => by simp [entry, notEntered, notIn] at h
    entered := fun h => by simp [notEntered, notIn, notExited] at h
    mode := fun h => by simp [left] at h
    image := fun h => by simp [closed] at h
    bootHigh := fun h => by simp [notEntered, notIn] at h
    bootLow := fun h => absurd h notExited
    bound := fun h => by simp [notWriting, notReading] at h
    inside := fun h => by simp [notWriting, notReading] at h
    buffered := fun c h => by simp [entry] at h }

/-- What the invariant says outside, at the start of the state's work. -/
theorem State.sessionOk.outside {s : State} (h : s.sessionOk) (out : s.st.outside = true)
    (entry : s.pos = .entry) : s.nrst = true ∧ s.imgOpen = false ∧ s.modeEntered = false := by
  obtain ⟨notEntered, notIn, notExited, -, -⟩ := St.outside_ne out
  refine ⟨by rw [h.nrst, entry]; rfl, Bool.eq_false_iff.mpr fun o => ?_, Bool.eq_false_iff.mpr fun o => ?_⟩
  · simpa [entry, notEntered, notIn, notExited] using h.image o
  · simpa [notEntered, notIn, notExited] using (h.mode o).1

/-- The only position of a state whose work is a single step, or none. -/
theorem legalPos_single {st : St} {p : Pos} (legal : legalPos st p = true)
    (single : st = .idle ∨ st = .configValidated ∨ st = .storageReady ∨ st = .done) : p = .entry := by
  cases p with
  | entry => rfl
  | stage c x =>
    obtain rfl : st = c.home := beq_iff_eq.mp legal
    cases c <;> simp [Stage.home] at single
  | _ => rcases single with rfl | rfl | rfl | rfl <;> cases legal

/-- In the cleanup: `MODE_ENTERED` is 1 only up to the end of the boot-mode exit, with the image open. -/
theorem sessionOk_of_cleanup {t : State} (slot : t.slot = none) (sized : t.sized) (st : t.st = .modeExited)
    (legal : legalPos .modeExited t.pos = true) (nrst : t.nrst = !t.pos.resetHeld)
    (inOp : t.pos.inBootOp = true → t.modeEntered = true)
    (mode : t.modeEntered = true → t.pos ≠ .closing ∧ t.imgOpen = true)
    (low : (∃ q, t.pos = .pulse q) → t.bootSel = false) : t.sessionOk where
  noSlot := slot
  sized := sized
  legal := by rw [st]; exact legal
  nrst := nrst
  noFailure h := absurd st h
  opened h := by simp [st, St.inBootloader] at h
  entered h := inOp (by simpa [st, St.inBootloader] using h)
  mode h := ⟨.inr (.inr ⟨st, (mode h).1⟩), (mode h).2⟩
  image _ := .inr (.inr (.inr st))
  bootHigh h := by simp [st, St.inBootloader] at h
  bootLow _ := low
  bound h := by simp [st] at h
  inside h := by simp [st] at h
  buffered c h := by rw [h] at legal; cases c <;> cases legal

/-- At the start of ModeExited. -/
theorem sessionOk_of_abort {t : State} (slot : t.slot = none) (sized : t.sized) (st : t.st = .modeExited)
    (entry : t.pos = .entry) (nrst : t.nrst = true) (mode : t.modeEntered = true → t.imgOpen = true) :
    t.sessionOk :=
  sessionOk_of_cleanup slot sized st (by rw [entry]; rfl) (by rw [nrst, entry]; rfl)
    (fun h => by simp [entry, Pos.inBootOp] at h) (fun h => ⟨by simp [entry], mode h⟩)
    (fun h => by simp [entry] at h)

/-- Away from a pulse that holds it the reset line is high (R130). -/
theorem State.sessionOk.nrstHigh {s : State} (h : s.sessionOk) {p : Pos} (pos : s.pos = p)
    (free : p.resetHeld = false) : s.nrst = true := by rw [h.nrst, pos, free]; rfl

theorem State.sessionOk.popInput {s : State} (h : s.sessionOk) : s.popInput.sessionOk := { h with }

/-! ### From the start to the sized image (R262 to R264) -/

theorem validateConfig_sessionOk {s : State} (h : s.sessionOk) (st : s.st = .configValidated) :
    s.validateConfig.sessionOk := by
  have success := h.noFailure (by simp [st]) (by simp [st])
  obtain ⟨nrst, closed, left⟩ := h.outside (by rw [st]; rfl) (legalPos_single h.legal (.inr (.inl st)))
  unfold State.validateConfig
  split
  · exact sessionOk_of_outside h.noSlot h.sized rfl rfl nrst (fun _ => success) closed left
  · exact sessionOk_of_abort h.noSlot h.sized rfl rfl nrst (by simp [left])

theorem mountStorage_sessionOk {s : State} (h : s.sessionOk) (st : s.st = .storageReady) :
    s.mountStorage.sessionOk := by
  have success := h.noFailure (by simp [st]) (by simp [st])
  obtain ⟨nrst, closed, left⟩ :=
    h.outside (by rw [st]; rfl) (legalPos_single h.legal (.inr (.inr (.inl st))))
  unfold State.mountStorage
  dsimp only
  split
  · exact sessionOk_of_outside h.noSlot h.sized rfl rfl nrst (fun _ => success) closed left
  · exact sessionOk_of_abort h.noSlot h.sized rfl rfl nrst (by simp [left])

/-- ImageLocated with the image open and not yet sized. -/
theorem sessionOk_of_opened {t : State} (slot : t.slot = none) (sized : t.sized) (st : t.st = .imageLocated)
    (pos : t.pos = .size) (nrst : t.nrst = true) (success : t.result = .success)
    (opened : t.imgOpen = true) (left : t.modeEntered = false) : t.sessionOk where
  noSlot := slot
  sized := sized
  legal := by rw [st, pos]; rfl
  nrst := by rw [nrst, pos]; rfl
  noFailure _ _ := success
  opened _ := opened
  entered h := by simp [st, St.inBootloader] at h
  mode h := by simp [left] at h
  image _ := .inl ⟨st, pos⟩
  bootHigh h := by simp [st, St.inBootloader] at h
  bootLow h := by simp [st] at h
  bound h := by simp [st] at h
  inside h := by simp [st] at h
  buffered c h := by simp [pos] at h

theorem openImage_sessionOk {s : State} (h : s.sessionOk) (st : s.st = .imageLocated)
    (entry : s.pos = .entry) : s.openImage.sessionOk := by
  have success := h.noFailure (by simp [st]) (by simp [st])
  obtain ⟨nrst, closed, left⟩ := h.outside (by rw [st]; rfl) entry
  unfold State.openImage
  dsimp only
  split
  · exact sessionOk_of_opened h.noSlot h.sized st rfl nrst success rfl left
  · exact sessionOk_of_abort h.noSlot h.sized rfl rfl nrst (by simp [left])

/-! ### Boot mode (R130 to R133, R265, R271) -/

/-- ModeEntered, at each of its positions: the image is open, and `BOOT_SEL` is high in the pulse. -/
theorem sessionOk_of_modeEntered {t : State} (slot : t.slot = none) (sized : t.sized)
    (st : t.st = .modeEntered) (legal : legalPos .modeEntered t.pos = true)
    (nrst : t.nrst = !t.pos.resetHeld) (success : t.result = .success) (opened : t.imgOpen = true)
    (entered : t.modeEntered = true) (high : (∃ q, t.pos = .pulse q) → t.bootSel = true) :
    t.sessionOk where
  noSlot := slot
  sized := sized
  legal := by rw [st]; exact legal
  nrst := nrst
  noFailure _ _ := success
  opened _ := opened
  entered _ := entered
  mode _ := ⟨.inl st, opened⟩
  image _ := .inr (.inl st)
  bootHigh h := high (by simpa [st, St.inBootloader] using h)
  bootLow h := by simp [st] at h
  bound h := by simp [st] at h
  inside h := by simp [st] at h
  buffered c h := by rw [h] at legal; cases c <;> cases legal

theorem sizeImage_sessionOk {s : State} (h : s.sessionOk) (st : s.st = .imageLocated)
    (pos : s.pos = .size) : s.sizeImage.sessionOk := by
  have nrst := h.nrstHigh pos rfl
  have success := h.noFailure (by simp [st]) (by simp [st])
  have opened := h.opened (.inl ⟨st, pos⟩)
  unfold State.sizeImage
  dsimp only
  split
  · exact sessionOk_of_abort h.noSlot h.sized rfl rfl nrst fun _ => opened
  · split
    · exact sessionOk_of_abort h.noSlot h.sized rfl rfl nrst fun _ => opened
    · exact sessionOk_of_modeEntered h.noSlot h.sized rfl rfl nrst success opened rfl (by simp [State.goto])

/-! ### Bootloader mode (R240, R266 to R270, R320) -/

/-- What holds from TransportReady to Reading, whatever the position. -/
structure State.engaged (s : State) : Prop where
  slot : s.slot = none
  sized : s.sized
  success : s.result = .success
  opened : s.imgOpen = true
  entered : s.modeEntered = true
  high : s.bootSel = true

theorem State.sessionOk.engaged {s : State} (h : s.sessionOk) (b : s.st.inBootloader = true) :
    s.engaged where
  slot := h.noSlot
  sized := h.sized
  success := h.noFailure (fun e => by rw [e] at b; cases b) (fun e => by rw [e] at b; cases b)
  opened := h.opened (.inr (.inr b))
  entered := h.entered (.inr (.inl b))
  high := h.bootHigh (.inl b)

theorem State.engaged.sessionOk {t : State} (e : t.engaged) (b : t.st.inBootloader = true)
    (legal : legalPos t.st t.pos = true) (nrst : t.nrst = !t.pos.resetHeld)
    (bound : t.pos = .blocks → t.blk.toNat ≤ t.nblk.toNat)
    (inside : t.st = .writing ∨ t.st = .reading → (∃ c x, t.pos = .stage c x) → t.blk.toNat < t.nblk.toNat)
    (buffered : ∀ c, t.pos = .stage c .pop → c.response t.par ≤ t.world.rxq.length) : t.sessionOk where
  noSlot := e.slot
  sized := e.sized
  legal := legal
  nrst := nrst
  noFailure _ _ := e.success
  opened _ := e.opened
  entered _ := e.entered
  mode _ := ⟨.inr (.inl b), e.opened⟩
  image _ := .inr (.inr (.inl b))
  bootHigh _ := e.high
  bootLow st := by rw [st] at b; cases b
  bound _ := bound
  inside := inside
  buffered := buffered

/-- An event that writes only registers of the transport, `ATTEMPT` and the reset line. -/
theorem State.engaged.after {s u : State} (h : s.engaged) (only : OnlyDetect s u)
    (img : u.world.img = s.world.img) (rsp : u.rsp = s.rsp) : u.engaged := by
  obtain ⟨-, -, -, -, -, -, opened, entered, result, buf, -, -, high, -, -, -, -, slot, par⟩ := only.keeps
  obtain ⟨bufSize, rspSize, wf⟩ := h.sized
  exact {
    slot := slot.trans h.slot
    sized := ⟨by rw [buf, par, bufSize], by rw [rsp, rspSize], by rw [img, wf]⟩
    success := result.trans h.success
    opened := opened.trans h.opened
    entered := entered.trans h.entered
    high := high.trans h.high }

/-- At a position that is no stage and no head of a block loop. -/
theorem State.engaged.goPos {s : State} (e : s.engaged) (b : s.st.inBootloader = true) {p : Pos}
    (legal : legalPos s.st p = true) (nrst : s.nrst = !p.resetHeld) (blocks : p ≠ .blocks)
    (stage : ∀ c x, p ≠ .stage c x) : (s.goPos p).sessionOk :=
  State.engaged.sessionOk ⟨e.slot, e.sized, e.success, e.opened, e.entered, e.high⟩ b legal nrst
    (absurd · blocks) (fun _ ⟨c, x, h⟩ => absurd h (stage c x)) (fun c h => absurd h (stage c .pop))

theorem State.engaged.goto {s : State} (e : s.engaged) (nrst : s.nrst = true) {st : St}
    (b : st.inBootloader = true) : (s.goto st).sessionOk :=
  State.engaged.goPos (s := { s with st := st })
    ⟨e.slot, e.sized, e.success, e.opened, e.entered, e.high⟩ b rfl nrst (by simp) (by simp)

/-- To ModeExited, by an abort or from the end of Reading. -/
theorem State.engaged.raiseFail {s : State} (e : s.engaged) (nrst : s.nrst = true) (kind : Result) :
    (s.raiseFail kind).sessionOk :=
  sessionOk_of_abort e.slot e.sized rfl rfl nrst fun _ => e.opened

/-! ### Inside `ENTER_BL` and `EXIT_BL` (R130 to R133, R265, R271) -/

theorem legalPos_of_inBootOp {p : Pos} (h : p.inBootOp = true) :
    legalPos .modeEntered p = true ∧ legalPos .modeExited p = true ∧ p ≠ .closing := by
  cases p with
  | dirBoot | level | pulse => exact ⟨rfl, rfl, by simp⟩
  | _ => cases h

/-- What holds inside `ENTER_BL` and `EXIT_BL`, whatever the position. -/
structure State.inBoot (s : State) : Prop where
  slot : s.slot = none
  sized : s.sized
  st : s.st = .modeEntered ∨ s.st = .modeExited
  success : s.st = .modeEntered → s.result = .success
  opened : s.imgOpen = true
  entered : s.modeEntered = true

theorem State.sessionOk.inBoot {s : State} (h : s.sessionOk)
    (st : s.st = .modeEntered ∨ s.st = .modeExited) (entered : s.modeEntered = true) : s.inBoot where
  slot := h.noSlot
  sized := h.sized
  st := st
  success e := h.noFailure (by simp [e]) (by simp [e])
  opened := (h.mode entered).2
  entered := entered

/-- An event that writes the lines only stays inside. -/
theorem State.inBoot.lines {s u : State} (h : s.inBoot) (only : OnlyLines s u)
    (img : u.world.img = s.world.img) : u.inBoot := by
  obtain ⟨st, -, -, -, -, -, opened, entered, result, buf, -, -, -, -, rsp, -, -, -, -, -, -, -, slot, par⟩ :=
    only.keeps
  obtain ⟨bufSize, rspSize, wf⟩ := h.sized
  exact {
    slot := slot.trans h.slot
    sized := ⟨by rw [buf, par, bufSize], by rw [rsp, rspSize], by rw [img, wf]⟩
    st := st ▸ h.st
    success := fun e => result.trans (h.success (st ▸ e))
    opened := opened.trans h.opened
    entered := entered.trans h.entered }

/-- The boot-mode line has the level the operation of `ST` drives it to: high in ModeEntered, low in
ModeExited (R131, R132). -/
structure State.drivenForBoot (s : State) : Prop where
  entered : s.st = .modeEntered → s.bootSel = true
  exited : s.st = .modeExited → s.bootSel = false

theorem State.inBoot.goPos {s : State} (h : s.inBoot) {p : Pos} (inOp : p.inBootOp = true)
    (nrst : s.nrst = !p.resetHeld) (level : (∃ q, p = .pulse q) → s.drivenForBoot) :
    (s.goPos p).sessionOk := by
  obtain ⟨legalIn, legalOut, ne⟩ := legalPos_of_inBootOp inOp
  rcases h.st with e | e
  · exact sessionOk_of_modeEntered h.slot h.sized e legalIn nrst (h.success e) h.opened h.entered
      fun q => (level q).entered e
  · exact sessionOk_of_cleanup h.slot h.sized e legalOut nrst (fun _ => h.entered)
      (fun _ => ⟨ne, h.opened⟩) fun q => (level q).exited e

/-- The return of `ENTER_BL` or `EXIT_BL`: on success the boot-mode line has the level of the operation. -/
theorem State.inBoot.bootDone {s : State} (h : s.inBoot) (nrst : s.nrst = true) (ok : Bool)
    (level : ok = true → s.drivenForBoot) : (s.bootDone ok).sessionOk := by
  rcases h.st with e | e
  · rw [bootDone_modeEntered e]
    split
    · next hok =>
      exact State.engaged.goto ⟨h.slot, h.sized, h.success e, h.opened, h.entered, (level hok).entered e⟩
        nrst rfl
    · exact sessionOk_of_abort h.slot h.sized rfl rfl nrst fun _ => h.opened
  · rw [bootDone_modeExited e]
    exact sessionOk_of_cleanup h.slot h.sized e rfl nrst (fun c => by cases c) (fun c => by cases c)
      fun ⟨_, c⟩ => by cases c

/-- Inside a pulse the boot-mode line has the level of the operation. -/
theorem State.sessionOk.drivenForBoot {s : State} (h : s.sessionOk) {q : PulsePos}
    (pos : s.pos = .pulse q) : s.drivenForBoot :=
  ⟨fun e => h.bootHigh (.inr ⟨e, q, pos⟩), fun e => h.bootLow e ⟨q, pos⟩⟩

/-- The pulse at the end of `ENTER_BL` and `EXIT_BL`. -/
theorem State.inBoot.pulseStep {s : State} (h : s.inBoot) {q : PulsePos}
    (nrst : s.nrst = !(Pos.pulse q).resetHeld) (level : s.drivenForBoot) : (s.pulseStep q).sessionOk := by
  obtain ⟨entered, exited⟩ := level
  cases q with
  | low => exact (h.lines (setLevel_frame s .reset false) rfl).goPos rfl rfl fun _ => ⟨entered, exited⟩
  | hold => exact (h.lines (wait_lines s s.par.tResetLow) rfl).goPos rfl nrst fun _ => ⟨entered, exited⟩
  | high => exact (h.lines (setLevel_frame s .reset true) rfl).goPos rfl rfl fun _ => ⟨entered, exited⟩
  | settle =>
    have u : (s.wait s.par.tSettle).inBoot := h.lines (wait_lines s _) rfl
    show (s.wait s.par.tSettle).pulseDone.sessionOk
    rw [pulseDone_boot u.st]
    exact u.bootDone nrst true fun _ => ⟨entered, exited⟩

theorem bootStep_sessionOk {s : State} (h : s.sessionOk) (st : s.st = .modeEntered ∨ s.st = .modeExited)
    (entered : s.modeEntered = true) (pos : s.pos = .entry ∨ s.pos.inBootOp = true) :
    (s.bootStep s.pos).sessionOk := by
  have b := h.inBoot st entered
  have nrst := h.nrst
  cases p : s.pos with
  | entry =>
    rw [p] at nrst
    have d : (s.setDir .reset).1.inBoot := b.lines rfl rfl
    exact d.goPos rfl nrst (by simp)
  | dirBoot ok1 =>
    rw [p] at nrst
    have d : (s.setDir .boot).1.inBoot := b.lines rfl rfl
    show (s.configBoot ok1).sessionOk
    unfold State.configBoot
    dsimp only
    split
    · exact d.goPos rfl nrst (by simp)
    · exact d.bootDone nrst false (by simp)
  | level =>
    rw [p] at nrst
    exact (b.lines (setLevel_frame s .boot _) rfl).goPos rfl nrst fun _ =>
      ⟨fun e => by simp [show s.st = _ from e], fun e => by simp [show s.st = _ from e]⟩
  | pulse q => exact b.pulseStep (p ▸ nrst) (h.drivenForBoot p)
  | _ => simp [p, Pos.inBootOp] at pos

/-! ### ModeExited (R271, R272) -/

theorem startCleanup_sessionOk {s : State} (h : s.sessionOk) (st : s.st = .modeExited)
    (entry : s.pos = .entry) : s.startCleanup.sessionOk := by
  unfold State.startCleanup
  split
  · next entered =>
    have b := bootStep_sessionOk h (.inr st) entered (.inl entry)
    rwa [entry] at b
  · next left =>
    exact sessionOk_of_cleanup h.noSlot h.sized st rfl (h.nrstHigh entry rfl) (fun c => by cases c)
      (fun m => absurd m left) fun ⟨_, c⟩ => by cases c

theorem cleanupImage_sessionOk {s : State} (h : s.sessionOk) (st : s.st = .modeExited)
    (pos : s.pos = .closing) : s.cleanupImage.sessionOk := by
  have nrst := h.nrstHigh pos rfl
  have left : s.modeEntered = false :=
    Bool.eq_false_iff.mpr fun m => by simpa [st, pos, St.inBootloader] using h.mode m
  unfold State.cleanupImage
  split
  · exact sessionOk_of_cleanup h.noSlot h.sized st (by rw [← st]; exact h.legal) h.nrst
      (fun c => by simp [pos, Pos.inBootOp] at c) (fun m => absurd m (by simp [left]))
      fun ⟨_, c⟩ => by simp [pos] at c
  · next closed =>
    exact sessionOk_of_outside h.noSlot h.sized rfl rfl nrst (fun c => absurd rfl c) (by simpa using closed)
      left

/-! ### TransportReady (R266) -/

theorem configureUart_sessionOk {s : State} (h : s.sessionOk) (st : s.st = .transportReady)
    (nrst : s.nrst = true) : s.configureUart.sessionOk := by
  have b : s.st.inBootloader = true := by rw [st]; rfl
  have u := (h.engaged b).after (u := (s.ask (World.uartConfigure s.cap s.cfg.ch s.par.uart)).1) rfl rfl rfl
  exact u.goPos b (by rw [State.ask_st, st]; rfl) nrst (by simp) (by simp)

theorem setPins_sessionOk {s : State} (h : s.sessionOk) (st : s.st = .transportReady)
    (nrst : s.nrst = true) (ok1 : Bool) : (s.setPins ok1).sessionOk := by
  have u := (h.engaged (by rw [st]; rfl)).after (u := (s.ask (World.uartSetPins s.cap s.cfg)).1) rfl rfl rfl
  unfold State.setPins
  dsimp only
  split
  · exact u.goto nrst rfl
  · exact u.raiseFail nrst _

/-! ### Stages (R200 to R210) -/

/-- What holds inside the exchange of a stage, whatever event is next. -/
structure State.inStage (c : Stage) (s : State) : Prop where
  engaged : s.engaged
  st : s.st = c.home
  nrst : s.nrst = true
  inside : c.home = .writing ∨ c.home = .reading → s.blk.toNat < s.nblk.toNat

theorem Stage.home_inBootloader (c : Stage) : c.home.inBootloader = true := by cases c <;> rfl

theorem State.sessionOk.inStage {s : State} (h : s.sessionOk) {c : Stage} {x : ExchangePos}
    (pos : s.pos = .stage c x) : s.inStage c := by
  have st : s.st = c.home := by
    have legal := h.legal
    rw [pos] at legal
    exact beq_iff_eq.mp legal
  exact {
    engaged := h.engaged (st ▸ c.home_inBootloader)
    st := st
    nrst := h.nrstHigh pos rfl
    inside := fun w => h.inside (st ▸ w) ⟨c, x, pos⟩ }

theorem State.inStage.event {s u : State} {c : Stage} (h : s.inStage c) (a : StageEvent s u) :
    u.inStage c := by
  obtain ⟨st, -, -, blk, nblk, -, opened, entered, result, buf, -, -, high, nrst, -, -, -, -, slot, par⟩ :=
    a.only.keeps
  obtain ⟨e, hst, hnrst, inside⟩ := h
  obtain ⟨bufSize, rspSize, wf⟩ := e.sized
  exact {
    engaged := {
      slot := slot.trans e.slot
      sized := ⟨by rw [buf, par, bufSize], a.rsp rspSize, by rw [a.img, wf]⟩
      success := result.trans e.success
      opened := opened.trans e.opened
      entered := entered.trans e.entered
      high := high.trans e.high }
    st := st.trans hst
    nrst := nrst.trans hnrst
    inside := by rwa [blk, nblk] }

theorem State.inStage.goPos {c : Stage} {s : State} (h : s.inStage c) {x : ExchangePos}
    (buffered : x = .pop → c.response s.par ≤ s.world.rxq.length) : (s.goPos (.stage c x)).sessionOk := by
  obtain ⟨e, st, nrst, inside⟩ := h
  refine State.engaged.sessionOk ⟨e.slot, e.sized, e.success, e.opened, e.entered, e.high⟩
    (st ▸ c.home_inBootloader) (beq_iff_eq.mpr st) nrst (fun p => by cases p) (fun w _ => inside (st ▸ w))
    fun c' p => ?_
  cases p
  exact buffered rfl

/-- Another stage of the same state is next. -/
theorem State.inStage.issue {c c' : Stage} {s : State} (h : s.inStage c) (home : c'.home = c.home) :
    (s.issue c').sessionOk :=
  State.inStage.goPos ⟨h.engaged, h.st.trans home.symm, h.nrst, home ▸ h.inside⟩ (by simp)

theorem State.inStage.raiseFail {c : Stage} {s : State} (h : s.inStage c) (kind : Result) :
    (s.raiseFail kind).sessionOk := h.engaged.raiseFail h.nrst kind

theorem State.inStage.attemptFailed {c : Stage} {s : State} (h : s.inStage c)
    (home : c.home = .presenceConfirmed) : s.attemptFailed.sessionOk := by
  have st := h.st.trans home
  unfold State.attemptFailed
  split
  · exact h.raiseFail _
  · exact h.engaged.goPos (by rw [st]; rfl) (by rw [st]; rfl) h.nrst (by simp) (by simp)

theorem State.inStage.presenceFound {c : Stage} {s : State} (h : s.inStage c)
    (home : c.home = .presenceConfirmed) : s.presenceFound.sessionOk := by
  unfold State.presenceFound
  split
  · exact h.issue home.symm
  · exact h.engaged.goto h.nrst rfl

theorem State.inStage.massErased {c : Stage} {s : State} (h : s.inStage c) (home : c.home = .erased)
    (ok : Bool) : (s.massErased ok).sessionOk := by
  obtain ⟨e, st, nrst, inside⟩ := h
  have u : (s.setMassErased ok).inStage c :=
    ⟨⟨e.slot, e.sized, e.success, e.opened, e.entered, e.high⟩, st, nrst, inside⟩
  exact u.issue home.symm

theorem State.inStage.extErased {c : Stage} {s : State} (h : s.inStage c) (ok : Bool) :
    (s.extErased ok).sessionOk := by
  obtain ⟨e, -, nrst, -⟩ := h
  have u : (s.setExtErased ok).engaged := ⟨e.slot, e.sized, e.success, e.opened, e.entered, e.high⟩
  exact u.goto nrst rfl

/-- The head of a block loop, `BLK` at most `NBLK`. -/
theorem State.engaged.blocks {s : State} (e : s.engaged) (st : s.st = .writing ∨ s.st = .reading)
    (nrst : s.nrst = true) (bound : s.blk.toNat ≤ s.nblk.toNat) : (s.goPos .blocks).sessionOk := by
  refine State.engaged.sessionOk ⟨e.slot, e.sized, e.success, e.opened, e.entered, e.high⟩ ?_ ?_ nrst
    (fun _ => bound) (fun _ ⟨_, _, p⟩ => by cases p) (fun _ p => by cases p)
  · show s.st.inBootloader = true
    rcases st with h | h <;> rw [h] <;> rfl
  · show legalPos s.st .blocks = true
    rcases st with h | h <;> rw [h] <;> rfl

/-- A page operation that succeeded steps to the next block: `BLK` was below `NBLK`. -/
theorem State.inStage.pageDone {c : Stage} {s : State} (h : s.inStage c)
    (home : c.home = .writing ∨ c.home = .reading) (ok : Bool) (kind : Result) :
    (s.pageDone ok kind).sessionOk := by
  obtain ⟨e, st, nrst, inside⟩ := h
  cases ok with
  | false => exact e.raiseFail nrst kind
  | true =>
    have u : ({ s.incAddr with blk := s.blk + 1 } : State).engaged :=
      ⟨e.slot, e.sized, e.success, e.opened, e.entered, e.high⟩
    refine u.blocks (st ▸ home) nrst ?_
    have lt := inside home
    show (s.blk + 1).toNat ≤ s.nblk.toNat
    bv_omega

/-- What follows a stage keeps the invariant, whatever the stage returned. -/
theorem State.inStage.stageDone {c : Stage} {s : State} (h : s.inStage c) (ok : Bool) :
    (s.stageDone c ok).sessionOk := by
  cases c with
  | sync => cases ok; exacts [h.attemptFailed rfl, h.issue rfl]
  | get => cases ok; exacts [h.attemptFailed rfl, h.presenceFound rfl]
  | getver => cases ok; exacts [h.raiseFail _, h.issue rfl]
  | getid => cases ok; exacts [h.raiseFail _, h.engaged.goto h.nrst rfl]
  | massEraseCmd => cases ok; exacts [h.massErased rfl false, h.issue rfl]
  | massEraseParam => exact h.massErased rfl ok
  | extEraseCmd => cases ok; exacts [h.extErased false, h.issue rfl]
  | extEraseParam => exact h.extErased ok
  | writeMem => cases ok; exacts [h.raiseFail _, h.issue rfl]
  | writeAddr => cases ok; exacts [h.raiseFail _, h.issue rfl]
  | pageData => exact h.pageDone (.inl rfl) ok _
  | readMem => cases ok; exacts [h.raiseFail _, h.issue rfl]
  | readAddr => exact h.issue rfl
  | pageLen => exact h.pageDone (.inr rfl) ok _

/-- An event of a stage keeps the invariant. -/
theorem State.inStage.stageStep {c : Stage} {s : State} (h : s.inStage c) (x : ExchangePos) :
    (s.stageStep c x).sessionOk := by
  obtain ⟨u, a, ⟨y, buffered, e⟩ | ⟨ok, e⟩⟩ := stageStep_cases s c x
  · obtain ⟨-, -, -, -, -, -, -, -, -, -, -, -, -, -, -, -, -, -, -, par⟩ := a.only.keeps
    exact e ▸ (h.event a).goPos (by rwa [par])
  · exact e ▸ (h.event a).stageDone ok

/-! ### The detector (R240) -/

/-- An event of a pulse of `DETECT`. -/
theorem State.engaged.pulseStep {s : State} (e : s.engaged) (st : s.st = .presenceConfirmed) {q : PulsePos}
    (nrst : s.nrst = !(Pos.pulse q).resetHeld) : (s.pulseStep q).sessionOk := by
  have b : s.st.inBootloader = true := by rw [st]; rfl
  have legal : ∀ p, legalPos s.st (.pulse p) = true := fun p => by rw [st]; rfl
  cases q with
  | low => exact (e.after (setLevel_detect s false) rfl rfl).goPos b (legal _) rfl (by simp) (by simp)
  | hold => exact (e.after (wait_frame s _).detect rfl rfl).goPos b (legal _) nrst (by simp) (by simp)
  | high => exact (e.after (setLevel_detect s true) rfl rfl).goPos b (legal _) rfl (by simp) (by simp)
  | settle =>
    have u : (s.wait s.par.tSettle).inStage .get :=
      ⟨e.after (wait_frame s _).detect rfl rfl, st, nrst, by simp [Stage.home]⟩
    show (s.wait s.par.tSettle).pulseDone.sessionOk
    rw [pulseDone_presence u.st]
    exact u.issue rfl

/-- The first event of an attempt of `DETECT`. -/
theorem State.engaged.startAttempt {s : State} (e : s.engaged) (st : s.st = .presenceConfirmed)
    (nrst : s.nrst = true) : s.startAttempt.sessionOk :=
  (e.after (u := { s with attempt := s.attempt + 1 }) rfl rfl rfl).pulseStep st nrst

theorem State.engaged.backOff {s : State} (e : s.engaged) (st : s.st = .presenceConfirmed)
    (nrst : s.nrst = true) : s.backOff.sessionOk :=
  (e.after (wait_frame s _).detect rfl rfl).goPos (by rw [State.wait_st, st]; rfl)
    (by rw [State.wait_st, st]; rfl) nrst (by simp) (by simp)

/-! ### The block loops (R269, R270) -/

theorem State.engaged.seedBlocks {s : State} (e : s.engaged) (st : s.st = .writing ∨ s.st = .reading)
    (nrst : s.nrst = true) : s.seedBlocks.sessionOk :=
  State.engaged.blocks (s := { s with addr := s.par.baseAddr, blk := 0 })
    ⟨e.slot, e.sized, e.success, e.opened, e.entered, e.high⟩ st nrst (Nat.zero_le _)

theorem State.engaged.seedReading {s : State} (e : s.engaged) (st : s.st = .reading)
    (nrst : s.nrst = true) : s.seedReading.sessionOk :=
  (e.after (u := s.tell (World.stoRewind s.cap)) rfl rfl rfl).seedBlocks (.inr st) nrst

theorem State.engaged.fetchBlock {s : State} (e : s.engaged) : s.fetchBlock.1.engaged := by
  have sized := fetchBlock_sized s e.sized
  rw [fetchBlock_frame] at sized ⊢
  exact ⟨e.slot, sized, e.success, e.opened, e.entered, e.high⟩

/-- The head of a block loop: the page operation of the next block, or the loop is left. -/
theorem State.engaged.nextBlock {s : State} (e : s.engaged) {page : Stage} (home : s.st = page.home)
    (nrst : s.nrst = true) {after : St} (left : (s.goto after).sessionOk) :
    (s.nextBlock page after).sessionOk := by
  have f := e.fetchBlock
  have frame := fetchBlock_frame s
  unfold State.nextBlock
  dsimp only
  split
  · next lt =>
    generalize s.fetchBlock = r at f frame ⊢
    have u : r.1.inStage page :=
      ⟨f, by rw [frame]; exact home, by rw [frame]; exact nrst, by rw [frame]; exact fun _ => lt⟩
    split
    · exact u.issue rfl
    · exact u.raiseFail _
  · exact left

/-! ### Every step -/

/-- The invariant through one step of the sequence, case by case. -/
theorem SeqMove.sessionOk {s t : State} (h : s.sessionOk) (move : SeqMove s t) : t.sessionOk := by
  cases move with
  | rest => exact h
  | validate st => exact validateConfig_sessionOk h st
  | mount st => exact mountStorage_sessionOk h st
  | openImage st pos => exact openImage_sessionOk h st pos
  | sizeImage st pos => exact sizeImage_sessionOk h st pos
  | enterBl st pos => exact bootStep_sessionOk h (.inl st) (h.entered (.inl st)) pos
  | configureUart st pos => exact configureUart_sessionOk h st (h.nrstHigh pos rfl)
  | setPins ok1 st pos => exact setPins_sessionOk h st (h.nrstHigh pos rfl) ok1
  | firstAttempt st pos =>
    have e := h.engaged (st ▸ rfl)
    exact (e.after (u := { s with attempt := 0 }) rfl rfl rfl).startAttempt st (h.nrstHigh pos rfl)
  | nextAttempt st pos => exact (h.engaged (st ▸ rfl)).startAttempt st (h.nrstHigh pos rfl)
  | pulse q _ st pos => exact (h.engaged (st ▸ rfl)).pulseStep st (pos ▸ h.nrst)
  | backOff st pos => exact (h.engaged (st ▸ rfl)).backOff st (h.nrstHigh pos rfl)
  | stage c x st pos => exact (h.inStage pos).stageStep x
  | eraseAll st pos =>
    exact State.inStage.stageStep (c := .massEraseCmd)
      ⟨h.engaged (st ▸ rfl), st, h.nrstHigh pos rfl, by simp [Stage.home]⟩ .tx
  | seedWriting st pos => exact (h.engaged (st ▸ rfl)).seedBlocks (.inl st) (h.nrstHigh pos rfl)
  | seedReading st pos => exact (h.engaged (st ▸ rfl)).seedReading st (h.nrstHigh pos rfl)
  | nextWriting st pos =>
    have e := h.engaged (st ▸ rfl)
    have nrst := h.nrstHigh pos rfl
    exact e.nextBlock (page := .writeMem) st nrst (e.goto nrst rfl)
  | nextReading st pos =>
    have e := h.engaged (st ▸ rfl)
    have nrst := h.nrstHigh pos rfl
    exact e.nextBlock (page := .readMem) st nrst
      (sessionOk_of_abort e.slot e.sized rfl rfl nrst fun _ => e.opened)
  | startCleanup st pos => exact startCleanup_sessionOk h st pos
  | exitBl st pos =>
    exact bootStep_sessionOk h (.inr st) (h.entered (.inr (.inr ⟨st, pos⟩))) (.inr pos)
  | cleanupImage st pos => exact cleanupImage_sessionOk h st pos

theorem hwReset_sessionOk {s : State} (wf : Memory.wf s.world.img = true) : s.hwReset.sessionOk :=
  sessionOk_of_outside rfl ⟨List.length_replicate, List.length_replicate, wf⟩ rfl rfl rfl (fun _ => rfl) rfl
    rfl

/-- A session starts from a state in which no pulse holds the reset line (R261). -/
theorem startSession_sessionOk {s : State} (h : s.sessionOk) (idle : s.busy = false) (c : Cfg) (nm : Name) :
    (s.startSession c nm).sessionOk := by
  have entry : s.pos = .entry := by
    rcases (busy_eq_false s).mp idle with st | st
    exacts [legalPos_single h.legal (.inl st), legalPos_single h.legal (.inr (.inr (.inr st)))]
  exact sessionOk_of_outside h.noSlot h.sized rfl rfl (h.nrstHigh entry rfl) (fun _ => rfl) rfl rfl

/-- Settles O49: without a placed operation a step is a reset, a session start or one event of the sequence,
and each of them keeps the invariant. -/
theorem everyStepKeepsTheSessionInvariant : Obligations.EveryStepKeepsTheSessionInvariant := by
  intro s t h e
  obtain ⟨-, r⟩ | ⟨c, nm, -, idle, r⟩ | ⟨-, r⟩ := step_cases s h.noSlot <;> cases r.symm.trans e
  · obtain ⟨-, -, wf⟩ := h.sized
    exact hwReset_sessionOk wf
  · exact startSession_sessionOk h.popInput idle c nm
  · exact (seqStep_move s.popInput h.legal).sessionOk h.popInput

end Sys2Proof.Machine
end

section
/-!
PROOFS. Reset and session start (spec/10_state.md R40, R41, spec/45_orchestrator.md R261, R272).
-/
namespace Sys2Proof.Machine

/-- Settles O1, by the definition of the reset state. -/
theorem resetStateHoldsTheSpecValues : Obligations.ResetStateHoldsTheSpecValues := by
  unfold Obligations.ResetStateHoldsTheSpecValues
  refine ⟨rfl, rfl, rfl, rfl, rfl, rfl, rfl, rfl, rfl, rfl, rfl, rfl, rfl, rfl⟩

/-- Settles O3: in Idle and Done the sequence rests, and a `start` is taken. -/
theorem sessionBeginsOnlyWithAStart : Obligations.SessionBeginsOnlyWithAStart := by
  intro s st slot
  have idle : s.busy = false := (busy_eq_false s).mpr st
  refine ⟨fun i => ?_, fun c nm rest i => ?_⟩
  · rw [step_sequence s slot i, seqStep_of_not_busy (s := s.popInput) idle]
    rfl
  · rw [step_start s c nm slot (by simp [State.input, i]) idle]
    simp [State.startSession, State.popInput, i]

end Sys2Proof.Machine
end

section
/-!
PROOFS. The sequencing state `ST` moves along the chain (spec/10_state.md R21, spec/45_orchestrator.md
R260).
-/
namespace Sys2Proof.Machine

/-- The changes of `ST` within a session: none, to the next state of the chain, or by an abort. -/
def St.Moves (a b : St) : Prop :=
  b = a ∨ b.code = a.code + 1 ∨ ((a ≠ .idle ∧ a ≠ .done) ∧ b = .modeExited)

theorem St.Moves.code_le {a b : St} (m : St.Moves a b) : a.code.toNat ≤ b.code.toNat := by
  obtain rfl | e | ⟨⟨-, notDone⟩, rfl⟩ := m
  · exact Nat.le_refl _
  · cases a <;> cases b <;> revert e <;> decide
  · cases a <;> revert notDone <;> decide

theorem St.Moves.stay {a : St} : St.Moves a a := .inl rfl

theorem St.Moves.next {a b : St} (e : b.code = a.code + 1) : St.Moves a b := .inr (.inl e)

theorem St.Moves.abort {a : St} (busy : a ≠ .idle ∧ a ≠ .done) : St.Moves a .modeExited :=
  .inr (.inr ⟨busy, rfl⟩)

theorem Stage.home_busy (c : Stage) : c.home ≠ .idle ∧ c.home ≠ .done := by cases c <;> simp [Stage.home]

theorem stageDone_moves {s : State} (c : Stage) (st : s.st = c.home) (ok : Bool) :
    St.Moves s.st (s.stageDone c ok).st := by
  have fail : ∀ kind, St.Moves s.st (s.raiseFail kind).st := fun _ => .abort (st ▸ c.home_busy)
  have stay : ∀ c', St.Moves s.st (s.issue c').st := fun _ => .stay
  have failed : St.Moves s.st s.attemptFailed.st := by
    unfold State.attemptFailed
    split
    exacts [fail _, .stay]
  cases c with
  | sync => cases ok; exacts [failed, stay _]
  | get =>
    cases ok
    · exact failed
    · show St.Moves s.st s.presenceFound.st
      unfold State.presenceFound
      split
      exacts [stay _, .next (by rw [st]; rfl)]
  | getver => cases ok; exacts [fail _, stay _]
  | getid => cases ok; exacts [fail _, .next (by rw [st]; rfl)]
  | massEraseCmd => cases ok <;> exact .stay
  | massEraseParam => exact .stay
  | extEraseCmd => cases ok; exacts [.next (by rw [st]; rfl), stay _]
  | extEraseParam => exact .next (by rw [st]; rfl)
  | writeMem | writeAddr => cases ok; exacts [fail _, stay _]
  | pageData | pageLen => cases ok; exacts [fail _, .stay]
  | readMem => cases ok; exacts [fail _, stay _]
  | readAddr => exact stay _

theorem stageStep_moves {s : State} (c : Stage) (st : s.st = c.home) (x : ExchangePos) :
    St.Moves s.st (s.stageStep c x).st := by
  obtain ⟨u, a, e⟩ := stageStep_cases s c x
  obtain ⟨ust, -⟩ := a.only.keeps
  obtain ⟨y, -, e⟩ | ⟨ok, e⟩ := e <;> rw [e, ← ust]
  · exact .stay
  · exact stageDone_moves c (ust.trans st) ok

theorem bootDone_moves {s : State} (st : s.st = .modeEntered ∨ s.st = .modeExited) (ok : Bool) :
    St.Moves s.st (s.bootDone ok).st := by
  rcases st with e | e
  · rw [bootDone_modeEntered e]
    cases ok
    exacts [.abort (by simp [e]), .next (by rw [e]; rfl)]
  · rw [bootDone_modeExited e]
    exact .stay

theorem pulseStep_moves {s : State}
    (st : s.st = .presenceConfirmed ∨ s.st = .modeEntered ∨ s.st = .modeExited) (q : PulsePos) :
    St.Moves s.st (s.pulseStep q).st := by
  cases q with
  | low | hold | high => exact .stay
  | settle =>
    show St.Moves s.st (s.wait s.par.tSettle).pulseDone.st
    rcases st with e | boot
    · rw [pulseDone_presence (s := s.wait _) e]
      exact .stay
    · rw [pulseDone_boot (s := s.wait _) boot]
      exact bootDone_moves (s := s.wait _) boot true

theorem bootStep_moves {s : State} (st : s.st = .modeEntered ∨ s.st = .modeExited) (p : Pos) :
    St.Moves s.st (s.bootStep p).st := by
  unfold State.bootStep
  split
  · next ok1 =>
    unfold State.configBoot
    dsimp only
    split
    · exact .stay
    · exact bootDone_moves (s := (s.setDir .boot).1) st false
  · exact .inl (by simp [State.driveBoot])
  · exact pulseStep_moves (.inr st) _
  · exact .stay

theorem fetchBlock_st (s : State) : s.fetchBlock.1.st = s.st := by rw [fetchBlock_frame]

/-- A block loop goes on, is aborted, or is left for the next state. -/
theorem nextBlock_moves {s : State} (busy : s.st ≠ .idle ∧ s.st ≠ .done) (page : Stage) {after : St}
    (next : after.code = s.st.code + 1) : St.Moves s.st (s.nextBlock page after).st := by
  have st := fetchBlock_st s
  unfold State.nextBlock
  dsimp only
  split
  · split
    · exact .inl st
    · exact .abort busy
  · exact .next next

/-- Every move of the sequence is one of these changes of `ST`. -/
theorem SeqMove.st_moves {s t : State} (move : SeqMove s t) : St.Moves s.st t.st := by
  cases move with
  | rest => exact .stay
  | validate st =>
    unfold State.validateConfig
    split
    exacts [.next (by rw [st]; rfl), .abort (by simp [st])]
  | mount st =>
    unfold State.mountStorage
    dsimp only
    split
    exacts [.next (by rw [st]; rfl), .abort (by simp [st])]
  | openImage st pos =>
    unfold State.openImage
    dsimp only
    split
    exacts [.stay, .abort (by simp [st])]
  | sizeImage st pos =>
    unfold State.sizeImage
    dsimp only
    split
    · exact .abort (by simp [st])
    · split
      exacts [.abort (by simp [st]), .next (by rw [st]; rfl)]
  | enterBl st pos => exact bootStep_moves (.inl st) _
  | configureUart st pos => exact .stay
  | setPins ok1 st pos =>
    unfold State.setPins
    dsimp only
    split
    exacts [.next (by rw [st]; rfl), .abort (by simp [st])]
  | firstAttempt | nextAttempt => exact .stay
  | pulse q _ st pos => exact pulseStep_moves (.inl st) q
  | backOff => exact .stay
  | stage c x st pos => exact stageStep_moves c st x
  | eraseAll st pos => exact stageStep_moves .massEraseCmd st .tx
  | seedWriting | seedReading => exact .stay
  | nextWriting st pos => exact nextBlock_moves (by simp [st]) _ (by rw [st]; rfl)
  | nextReading st pos => exact nextBlock_moves (by simp [st]) _ (by rw [st]; rfl)
  | startCleanup st pos =>
    unfold State.startCleanup
    split <;> exact .stay
  | exitBl st pos => exact bootStep_moves (.inr st) _
  | cleanupImage st pos =>
    unfold State.cleanupImage
    split
    exacts [.stay, .next (by rw [st]; rfl)]

/-- Settles O40: the step is a move of the sequence from a position of the state's own work. -/
theorem sequencingStateNeverGoesBack : Obligations.SequencingStateNeverGoesBack := by
  intro s slot input legal
  have m : St.Moves s.st s.popInput.seqStep.st := (seqStep_move s.popInput legal).st_moves
  refine ⟨_, step_sequence s slot input, ?_, m.code_le⟩
  refine m.imp_right (Or.imp_right fun ⟨⟨notIdle, notDone⟩, e⟩ => ⟨?_, e⟩)
  exact Bool.eq_true_of_not_eq_false fun idle => by simpa [notIdle, notDone] using (busy_eq_false s).mp idle

end Sys2Proof.Machine
end

section
/-!
PROOFS. The configuration registers and the parameters (spec/10_state.md R37, R38).
-/
namespace Sys2Proof.Machine

/-- The relation that holds between any two environments. -/
theorem worldRel_true (cap : Nat) : WorldRel cap fun _ _ => True := by
  constructor <;> intros <;> trivial

theorem exec_par {s t : State} (i : Instr) (e : exec i s = .next t) : t.par = s.par :=
  (exec_worldRel (worldRel_true s.cap) i e).1

theorem seqStep_par (s : State) : s.seqStep.par = s.par := by
  obtain ⟨-, -, -, -, -, par⟩ := seqStep_untouched s
  exact par

theorem step_par {s t : State} (e : step s = .next t) : t.par = s.par := by
  obtain ⟨i, e⟩ | rfl | ⟨c, nm, rfl⟩ | rfl := step_next_cases e
  · exact exec_par (s := s.takeSlot) i e
  · rfl
  · rfl
  · exact seqStep_par _

theorem OnlyCommand.cfg {s t : State} (h : OnlyCommand s t) : t.cfg = s.cfg := by
  unfold OnlyCommand at h
  rw [h]

theorem OnlyTransport.cfg {s t : State} (h : OnlyTransport s t) : t.cfg = s.cfg := h.command.cfg

theorem OnlyLines.cfg {s t : State} (h : OnlyLines s t) : t.cfg = s.cfg := by
  unfold OnlyLines at h
  rw [h]

theorem OnlyDetect.cfg {s t : State} (h : OnlyDetect s t) : t.cfg = s.cfg := by
  unfold OnlyDetect at h
  rw [h]

/-- No operation but `FLASH` writes the configuration registers: each has a frame without them. -/
theorem exec_cfg {s t : State} (i : Instr) (h : ∀ c nm, i ≠ .flash c nm) (e : exec i s = .next t) :
    t.cfg = s.cfg := by
  cases i with
  | sync | get | getver | getid | massEraseCmd | massEraseParam | extEraseCmd | extEraseParam | writeMem
  | readMem | pageReadLen => cases e; exact (command_frame s _).cfg
  | massErase => cases e; exact (massErase_frame s).cfg
  | extErase => cases e; exact (extErase_frame s).cfg
  | loadAddr a => cases e; exact (loadAddr_frame s a).cfg
  | pageWriteData p => cases e; exact (pageWriteData_frame s p).cfg
  | pageWrite => cases e; exact (pageWrite_frame s).cfg
  | pageRead => cases e; exact (pageRead_frame s).cfg
  | configLines => cases e; exact (configLines_frame s).cfg
  | resetPulse => cases e; exact (resetPulse_frame s).cfg
  | enterBl => cases e; exact (bootMode_frame s true).cfg
  | exitBl => cases e; exact (bootMode_frame s false).cfg
  | send bs => cases e; exact (send_frame s bs).cfg
  | awaitBytes n T => cases e; exact (awaitBytes_frame s n T).cfg
  | readExact n =>
    simp only [exec, execReadExact] at e
    split at e
    · cases e
    · cases e; exact (readExact_frame s n).cfg
  | exchange bs n => cases e; exact (exchange_frame s bs n).cfg
  | detect => cases e; exact (detect_frame s).cfg
  | fetchBlock =>
    cases e
    obtain ⟨cfg, -⟩ := fetchBlock_untouched s
    exact cfg
  | flash c nm => exact absurd rfl (h c nm)
  | ack | classify | compl | xor8 | cmdframe | addrframe | dataframe | lenparam | incAddr => cases e; rfl

/-- Settles O42: `exec` by the frames of the operations, `step` by what a step can do. -/
theorem configurationIsImmutable : Obligations.ConfigurationIsImmutable := by
  refine ⟨fun s t i e => exec_par i e, fun s t i h e => exec_cfg i h e, fun s t e => step_par e,
    fun s t slot input e => ?_⟩
  cases (step_sequence s slot input).symm.trans e
  obtain ⟨cfg, -⟩ := seqStep_untouched s.popInput
  exact cfg

end Sys2Proof.Machine
end

section
/-!
PROOFS. `XOK` is the result of the last exchange (spec/10_state.md R32, spec/43_commands.md R199).
-/
namespace Sys2Proof.Machine

/-- An exchange that gates what follows: the result is that of the last exchange made. -/
theorem gated_xok {r next : State × Bool} (a : r.1.xok = r.2) (b : next.1.xok = next.2) :
    (if r.2 then next else (r.1, false)).1.xok = (if r.2 then next else (r.1, false)).2 := by
  split
  · exact b
  · next failed => simpa [failed] using a

theorem massErase_xok (s : State) : s.massErase.1.xok = s.massErase.2 :=
  gated_xok (command_xok s _) (command_xok _ _)

theorem extErase_xok (s : State) : s.extErase.1.xok = s.extErase.2 :=
  gated_xok (command_xok s _) (command_xok _ _)

theorem pageWrite_xok (s : State) : s.pageWrite.1.xok = s.pageWrite.2 :=
  gated_xok (command_xok s _) (gated_xok (command_xok _ _) (command_xok _ _))

theorem pageRead_xok (s : State) : s.pageRead.1.xok = s.pageRead.2 :=
  gated_xok (command_xok s _) (command_xok _ _)

/-- The value an operation `-> ok` returns is `XOK`, where it is that of its last exchange. -/
theorem ret_returnOk {r : State × Bool} (h : r.1.xok = r.2) :
    (State.returnOk r).ret = .ok (State.returnOk r).xok := by
  rw [State.returnOk_ret, State.returnOk_xok, h]

/-- The operations that exchange frames and return the result: every command, and `EXCHANGE` itself. -/
def returnsXok : Instr → Bool
  | .sync | .get | .getver | .getid | .massEraseCmd | .massEraseParam | .massErase | .extEraseCmd
  | .extEraseParam | .extErase | .writeMem | .readMem | .loadAddr _ | .pageWriteData _ | .pageWrite
  | .pageReadLen | .pageRead | .exchange _ _ => true
  | _ => false

theorem exec_returns_xok {s t : State} (i : Instr) (h : returnsXok i = true) (e : exec i s = .next t) :
    t.ret = .ok t.xok := by
  cases i with
  | sync | get | getver | getid | massEraseCmd | massEraseParam | extEraseCmd | extEraseParam | writeMem
  | readMem | pageReadLen => cases e; exact ret_returnOk (command_xok s _)
  | massErase => cases e; exact ret_returnOk (massErase_xok s)
  | extErase => cases e; exact ret_returnOk (extErase_xok s)
  | loadAddr a => cases e; exact ret_returnOk (exchange_xok _ _ _)
  | pageWriteData p => cases e; exact ret_returnOk (exchange_xok _ _ _)
  | pageWrite => cases e; exact ret_returnOk (pageWrite_xok s)
  | pageRead => cases e; exact ret_returnOk (pageRead_xok s)
  | exchange bs n => cases e; exact ret_returnOk (exchange_xok s bs n)
  | _ => cases h

theorem OnlyLines.xok {s t : State} (h : OnlyLines s t) : t.xok = s.xok := by
  unfold OnlyLines at h
  rw [h]

theorem awaitBytes_xok (s : State) (n T : Nat) : (s.awaitBytes n T).1.xok = s.xok := by
  rw [awaitBytes_only s n T]

theorem fetchBlock_xok (s : State) : s.fetchBlock.1.xok = s.xok := by rw [fetchBlock_frame]

/-- The operations without an exchange (`DETECT` and `FLASH` exchange frames and return something else). -/
def keepsXok : Instr → Bool
  | .ack | .configLines | .resetPulse | .enterBl | .exitBl | .send _ | .awaitBytes _ _ | .readExact _
  | .classify _ | .compl _ | .xor8 _ _ | .cmdframe _ | .addrframe _ | .dataframe _ | .lenparam _ | .incAddr
  | .fetchBlock => true
  | _ => false

theorem exec_keeps_xok {s t : State} (i : Instr) (h : keepsXok i = true) (e : exec i s = .next t) :
    t.xok = s.xok := by
  cases i with
  | configLines => cases e; exact (configLines_frame s).xok
  | resetPulse => cases e; exact (resetPulse_frame s).xok
  | enterBl => cases e; exact (bootMode_frame s true).xok
  | exitBl => cases e; exact (bootMode_frame s false).xok
  | awaitBytes n T => cases e; exact awaitBytes_xok s n T
  | readExact n =>
    simp only [exec, execReadExact] at e
    split at e <;> cases e
    rfl
  | fetchBlock => cases e; exact fetchBlock_xok s
  | ack | send | classify | compl | xor8 | cmdframe | addrframe | dataframe | lenparam | incAddr =>
    cases e; rfl
  | _ => cases h

/-- Settles O24: the exchanging operations return `XOK`, and the rest but `DETECT` and `FLASH` keep it. -/
theorem xokIsWrittenByExchangesOnly : Obligations.XokIsWrittenByExchangesOnly := by
  intro s t i e
  refine ⟨fun h => exec_returns_xok i ?_ e, fun h => exec_keeps_xok i ?_ e⟩
  · rcases h with h | ⟨_, rfl⟩ | ⟨_, rfl⟩ | ⟨_, _, rfl⟩
    · exact List.all_eq_true.mp rfl i h
    all_goals rfl
  · rcases h with h | ⟨_, rfl⟩ | ⟨_, _, rfl⟩ | ⟨_, rfl⟩ | ⟨_, rfl⟩ | ⟨_, rfl⟩ | ⟨_, _, rfl⟩ | ⟨_, rfl⟩
      | ⟨_, rfl⟩ | ⟨_, rfl⟩ | ⟨_, rfl⟩
    · exact List.all_eq_true.mp rfl i h
    all_goals rfl

end Sys2Proof.Machine
end

section
/-!
PROOFS. A step of the sequence makes one event or none (spec/92_eei_decisions.md D33): each event is one
constructor of `WorldEvent`, and the environment after a step is the one before it or after one event
(`seqStep_event`).
-/
namespace Sys2Proof.Machine

/-- The environment after one event of spec/20_memory.md R76, whatever its arguments. -/
inductive WorldEvent (cap : Nat) (w : World) : World → Prop
  | setDir (line : Line) (id : Id) : WorldEvent cap w (World.setDir cap line id w).1
  | setLevel (line : Line) (id : Id) (v : Bool) : WorldEvent cap w (World.setLevel cap line id v w)
  | wait (n : Nat) : WorldEvent cap w (World.wait cap n w)
  | uartConfigure (ch : Id) (format : UartFormat) : WorldEvent cap w (World.uartConfigure cap ch format w).1
  | uartSetPins (c : Cfg) : WorldEvent cap w (World.uartSetPins cap c w).1
  | send (ch : Id) (bs : Bytes) : WorldEvent cap w (World.send cap ch bs w).1
  | rxLen (ch : Id) : WorldEvent cap w (World.rxLen cap ch w).1
  | rxPop (ch : Id) (n : Nat) : WorldEvent cap w (World.rxPop cap ch n w).1
  | stoMount : WorldEvent cap w (World.stoMount cap w).1
  | stoOpen (name : Name) : WorldEvent cap w (World.stoOpen cap name w).1
  | stoSize : WorldEvent cap w (World.stoSize cap w).1
  | stoRead (n : Nat) : WorldEvent cap w (World.stoRead cap n w).1
  | stoRewind : WorldEvent cap w (World.stoRewind cap w)
  | stoClose : WorldEvent cap w (World.stoClose cap w)
  | result (r : Result) : WorldEvent cap w (w.log (.result r))

/-- A reflexive and transitive relation that every event keeps is kept by every operation and step. -/
theorem WorldRel.of_event {cap : Nat} {R : World → World → Prop} (refl : ∀ w, R w w)
    (trans : ∀ u v w, R u v → R v w → R u w) (event : ∀ w v, WorldEvent cap w v → R w v) :
    WorldRel cap R where
  refl := refl
  trans := trans
  setDir _ _ _ := event _ _ (.setDir ..)
  setLevel _ _ _ _ := event _ _ (.setLevel ..)
  wait _ _ := event _ _ (.wait _)
  uartConfigure _ _ _ := event _ _ (.uartConfigure ..)
  uartSetPins _ _ := event _ _ (.uartSetPins _)
  send _ _ _ := event _ _ (.send ..)
  rxLen _ _ := event _ _ (.rxLen _)
  rxPop _ _ _ := event _ _ (.rxPop ..)
  stoMount _ := event _ _ .stoMount
  stoOpen _ _ := event _ _ (.stoOpen _)
  stoSize _ := event _ _ .stoSize
  stoRead _ _ := event _ _ (.stoRead _)
  stoRewind _ := event _ _ .stoRewind
  stoClose _ := event _ _ .stoClose
  result _ _ := event _ _ (.result _)

/-- A step of the machine relates the environments as its operation or its event does. -/
theorem step_worldRel {R : World → World → Prop} {s t : State} (h : WorldRel s.cap R)
    (e : step s = .next t) : R s.world t.world := by
  obtain ⟨i, e⟩ | rfl | ⟨c, nm, rfl⟩ | rfl := step_next_cases e
  · exact (exec_worldRel (s := s.takeSlot) h i e).2
  · exact h.refl _
  · exact h.refl _
  · exact (seqStep_worldRel (s := s.popInput) h).2

/-- From one state to the other the environment goes through one event or none. -/
def AtMostOneEvent (s t : State) : Prop := t.world = s.world ∨ WorldEvent s.cap s.world t.world

/-- What follows the event writes registers only. -/
theorem AtMostOneEvent.regs {s u t : State} (h : AtMostOneEvent s u) (world : t.world = u.world) :
    AtMostOneEvent s t := by
  unfold AtMostOneEvent
  rwa [world]

theorem setLevel_event (s : State) (line : Line) (v : Bool) : AtMostOneEvent s (s.setLevel line v) := by
  refine .inr ?_
  rw [State.setLevel_world]
  exact .setLevel ..

theorem wait_event (s : State) (n : Nat) : AtMostOneEvent s (s.wait n) := .inr (.wait n)

theorem setDir_event (s : State) (line : Line) : AtMostOneEvent s (s.setDir line).1 := .inr (.setDir ..)

theorem poll_world (s : State) (n T : Nat) : (s.poll n T).1.world = s.rxLen.1.world := by
  unfold State.poll
  dsimp only
  split
  · rfl
  · split <;> rfl

theorem fetchBlock_world (s : State) :
    s.fetchBlock.1.world = (World.stoRead s.cap s.par.block s.world).1 := by
  unfold State.fetchBlock
  dsimp only
  split <;> rfl

theorem stageStep_event (s : State) (c : Stage) (x : ExchangePos) :
    AtMostOneEvent s (s.stageStep c x) := by
  have returned : ∀ {u : State} (ok : Bool), AtMostOneEvent s u → AtMostOneEvent s (u.stageDone c ok) :=
    fun {u} ok h => h.regs (stageDone_control u c ok).world
  cases x with
  | tx =>
    have sent : AtMostOneEvent s ((s.stageFrame c).1.send (s.stageFrame c).2).1 := by
      cases c <;> exact .inr (.send ..)
    show AtMostOneEvent s (s.stageTx c)
    unfold State.stageTx
    dsimp only
    split
    · exact returned false (sent.regs rfl)
    · exact sent.regs rfl
  | poll =>
    have polled : AtMostOneEvent s (s.poll (c.response s.par) s.par.timeout).1 :=
      .inr (poll_world s _ _ ▸ .rxLen _)
    show AtMostOneEvent s (s.stagePoll c)
    unfold State.stagePoll
    dsimp only
    split
    · exact polled.regs rfl
    · split
      · exact returned false (polled.regs rfl)
      · exact polled.regs rfl
  | pause => exact (wait_event s s.par.pollInterval).regs rfl
  | pop => exact returned _ (.inr (.rxPop ..))

theorem pulseStep_event (s : State) (p : PulsePos) : AtMostOneEvent s (s.pulseStep p) := by
  cases p with
  | low => exact setLevel_event s .reset false
  | hold => exact wait_event s _
  | high => exact setLevel_event s .reset true
  | settle => exact (wait_event s _).regs (pulseDone_control _).world

theorem startAttempt_event (s : State) : AtMostOneEvent s s.startAttempt :=
  pulseStep_event { s with attempt := s.attempt + 1 } .low

theorem bootStep_event (s : State) (p : Pos) : AtMostOneEvent s (s.bootStep p) := by
  unfold State.bootStep
  split
  · unfold State.configBoot
    dsimp only
    split
    · exact setDir_event s .boot
    · exact (setDir_event s .boot).regs (bootDone_control _ false).world
  · exact setLevel_event s .boot _
  · exact pulseStep_event s _
  · exact setDir_event s .reset

theorem nextBlock_event (s : State) (page : Stage) (after : St) :
    AtMostOneEvent s (s.nextBlock page after) := by
  have fetched : AtMostOneEvent s s.fetchBlock.1 := .inr (fetchBlock_world s ▸ .stoRead _)
  unfold State.nextBlock
  dsimp only
  split
  · split <;> exact fetched.regs rfl
  · exact .inl rfl

theorem sizeImage_event (s : State) : AtMostOneEvent s s.sizeImage := by
  have sized : AtMostOneEvent s (s.ask (World.stoSize s.cap)).1 := .inr .stoSize
  unfold State.sizeImage
  dsimp only
  split
  · exact sized.regs rfl
  · split <;> exact sized.regs rfl

/-- D33: a step of the sequence, from any state and position, makes one event or none. -/
theorem seqStep_event (s : State) : AtMostOneEvent s s.seqStep := by
  unfold State.seqStep
  split
  · exact .inl rfl
  · unfold State.validateConfig
    split <;> exact .inl rfl
  · unfold State.mountStorage
    dsimp only
    split <;> exact .inr .stoMount
  · split
    · exact sizeImage_event s
    · unfold State.openImage
      dsimp only
      split <;> exact .inr (.stoOpen _)
  · exact bootStep_event s _
  · split
    · unfold State.setPins
      dsimp only
      split <;> exact .inr (.uartSetPins _)
    · exact .inr (.uartConfigure ..)
  · split
    · exact startAttempt_event s
    · exact pulseStep_event s _
    · exact stageStep_event s _ _
    · exact wait_event s _
    · exact startAttempt_event { s with attempt := 0 }
  · split
    · exact stageStep_event s _ _
    · exact stageStep_event s .massEraseCmd .tx
  · split
    · exact nextBlock_event s _ _
    · exact stageStep_event s _ _
    · exact .inl rfl
  · split
    · exact nextBlock_event s _ _
    · exact stageStep_event s _ _
    · exact .inr .stoRewind
  · split
    · unfold State.startCleanup
      split
      · exact setDir_event s .reset
      · exact .inl rfl
    · unfold State.cleanupImage
      split
      · exact .inr .stoClose
      · exact .inr (.result _)
    · exact bootStep_event s _
  · exact .inl rfl

/-- Without a placed operation a step of the machine makes one event or none. -/
theorem step_event {s t : State} (slot : s.slot = none) (e : step s = .next t) : AtMostOneEvent s t := by
  obtain ⟨-, r⟩ | ⟨c, nm, -, -, r⟩ | ⟨-, r⟩ := step_cases s slot <;> cases r.symm.trans e
  · exact .inl rfl
  · exact .inl rfl
  · exact seqStep_event s.popInput

end Sys2Proof.Machine
end

section
/-!
PROOFS. What the trace tells of the environment (spec/20_memory.md R63, R64, R73): time, the TX stream and
`RXQ` after an operation or a step are those before it and what its events, recorded one by one in the trace,
make of them (`Recorded`).
-/
namespace Sys2Proof.Machine

/-! ### `RXQ`, event by event -/

/-- What an event says of `RXQ` as it is when the event happens. -/
def rxSeen (cap : Nat) (w : World) : Event → Prop
  | .rxLen _ n => n = (w.tick cap).rxq.length
  | .rxPop _ n bs => bs = (w.tick cap).rxq.take n
  | _ => True

/-- The environment after an event, as far as `RXQ` and the target's bytes are concerned. -/
def rxAfter (cap : Nat) (w : World) : Event → World
  | .rxPop _ n _ => { w.tick cap with rxq := (w.tick cap).rxq.drop n }
  | .result _ => w
  | _ => w.tick cap

theorem rxFollows_cons (cap : Nat) (w v : World) (e : Event) (later : List Event) :
    rxFollows cap w (e :: later) v ↔ rxSeen cap w e ∧ rxFollows cap (rxAfter cap w e) later v := by
  cases e with
  | rxLen | rxPop => exact Iff.rfl
  | _ => exact (and_iff_right trivial).symm

/-- Two environments with the same `RXQ` and the same bytes of the target still to come. -/
def SameRx (u w : World) : Prop := w.rxq = u.rxq ∧ w.arrivals = u.arrivals ∧ w.moment = u.moment

theorem tick_sameRx (cap : Nat) {u w : World} (h : SameRx u w) : SameRx (u.tick cap) (w.tick cap) := by
  obtain ⟨rxq, arrivals, moment⟩ := h
  simp [SameRx, rxq, arrivals, moment]

theorem rxAfter_sameRx (cap : Nat) {u w : World} (h : SameRx u w) (e : Event) :
    SameRx (rxAfter cap u e) (rxAfter cap w e) := by
  have ticked := tick_sameRx cap h
  cases e with
  | rxPop ch n bs =>
    obtain ⟨rxq, rest⟩ := ticked
    exact ⟨congrArg (List.drop n) rxq, rest⟩
  | result => exact h
  | _ => exact ticked

theorem rxSeen_sameRx (cap : Nat) {u w : World} (h : SameRx u w) {e : Event} (seen : rxSeen cap u e) :
    rxSeen cap w e := by
  obtain ⟨rxq, -⟩ := tick_sameRx cap h
  cases e with
  | rxLen | rxPop => rwa [rxSeen, rxq]
  | _ => trivial

theorem rxFollows_sameRx (cap : Nat) (v : World) (events : List Event) : ∀ {u w : World}, SameRx u w →
    rxFollows cap u events v → rxFollows cap w events v := by
  induction events with
  | nil =>
    rintro u w ⟨rxq, arrivals, moment⟩ ⟨rxq', arrivals', moment'⟩
    exact ⟨rxq'.trans rxq.symm, arrivals'.trans arrivals.symm, moment'.trans moment.symm⟩
  | cons e later ih =>
    intro u w h f
    obtain ⟨seen, f⟩ := (rxFollows_cons ..).mp f
    exact (rxFollows_cons ..).mpr ⟨rxSeen_sameRx cap h seen, ih (rxAfter_sameRx cap h e) f⟩

/-- Two runs of events, one after the other. -/
theorem rxFollows_append (cap : Nat) {v x : World} {later : List Event} (b : rxFollows cap v later x)
    (events : List Event) : ∀ {w : World}, rxFollows cap w events v →
    rxFollows cap w (events ++ later) x := by
  induction events with
  | nil =>
    rintro w ⟨rxq, arrivals, moment⟩
    exact rxFollows_sameRx cap x later ⟨rxq.symm, arrivals.symm, moment.symm⟩ b
  | cons e events ih =>
    intro w f
    obtain ⟨seen, f⟩ := (rxFollows_cons ..).mp f
    exact (rxFollows_cons ..).mpr ⟨seen, ih f⟩

theorem sentBytes_append (newer older : List Event) :
    sentBytes (newer ++ older) = sentBytes older ++ sentBytes newer := by
  induction newer with
  | nil => exact (List.append_nil _).symm
  | cons e newer ih =>
    cases e with
    | tx => rw [List.cons_append, sentBytes, ih, List.append_assoc, sentBytes]
    | _ => exact ih

theorem consumedBytes_append (newer older : List Event) :
    consumedBytes (newer ++ older) = consumedBytes older ++ consumedBytes newer := by
  induction newer with
  | nil => exact (List.append_nil _).symm
  | cons e newer ih =>
    cases e with
    | rxPop => rw [List.cons_append, consumedBytes, ih, List.append_assoc, consumedBytes]
    | _ => exact ih

/-- At an event bytes of the target enter `RXQ` behind those buffered, and what the event consumes is the
oldest (R157). -/
theorem rxAfter_conserves {cap : Nat} {w : World} {e : Event} (seen : rxSeen cap w e) :
    ∃ arrived, w.rxq ++ arrived = consumedBytes [e] ++ (rxAfter cap w e).rxq := by
  cases e with
  | rxPop ch n bs =>
    obtain rfl : bs = (w.tick cap).rxq.take n := seen
    exact ⟨_, (List.take_append_drop n (w.tick cap).rxq).symm⟩
  | result => exact ⟨[], List.append_nil _⟩
  | _ => exact ⟨_, rfl⟩

/-- What was buffered and then what arrived is what was consumed and then what is left. -/
theorem rxFollows_conserves {cap : Nat} {v : World} (events : List Event) : ∀ {w : World},
    rxFollows cap w events v →
    ∃ arrived, w.rxq ++ arrived = consumedBytes events.reverse ++ v.rxq := by
  induction events with
  | nil =>
    rintro w ⟨rxq, -⟩
    exact ⟨[], (List.append_nil _).trans rxq.symm⟩
  | cons e later ih =>
    intro w f
    obtain ⟨seen, f⟩ := (rxFollows_cons ..).mp f
    obtain ⟨first, h⟩ := rxAfter_conserves seen
    obtain ⟨rest, h'⟩ := ih f
    refine ⟨first ++ rest, ?_⟩
    calc w.rxq ++ (first ++ rest)
        = consumedBytes [e] ++ ((rxAfter cap w e).rxq ++ rest) := by
          rw [← List.append_assoc, h, List.append_assoc]
      _ = consumedBytes (e :: later).reverse ++ v.rxq := by
          rw [h', List.reverse_cons, consumedBytes_append, List.append_assoc]

/-! ### Every event is recorded -/

/-- The environment after a run of events, newest first, as they are recorded. -/
structure Recorded (cap : Nat) (w : World) (new : List Event) (v : World) : Prop where
  trace : v.trace = new ++ w.trace
  now : w.now ≤ v.now
  txlog : v.txlog = w.txlog ++ sentBytes new
  rx : rxFollows cap w new.reverse v

theorem Recorded.nil (cap : Nat) (w : World) : Recorded cap w [] w :=
  ⟨rfl, Nat.le_refl _, (List.append_nil _).symm, rfl, rfl, rfl⟩

theorem Recorded.append {cap : Nat} {u v w : World} {older newer : List Event}
    (a : Recorded cap u older v) (b : Recorded cap v newer w) : Recorded cap u (newer ++ older) w where
  trace := by rw [b.trace, a.trace, List.append_assoc]
  now := Nat.le_trans a.now b.now
  txlog := by rw [b.txlog, a.txlog, sentBytes_append, List.append_assoc]
  rx := by
    rw [List.reverse_append]
    exact rxFollows_append cap b.rx _ a.rx

/-- An event that takes no time, sends nothing and of `RXQ` does what `rxAfter` says. -/
theorem Recorded.quiet {cap : Nat} {w v : World} {e : Event} (trace : v.trace = e :: w.trace)
    (now : v.now = w.now) (txlog : v.txlog = w.txlog) (silent : sentBytes [e] = [])
    (seen : rxSeen cap w e) (after : SameRx (rxAfter cap w e) v) : Recorded cap w [e] v :=
  ⟨trace, now.ge, by rw [txlog, silent, List.append_nil], (rxFollows_cons ..).mpr ⟨seen, after⟩⟩

/-- An event is one entry of the trace, and that entry tells what it does. -/
theorem WorldEvent.recorded {cap : Nat} {w v : World} (h : WorldEvent cap w v) :
    ∃ e, Recorded cap w [e] v := by
  cases h with
  | wait n =>
    have later : w.now ≤ (World.wait cap n w).now :=
      Nat.le_trans (Nat.le_add_right _ _) (Nat.le_add_right _ _)
    exact ⟨_, rfl, later, (List.append_nil _).symm, rfl, rfl, rfl⟩
  | send ch bs => exact ⟨_, rfl, Nat.le_refl _, rfl, rfl, rfl, rfl⟩
  | rxLen | rxPop => exact ⟨_, .quiet rfl rfl rfl rfl rfl ⟨rfl, rfl, rfl⟩⟩
  | _ => exact ⟨_, .quiet rfl rfl rfl rfl trivial ⟨rfl, rfl, rfl⟩⟩

theorem worldRel_recorded (cap : Nat) : WorldRel cap fun w v => ∃ new, Recorded cap w new v :=
  .of_event (fun w => ⟨[], .nil cap w⟩) (fun _ _ _ ⟨_, a⟩ ⟨_, b⟩ => ⟨_, a.append b⟩)
    fun _ _ h => h.recorded.imp' _ fun _ r => r

theorem exec_recorded {s t : State} (i : Instr) (e : exec i s = .next t) :
    ∃ new, Recorded s.par.rxCapacity s.world new t.world :=
  (exec_worldRel (worldRel_recorded s.cap) i e).2

theorem step_recorded {s t : State} (e : step s = .next t) :
    ∃ new, Recorded s.par.rxCapacity s.world new t.world :=
  step_worldRel (worldRel_recorded s.cap) e

/-- Settles O44: what is recorded comes before the trace of before, and a step without a placed operation
makes one event or none. -/
theorem timeAndTraceOnlyGrow : Obligations.TimeAndTraceOnlyGrow := by
  have grows : ∀ {cap : Nat} {w v : World}, (∃ new, Recorded cap w new v) →
      w.now ≤ v.now ∧ w.trace <:+ v.trace := fun ⟨new, r⟩ => ⟨r.now, new, r.trace.symm⟩
  refine ⟨fun s t i e => grows (exec_recorded i e), fun s t e => grows (step_recorded e),
    fun s t slot e => ?_⟩
  rcases step_event slot e with same | one
  · exact .inl (congrArg World.trace same)
  · obtain ⟨event, r⟩ := one.recorded
    exact .inr ⟨event, r.trace⟩

/-- Settles O45: every event is recorded with the bytes it accepted. -/
theorem txStreamIsTheBytesAcceptedInOrder : Obligations.TxStreamIsTheBytesAcceptedInOrder := by
  refine ⟨fun s t i e => ?_, fun s t e => ?_⟩
  · obtain ⟨new, r⟩ := exec_recorded i e
    exact ⟨new, r.trace, r.txlog⟩
  · obtain ⟨new, r⟩ := step_recorded e
    exact ⟨new, r.trace, r.txlog⟩

/-- Settles O46: `RXQ` follows the recorded events, and no event loses a byte of it. -/
theorem onlyRxPopRemovesReceivedBytes : Obligations.OnlyRxPopRemovesReceivedBytes := by
  have conserves : ∀ {cap : Nat} {w v : World} {new : List Event}, Recorded cap w new v →
      ∃ arrived, w.rxq ++ arrived = consumedBytes new ++ v.rxq := fun {_ _ _ new} r => by
    simpa using rxFollows_conserves new.reverse r.rx
  refine ⟨fun s t i e => ?_, fun s t e => ?_⟩
  · obtain ⟨new, r⟩ := exec_recorded i e
    obtain ⟨arrived, h⟩ := conserves r
    exact ⟨new, arrived, r.trace, r.rx, h⟩
  · obtain ⟨new, r⟩ := step_recorded e
    obtain ⟨arrived, h⟩ := conserves r
    exact ⟨new, arrived, r.trace, r.rx, h⟩

end Sys2Proof.Machine
end

section
/-!
PROOFS. The image (spec/20_memory.md R62): nothing writes it, and `FETCH_BLOCK` reads it in order
(spec/45_orchestrator.md R274).
-/
namespace Sys2Proof.Machine

/-- Settles O43: no event writes the image. -/
theorem noOperationWritesTheImage : Obligations.NoOperationWritesTheImage := by
  refine ⟨fun s t i e a => ?_, fun s t e a => ?_⟩
  · obtain ⟨-, img⟩ := exec_worldRel (worldRel_img s.cap) i e
    rw [img]
  · rw [step_worldRel (worldRel_img s.cap) e]

/-- A provider that answers with the image returns its next bytes (R62). -/
theorem stoRead_image (cap n : Nat) {w : World} {answers : List (Option Bytes)}
    (reads : w.reads = none :: answers) :
    (World.stoRead cap n w).2 = (Memory.bytesFrom w.imgPos w.img).take n := by
  simp [World.stoRead, reads, draw]

/-- The read position advances by the bytes returned (log 12). -/
theorem stoRead_imgPos (cap n : Nat) (w : World) :
    (World.stoRead cap n w).1.imgPos = w.imgPos + (World.stoRead cap n w).2.length := rfl

/-- A read of the wanted length fills `BUF` and is `true` (R274). -/
theorem fetchBlock_of_wanted {s : State}
    (wanted : (World.stoRead s.cap s.par.block s.world).2.length = s.wantedBytes) :
    s.fetchBlock.2 = true
      ∧ s.fetchBlock.1.buf = padBlock s.par (World.stoRead s.cap s.par.block s.world).2 := by
  unfold State.fetchBlock
  dsimp only
  split
  · next other => exact absurd wanted other
  · exact ⟨rfl, rfl⟩

/-- Settles O29: the bytes the provider returns are as many as the block wants. -/
theorem fetchBlockReadsTheImageInOrder : Obligations.FetchBlockReadsTheImageInOrder := by
  intro s image answers ⟨_, block, _, pad, _⟩ img reads pos size _
  have read : (World.stoRead s.cap s.par.block s.world).2 = (image.drop (256 * s.blk.toNat)).take 256 := by
    rw [stoRead_image s.cap _ reads, img, pos, block, Memory.bytesFrom_ofBytes]
  have length : (World.stoRead s.cap s.par.block s.world).2.length
      = min 256 (image.length - 256 * s.blk.toNat) := by
    rw [read, List.length_take, List.length_drop]
  obtain ⟨ok, buf⟩ := fetchBlock_of_wanted (s := s) (by rw [length, State.wantedBytes, block, size])
  refine ⟨_, rfl, congrArg Ret.ok ok, ?_, ?_, ?_⟩
  · rw [State.returnOk_buf, buf, padBlock, length, read, block, pad]
  · rw [State.returnOk_world, fetchBlock_world, stoRead_imgPos, length, pos]
  · exact (fetchBlock_related (worldRel_img s.cap)).2

end Sys2Proof.Machine
end

section
/-!
PROOFS. The model's own slot (log 1, 15, 22): what is placed there is what the next step runs.
-/
namespace Sys2Proof.Machine

theorem step_of_frame {s : State} (input : s.input ≠ .rst) {ctx : Ctx} {bs : Bytes}
    (slot : s.slot = some (.frame ctx bs)) {i : Instr} (d : decode s.par ctx bs = .ok i) :
    step s = exec i s.takeSlot := by
  simp [step, select, slot, d]

theorem step_of_rejected {s : State} (input : s.input ≠ .rst) {ctx : Ctx} {bs : Bytes}
    (slot : s.slot = some (.frame ctx bs)) {why : Reject} (d : decode s.par ctx bs = .error why) :
    step s = .fault (.notAFrame why) := by
  simp [step, select, slot, d]

theorem step_of_oper {s : State} (input : s.input ≠ .rst) {i : Instr} (slot : s.slot = some (.oper i)) :
    step s = exec i s.takeSlot := by
  simp [step, select, slot]

/-- The decoder reads four parameters. -/
theorem decode_congr {p q : Params} (ack : p.ack = q.ack) (block : p.block = q.block)
    (lenInd : p.lenInd = q.lenInd) (seed : p.pageCsumSeed = q.pageCsumSeed) (ctx : Ctx) (bs : Bytes) :
    decode p ctx bs = decode q ctx bs := by
  cases p
  cases q
  cases ack
  cases block
  cases lenInd
  cases seed
  rfl

/-- A table word is decoded as its bytes are, with the reference parameters. -/
theorem decodeTableWord_eq_some {nbits w : Nat} {i : Instr} (h : decodeTableWord nbits w = some i) :
    decode Config.reference .afterMassErase (tableBytes (nbits / 8) w) = .ok i := by
  unfold decodeTableWord at h
  split at h
  · next d => rw [d, Option.some.inj h]
  · cases h

/-- Settles O60: the choice of the step, and a machine with the parameters R6 states decodes as the table is
read. -/
theorem stepRunsThePlacedOperation : Obligations.StepRunsThePlacedOperation := by
  refine ⟨fun s input => ⟨fun _ _ _ slot d => step_of_frame input slot d,
    fun _ slot => step_of_oper input slot, fun _ _ _ slot d => step_of_rejected input slot d⟩, ?_⟩
  intro s nbits w i ⟨ack, block, lenInd, _⟩ seed h
  have d : decode s.par .afterMassErase (tableBytes (nbits / 8) w) = .ok i :=
    (decode_congr ack block lenInd seed _ _).trans (decodeTableWord_eq_some h)
  have input : (s.withFetchWord nbits w).input = .none := rfl
  exact step_of_frame (s := s.withFetchWord nbits w) (by simp [input]) rfl d

end Sys2Proof.Machine
end

section
/-!
PROOFS. The wire encoding (spec/30_encoding.md R90 to R105): a row with bytes of its own and those bytes, said
once for the encoder (`encode_eq_some_iff`) and once for the decoder (`WireRow.decode_eq`,
`wireRow_of_decode`), so that the two round trips are read off the same eight forms.
-/
namespace Sys2Proof

/-- The rows of the table with bytes of their own, by the format of the bytes (R91 to R97, R101, R102). -/
inductive WireRow (par : Params) : Instr → Bytes → Prop
  | sync : WireRow par .sync syncFrame
  | command (op : Byte) (i : Instr) (row : (op, i) ∈ commandRows) : WireRow par i (cmdFrame op)
  | eraseParam : WireRow par .massEraseParam (paramFrame Config.eraseAll)
  | pageLen : WireRow par .pageReadLen (paramFrame par.lenInd)
  | xparam : WireRow par .extEraseParam xparamFrame
  | addr (a : Addr) : WireRow par (.loadAddr a) (addrFrame a)
  | data (p : Bytes) : WireRow par (.pageWriteData p) (dataFrame par p)
  | ack : WireRow par .ack [par.ack]

/-! ### The F-CMD rows -/

/-- A case for each F-CMD row of the table. -/
theorem commandRow_cases {motive : ∀ op i, (op, i) ∈ commandRows → Prop}
    (get : motive 0x00 .get (by decide)) (getver : motive 0x01 .getver (by decide))
    (getid : motive 0x02 .getid (by decide)) (massErase : motive 0x43 .massEraseCmd (by decide))
    (extErase : motive 0x44 .extEraseCmd (by decide)) (writeMem : motive 0x31 .writeMem (by decide))
    (readMem : motive 0x11 .readMem (by decide)) (op : Byte) (i : Instr) (row : (op, i) ∈ commandRows) :
    motive op i row := by
  have rows := row
  simp only [commandRows, List.mem_cons, Prod.mk.injEq, List.not_mem_nil, or_false] at rows
  rcases rows with ⟨rfl, rfl⟩ | ⟨rfl, rfl⟩ | ⟨rfl, rfl⟩ | ⟨rfl, rfl⟩ | ⟨rfl, rfl⟩ | ⟨rfl, rfl⟩ | ⟨rfl, rfl⟩
  exacts [get, getver, getid, massErase, extErase, writeMem, readMem]

theorem commandRow_encode {op : Byte} {i : Instr} (row : (op, i) ∈ commandRows) (par : Params) :
    encode par i = some (cmdFrame op) := by
  cases op, i, row using commandRow_cases <;> rfl

theorem commandRow_wf {op : Byte} {i : Instr} (row : (op, i) ∈ commandRows) : i.wf = true := by
  cases op, i, row using commandRow_cases <;> rfl

theorem commandRow_ctxOf {op : Byte} {i : Instr} (row : (op, i) ∈ commandRows) :
    ctxOf i = .afterMassErase := by
  cases op, i, row using commandRow_cases <;> rfl

/-- The opcodes of the table are distinct, and none of them is the parameter FF. -/
theorem commandRow_decodeOpcode {op : Byte} {i : Instr} (row : (op, i) ∈ commandRows) (par : Params) :
    decodeOpcode par .afterMassErase op = .ok i := by
  cases op, i, row using commandRow_cases <;> rfl

/-! ### The encoder -/

theorem wireRow_of_encode {par : Params} {i : Instr} {bs : Bytes} (e : encode par i = some bs) :
    WireRow par i bs := by
  cases i <;> cases e
  case sync => exact .sync
  case massEraseParam => exact .eraseParam
  case pageReadLen => exact .pageLen
  case extEraseParam => exact .xparam
  case loadAddr a => exact .addr a
  case pageWriteData p => exact .data p
  case ack => exact .ack
  all_goals exact .command _ _ (by decide)

theorem WireRow.encode_eq {par : Params} {i : Instr} {bs : Bytes} (w : WireRow par i bs) :
    encode par i = some bs := by
  cases w with
  | command _ _ row => exact commandRow_encode row par
  | _ => rfl

theorem encode_eq_some_iff {par : Params} {i : Instr} {bs : Bytes} :
    encode par i = some bs ↔ WireRow par i bs :=
  ⟨wireRow_of_encode, WireRow.encode_eq⟩

/-! ### The decoder, format by format -/

theorem decode_cmdFrame (par : Params) (ctx : Ctx) (op : Byte) :
    decode par ctx (cmdFrame op) = decodeOpcode par ctx op := if_pos rfl

theorem decode_paramFrame (par : Params) (ctx : Ctx) (n : Byte) :
    decode par ctx (paramFrame n) = decodeOpcode par ctx n := decode_cmdFrame par ctx n

theorem decode_addrFrame (par : Params) (ctx : Ctx) (a : Addr) :
    decode par ctx (addrFrame a) = .ok (.loadAddr a) := if_pos rfl

/-- Six bytes or more have the format F-DATA or none (R90). -/
theorem decode_of_long (par : Params) (ctx : Ctx) (b : Byte) {rest : Bytes} (long : 5 ≤ rest.length) :
    decode par ctx (b :: rest) = decodeData par b rest := by
  match rest, long with
  | _ :: _ :: _ :: _ :: _ :: _, _ => rfl

theorem decodeData_dataFrame {par : Params} {p : Bytes} (length : p.length = par.block) :
    decodeData par par.lenInd (p ++ [dataChecksum par p]) = .ok (.pageWriteData p) := by
  have payload : (p ++ [dataChecksum par p]).take par.block = p := by simp [← length]
  have checksum : (p ++ [dataChecksum par p]).drop par.block = [dataChecksum par p] := by simp [← length]
  simp [decodeData, payload, checksum, length]

theorem decode_ack {par : Params} (ctx : Ctx) (ack : par.ack ≠ Config.syncByte) :
    decode par ctx [par.ack] = .ok .ack := (if_neg ack).trans (if_pos rfl)

/-- What a well-formed row puts on the wire is read back at the row's position. -/
theorem WireRow.decode_eq {par : Params} {i : Instr} {bs : Bytes} (stated : par.asStated) (wf : i.wf = true)
    (w : WireRow par i bs) : decode par (ctxOf i) bs = .ok i := by
  obtain ⟨ack, block, -⟩ := stated
  cases w with
  | sync => rfl
  | command _ _ row =>
    rw [commandRow_ctxOf row, decode_cmdFrame, commandRow_decodeOpcode row]
  | eraseParam => rw [decode_paramFrame]; rfl
  | pageLen => rw [decode_paramFrame]; exact if_pos rfl
  | xparam => rfl
  | addr a => exact decode_addrFrame par _ a
  | data p =>
    have length : p.length = par.block := by rw [block]; exact beq_iff_eq.mp wf
    have long : 5 ≤ (p ++ [dataChecksum par p]).length := by simp [length, block]
    rw [dataFrame, decode_of_long _ _ _ long, decodeData_dataFrame length]
  | ack => exact decode_ack _ (by rw [ack]; decide)

/-! ### What the decoder accepts -/

theorem commandRow_of_decodeCommand {op : Byte} {i : Instr} (d : decodeCommand op = .ok i) :
    (op, i) ∈ commandRows := by
  unfold decodeCommand at d
  split at d
  · next r found =>
    obtain rfl : r.2 = i := Except.ok.inj d
    obtain rfl : r.1 = op := by simpa using List.find?_some found
    exact List.mem_of_find?_eq_some found
  · cases d

/-- A two-byte frame is the parameter of its position or a command. -/
theorem wireRow_of_decodeOpcode {par : Params} {ctx : Ctx} {a : Byte} {i : Instr}
    (d : decodeOpcode par ctx a = .ok i) : WireRow par i (cmdFrame a) ∧ i.wf = true := by
  have command (d : decodeCommand a = .ok i) : WireRow par i (cmdFrame a) ∧ i.wf = true :=
    have row := commandRow_of_decodeCommand d
    ⟨.command _ _ row, commandRow_wf row⟩
  unfold decodeOpcode at d
  cases ctx with
  | afterMassErase =>
    dsimp only at d
    split at d
    · next e => cases d; rw [e]; exact ⟨.eraseParam, rfl⟩
    · exact command d
  | afterReadMem =>
    dsimp only at d
    split at d
    · next e => cases d; rw [e]; exact ⟨.pageLen, rfl⟩
    · exact command d

/-- A data frame is cut into its payload and its checksum without a rest. -/
theorem wireRow_of_decodeData {par : Params} {b : Byte} {rest : Bytes} {i : Instr}
    (block : par.block = Config.block) (d : decodeData par b rest = .ok i) :
    WireRow par i (b :: rest) ∧ i.wf = true := by
  unfold decodeData at d
  split at d
  · next length =>
    split at d
    · next lenInd =>
      split at d
      · next checksum =>
        cases d
        have frame : b :: rest = dataFrame par (rest.take par.block) := by
          rw [dataFrame, ← checksum, List.take_append_drop, lenInd]
        rw [frame]
        refine ⟨.data _, beq_iff_eq.mpr ?_⟩
        rw [List.length_take, length, block]
        rfl
      · cases d
    · cases d
  · cases d

/-- By the length of the bytes: none, one, two, three, five, any other. -/
theorem wireRow_of_decode {par : Params} {ctx : Ctx} {bs : Bytes} {i : Instr} (stated : par.asStated)
    (d : decode par ctx bs = .ok i) : WireRow par i bs ∧ i.wf = true := by
  obtain ⟨-, block, -⟩ := stated
  unfold decode at d
  split at d
  · cases d
  · split at d
    · next e => cases d; rw [e]; exact ⟨.sync, rfl⟩
    · split at d
      · next e => cases d; rw [e]; exact ⟨.ack, rfl⟩
      · cases d
  · split at d
    · next e => rw [e]; exact wireRow_of_decodeOpcode d
    · cases d
  · split at d
    · next e => cases d; rw [e]; exact ⟨.xparam, rfl⟩
    · cases d
  · split at d
    · next e => cases d; rw [e]; exact ⟨.addr _, rfl⟩
    · cases d
  · exact wireRow_of_decodeData block d

/-- Settles O56: every format is read back at its position. -/
theorem decodeOfEncodeIsTheRow : Obligations.DecodeOfEncodeIsTheRow := fun _ _ _ stated wf e =>
  (encode_eq_some_iff.mp e).decode_eq stated wf

/-- Settles O57: what the decoder accepts has one of the formats, whose encoding those bytes are. -/
theorem encodeOfDecodeIsTheBytes : Obligations.EncodeOfDecodeIsTheBytes := by
  intro par ctx bs i stated d
  obtain ⟨w, wf⟩ := wireRow_of_decode stated d
  exact ⟨encode_eq_some_iff.mpr w, wf⟩

/-- Settles O58: each word is evaluated. -/
theorem tableWordsDecodeToTheirRows : Obligations.TableWordsDecodeToTheirRows :=
  ⟨rfl, rfl, rfl, rfl, rfl, rfl, rfl, rfl, rfl, rfl, rfl⟩

end Sys2Proof
end

section
/-!
PROOFS. What a transmitted row sends (spec/30_encoding.md R102, spec/41_transport.md R150): a row is an
exchange of its bytes (`exec_wireRow`), and an exchange sends first and then only receives
(`exchange_sendsFirst`).
-/
namespace Sys2Proof.Machine

/-- The oldest new event is one `Tx` of `bs`, and the TX stream grew by the accepted bytes of it alone. -/
def SendsFirst (bs : Bytes) (s t : State) : Prop :=
  ∃ c later, t.world.trace = later ++ .tx s.cfg.ch bs c :: s.world.trace
    ∧ c ≤ bs.length ∧ t.world.txlog = s.world.txlog ++ bs.take c

theorem send_sendsFirst (s : State) (bs : Bytes) : SendsFirst bs s (s.send bs).1 := by
  obtain ⟨_, le, -, txlog, trace, -⟩ := send_effect s bs
  exact ⟨_, [], trace, le, txlog⟩

/-- Events after the `Tx` that send nothing. -/
theorem SendsFirst.receive {bs : Bytes} {s u t : State} (first : SendsFirst bs s u) {new : List Event}
    (trace : t.world.trace = new ++ u.world.trace) (txlog : t.world.txlog = u.world.txlog) :
    SendsFirst bs s t := by
  obtain ⟨c, later, sent, le, grown⟩ := first
  exact ⟨c, new ++ later, by rw [trace, sent, List.append_assoc], le, by rw [txlog, grown]⟩

theorem awaitBytes_sendsFirst {bs : Bytes} {s u : State} (first : SendsFirst bs s u) (n T : Nat) :
    SendsFirst bs s (u.awaitBytes n T).1 := by
  obtain ⟨_, _, trace, -, txlog, -⟩ := awaitBytes_effect u n T
  exact first.receive trace txlog

theorem takeResponse_sendsFirst {bs : Bytes} {s u : State} (first : SendsFirst bs s u) (n : Nat) :
    SendsFirst bs s (u.takeResponse n).1 :=
  first.receive (new := [.rxPop u.cfg.ch n (u.readExact n).2]) rfl rfl

/-- An exchange sends its frame and then nothing (R154). -/
theorem exchange_sendsFirst (s : State) (bs : Bytes) (n : Nat) : SendsFirst bs s (s.exchange bs n).1 := by
  have sent := send_sendsFirst s bs
  unfold State.exchange
  dsimp only
  split
  · exact sent
  · have waited := awaitBytes_sendsFirst sent n (s.send bs).1.par.timeout
    split
    · exact waited
    · exact takeResponse_sendsFirst waited n

/-- A transmitted row is one exchange of its bytes, after the checksum of a frame that has one is left in
`CSUM` (R200 to R210). -/
theorem exec_wireRow {s : State} {i : Instr} {bs : Bytes} (w : WireRow s.par i bs) (received : i ≠ .ack) :
    ∃ csum n, exec i s = .next (State.returnOk (({ s with csum := csum } : State).exchange bs n)) := by
  cases w with
  | command op i row =>
    cases op, i, row using commandRow_cases <;> exact ⟨s.csum, _, rfl⟩
  | addr a => exact ⟨xorFold 0x00 a.bytes, _, rfl⟩
  | data p => exact ⟨dataChecksum s.par p, _, rfl⟩
  | ack => exact absurd rfl received
  | sync | eraseParam | pageLen | xparam => exact ⟨s.csum, _, rfl⟩

/-- Settles O59: a transmitted row is an exchange, which sends first. -/
theorem transmittedRowsSendTheirEncoding : Obligations.TransmittedRowsSendTheirEncoding := by
  intro s i bs received e
  obtain ⟨csum, n, run⟩ := exec_wireRow (encode_eq_some_iff.mp e) received
  obtain ⟨c, later, sent⟩ := exchange_sendsFirst ({ s with csum := csum } : State) bs n
  exact ⟨_, c, later, run, sent⟩

end Sys2Proof.Machine
end

section
/-!
PROOFS. The boot-mode operations (spec/40_bootmode.md R130 to R133): the effect of one `SetDir` and one
`SetLevel`, of `CONFIG_LINES` and `RESET_PULSE` made of them (`configLines_effect`, `resetPulse_effect`), and
of the form `ENTER_BL` and `EXIT_BL` share (`bootMode_succeeds`, `bootMode_fails`).
-/
namespace Sys2Proof.Machine

/-- One `SetDir`: it writes no register, no time passes (R39(c)), and a scripted answer is the answer. -/
theorem setDir_effect (s : State) (line : Line) :
    (s.setDir line).1 = { s with world := (s.setDir line).1.world }
      ∧ (s.setDir line).1.world.trace
        = .setDir line (s.lineId line) (s.setDir line).2 :: s.world.trace
      ∧ (s.setDir line).1.world.now = s.world.now
      ∧ ∀ a rest, s.world.dirOk = a :: rest →
        (s.setDir line).2 = a ∧ (s.setDir line).1.world.dirOk = rest := by
  refine ⟨rfl, rfl, rfl, fun a rest script => ⟨?_, ?_⟩⟩
  · simp [State.setDir, State.ask, World.setDir, draw, script]
  · simp [State.setDir, State.ask, World.setDir, script]

/-- One `SetLevel`: one event, no time passes, nothing leaves `RXQ` (R35). -/
theorem setLevel_effect (s : State) (line : Line) (v : Bool) :
    (s.setLevel line v).world.trace = .setLevel line (s.lineId line) v :: s.world.trace
      ∧ (s.setLevel line v).world.now = s.world.now
      ∧ s.world.rxq <+: (s.setLevel line v).world.rxq := by
  rw [State.setLevel_world]
  exact ⟨rfl, rfl, _, rfl⟩

/-- Driving the boot-mode line writes `BOOT_SEL` and no other register (R35). -/
theorem setLevel_boot_frame (s : State) (v : Bool) :
    s.setLevel .boot v = { s with world := (s.setLevel .boot v).world, bootSel := v } := rfl

/-- `CONFIG_LINES` (R133): the reset line first, then the boot-mode line whatever the first answer. -/
theorem configLines_effect (s : State) : ∃ ok1 ok2,
    s.configLines.2 = (ok1 && ok2)
      ∧ s.configLines.1 = { s with world := s.configLines.1.world }
      ∧ s.configLines.1.world.trace
        = .setDir .boot s.cfg.boot ok2 :: .setDir .reset s.cfg.reset ok1 :: s.world.trace
      ∧ s.configLines.1.world.now = s.world.now
      ∧ ∀ a b rest, s.world.dirOk = a :: b :: rest → ok1 = a ∧ ok2 = b := by
  unfold State.configLines
  dsimp only
  obtain ⟨regs1, trace1, now1, answer1⟩ := setDir_effect s .reset
  generalize s.setDir .reset = r at regs1 trace1 now1 answer1 ⊢
  obtain ⟨regs2, trace2, now2, answer2⟩ := setDir_effect r.1 .boot
  have boot : r.1.lineId .boot = s.cfg.boot := by rw [regs1]; rfl
  refine ⟨r.2, (r.1.setDir .boot).2, rfl, ?_, ?_, now2.trans now1, fun a b rest script => ?_⟩
  · rw [regs2, regs1]
  · rw [trace2, trace1, boot]; rfl
  · obtain ⟨first, left⟩ := answer1 a _ script
    exact ⟨first, (answer2 b rest left).1⟩

/-- Half a pulse: the reset line is driven, and the level held for at least `n`. -/
theorem heldLevel_effect (s : State) (v : Bool) (n : Nat) :
    (s.setLevel .reset v).wait n = { s with world := ((s.setLevel .reset v).wait n).world, nrst := v }
      ∧ ((s.setLevel .reset v).wait n).world.trace
        = .wait n :: .setLevel .reset s.cfg.reset v :: s.world.trace
      ∧ s.world.now + n ≤ ((s.setLevel .reset v).wait n).world.now
      ∧ s.world.rxq <+: ((s.setLevel .reset v).wait n).world.rxq := by
  obtain ⟨trace1, now1, rxq1⟩ := setLevel_effect s .reset v
  obtain ⟨_, rxq2, trace2, -, now2, -⟩ := wait_effect (s.setLevel .reset v) n
  exact ⟨rfl, trace2.trans (congrArg _ trace1), now1 ▸ now2, rxq1.trans ⟨_, rxq2.symm⟩⟩

/-- `RESET_PULSE` (R130) is its two halves: low and a wait, high and a wait. -/
theorem resetPulse_effect (s : State) :
    s.resetPulse = { s with world := s.resetPulse.world, nrst := true }
      ∧ s.resetPulse.world.trace = .wait s.par.tSettle :: .setLevel .reset s.cfg.reset true
        :: .wait s.par.tResetLow :: .setLevel .reset s.cfg.reset false :: s.world.trace
      ∧ s.world.now + s.par.tResetLow + s.par.tSettle ≤ s.resetPulse.world.now
      ∧ s.world.rxq <+: s.resetPulse.world.rxq := by
  unfold State.resetPulse
  dsimp only
  obtain ⟨low, trace1, now1, rxq1⟩ := heldLevel_effect s false s.par.tResetLow
  generalize (s.setLevel .reset false).wait s.par.tResetLow = u at low trace1 now1 rxq1 ⊢
  obtain ⟨high, trace2, now2, rxq2⟩ := heldLevel_effect u true s.par.tSettle
  refine ⟨?_, ?_, (Nat.add_le_add_right now1 _).trans now2, rxq1.trans rxq2⟩
  · rw [high, low]
  · rw [trace2, trace1, low]

/-- Where both calls answer true, the boot-mode line is driven and then the reset pulsed (R131, R132). -/
theorem bootMode_succeeds {s : State} (level : Bool) (ok : s.configLines.2 = true) :
    (s.bootMode level).2 = true
      ∧ (s.bootMode level).1
        = { s with world := (s.bootMode level).1.world, bootSel := level, nrst := true }
      ∧ (s.bootMode level).1.world.trace
        = .wait s.par.tSettle :: .setLevel .reset s.cfg.reset true
          :: .wait s.par.tResetLow :: .setLevel .reset s.cfg.reset false
          :: .setLevel .boot s.cfg.boot level :: s.configLines.1.world.trace
      ∧ s.configLines.1.world.now + s.par.tResetLow + s.par.tSettle
        ≤ (s.bootMode level).1.world.now := by
  have run : s.bootMode level = ((s.configLines.1.setLevel .boot level).resetPulse, true) := by
    simp [State.bootMode, ok]
  rw [run]
  obtain ⟨trace1, now1, -⟩ := setLevel_effect s.configLines.1 .boot level
  have driven := setLevel_boot_frame s.configLines.1 level
  generalize s.configLines.1.setLevel .boot level = u at driven trace1 now1 ⊢
  have par : u.par = s.par := by rw [driven]; rfl
  have cfg : u.cfg = s.cfg := by rw [driven]; rfl
  obtain ⟨pulsed, trace2, now2, -⟩ := resetPulse_effect u
  rw [par, now1] at now2
  refine ⟨rfl, ?_, ?_, now2⟩
  · rw [pulsed, driven]; rfl
  · rw [trace2, trace1, par, cfg]; rfl

/-- Where a call answers false, nothing follows the configuration (R131, R132). -/
theorem bootMode_fails {s : State} (level : Bool) (failed : s.configLines.2 = false) :
    s.bootMode level = (s.configLines.1, false) := by
  simp [State.bootMode, failed]

/-- Settles O9: the effect of `CONFIG_LINES`, whose answer is the value returned. -/
theorem configLinesAlwaysMakesBothCalls : Obligations.ConfigLinesAlwaysMakesBothCalls := by
  intro s
  obtain ⟨ok1, ok2, answer, regs, trace, now, scripted⟩ := configLines_effect s
  exact ⟨_, ok1, ok2, rfl, congrArg Ret.ok answer, trace, now,
    congrArg (State.setRet · (.ok s.configLines.2)) regs, scripted⟩

/-- Settles O10: the effect of `RESET_PULSE`, which returns nothing. -/
theorem resetPulseDrivesTheResetLineOnly : Obligations.ResetPulseDrivesTheResetLineOnly := by
  intro s
  obtain ⟨regs, trace, now, rxq⟩ := resetPulse_effect s
  exact ⟨_, rfl, trace, now, rxq, congrArg (State.setRet · .none) regs⟩

/-- `ENTER_BL` and `EXIT_BL` are one operation with the level as its operand. -/
theorem exec_bootMode {i : Instr} {level : Bool}
    (h : i = .enterBl ∧ level = true ∨ i = .exitBl ∧ level = false) (s : State) :
    exec i s = .next (State.returnOk (s.bootMode level)) := by
  obtain ⟨rfl, rfl⟩ | ⟨rfl, rfl⟩ := h <;> rfl

/-- Settles O11: by the conjunction of the two answers of `CONFIG_LINES`. -/
theorem bootModeIsDrivenBeforeThePulse : Obligations.BootModeIsDrivenBeforeThePulse := by
  intro s i level h
  obtain ⟨ok1, ok2, answer, regs, trace, now, scripted⟩ := configLines_effect s
  refine ⟨_, ok1, ok2, exec_bootMode h s, ?_⟩
  cases both : ok1 && ok2 with
  | true =>
    obtain ⟨ok, frame, events, time⟩ := bootMode_succeeds level (answer.trans both)
    exact ⟨congrArg Ret.ok ok, scripted, congrArg (State.setRet · (.ok (s.bootMode level).2)) frame,
      events.trans (by rw [trace]), now ▸ time⟩
  | false =>
    rw [bootMode_fails level (answer.trans both)]
    exact ⟨rfl, scripted, congrArg (State.setRet · (.ok false)) regs, trace, now⟩

end Sys2Proof.Machine
end

section
/-!
PROOFS. The transport (spec/41_transport.md R150 to R154): `SEND`, `AWAIT` and `READEXACT` are read off their
effects, an `EXCHANGE` off its three ends and the record of its events (`exchange_rxFollows`); where the
response is there at the first poll, the exchange is its `SEND`, one poll and one `READEXACT`
(`awaitBytes_of_buffered`, `exchange_of_buffered`).
-/
namespace Sys2Proof.Machine

/-! ### Scripted answers (log 3) -/

/-- A scripted count is the count, cut to the length offered. -/
theorem send_scripted {s : State} {c : Nat} {counts : List Nat} (script : s.world.txCount = c :: counts)
    (bs : Bytes) : (s.send bs).2 = min c bs.length := by
  simp [State.send, State.ask, World.send, draw, script]

/-- A scripted batch that fits the buffer is in it at the event. -/
theorem tick_scripted {cap : Nat} {w : World} {batch : Bytes} {later : List Bytes}
    (script : w.arrivals = batch :: later) (fits : (w.rxq ++ batch).length ≤ cap) :
    (w.tick cap).rxq = w.rxq ++ batch := by
  rw [List.length_append] at fits
  have room : batch.length ≤ cap - w.rxq.length := by omega
  simp [script, draw, admitted, room]

/-! ### A response at the first poll (R151, R154) -/

/-- Where `AWAIT` ends with its first poll: the timer at 0, the length seen in `LOBS` (log 30). -/
def State.firstPolled (s : State) : State :=
  { s.rxLen.1 with elapsed := 0, lobs := BitVec.ofNat 16 s.rxLen.2 }

/-- With `n` bytes buffered at the first poll, that poll is the whole of `AWAIT`. -/
theorem awaitBytes_of_buffered {s : State} {n : Nat} (buffered : n ≤ s.rxLen.2) (T : Nat) :
    s.awaitBytes n T = (s.firstPolled, s.rxLen.2) := by
  have seen : ({ s with elapsed := 0 } : State).poll n T = (s.firstPolled, some s.rxLen.2) :=
    if_pos buffered
  simp only [State.awaitBytes, State.awaitLoop, seen]

/-- A frame sent whole and a response there at the first poll: what is left of the exchange is to read it. -/
theorem exchange_of_buffered {s : State} {bs : Bytes} {n : Nat} (pos : 1 ≤ n)
    (whole : (s.send bs).2 = bs.length) (buffered : n ≤ (s.send bs).1.rxLen.2) :
    s.exchange bs n = (s.send bs).1.firstPolled.takeResponse n := by
  unfold State.exchange
  dsimp only
  rw [if_neg (not_not_intro whole), awaitBytes_of_buffered buffered]
  exact if_neg (by dsimp only; omega)

/-- The response read: exactly `n` bytes leave `RXQ`, and the oldest of them decides. -/
theorem takeResponse_effect {s : State} {n : Nat} (pos : 1 ≤ n) (buffered : n ≤ s.world.rxq.length)
    (le : n ≤ Config.rspBytes) (rsp : s.rsp.length = Config.rspBytes) :
    (s.takeResponse n).2 = (s.world.rxq.headD 0 == s.par.ack)
      ∧ (s.takeResponse n).1.rsp = s.world.rxq.take n ++ s.rsp.drop n
      ∧ s.world.rxq.drop n <+: (s.takeResponse n).1.world.rxq := by
  obtain ⟨arrived, taken, kept, rxq, -⟩ := readExact_effect s n buffered le rsp
  have oldest : (s.world.rxq.take n).headD 0 = s.world.rxq.headD 0 := by
    rw [List.headD_eq_head?_getD, List.head?_take, if_neg (by omega), ← List.headD_eq_head?_getD]
  refine ⟨?_, kept, arrived, rxq.symm⟩
  show ((s.readExact n).2.headD 0 == s.par.ack) = _
  rw [taken, oldest]

/-! ### The events of an exchange (R154, R157) -/

/-- `RXQ` follows the events an exchange adds to the trace. -/
theorem exchange_rxFollows {s : State} {bs : Bytes} {n : Nat} {new : List Event}
    (trace : (s.exchange bs n).1.world.trace = new ++ s.world.trace) :
    rxFollows s.par.rxCapacity s.world new.reverse (s.exchange bs n).1.world := by
  obtain ⟨-, recorded, r⟩ := exchange_related (worldRel_recorded s.cap) bs n
  obtain rfl : recorded = new := List.append_cancel_right (r.trace.symm.trans trace)
  exact r.rx

/-! ### Classification (R153) -/

/-- `CLASSIFY` returns what the comparison with `ACK` says, and writes nothing else. -/
theorem exec_classify {s : State} {b : Byte} {ok : Bool} (h : isAck s.par b = ok) :
    exec (.classify b) s = .next { s with ret := .ok ok } := h ▸ rfl

/-! ### The obligations -/

/-- Settles O16: the three ends of an exchange, with the events each adds to the trace. -/
theorem exchangeEndsInMismatchTimeoutOrResponse : Obligations.ExchangeEndsInMismatchTimeoutOrResponse := by
  intro s bs n pos le rsp ack interval bound
  obtain ⟨c, cle, txcnt, txlog, ends⟩ := exchange_effect s bs n pos le rsp
  have ret : Ret.ok (s.exchange bs n).2 = Ret.ok (s.exchange bs n).1.xok :=
    congrArg Ret.ok (exchange_xok s bs n).symm
  have frame : OnlyTransport s (State.returnOk (s.exchange bs n)) := (exchange_frame s bs n).trans rfl
  rcases ends with ⟨short, failed, kept, rxq, trace⟩
    | ⟨whole, failed, lobs, kept, rxq, late, polls, trace, seen⟩
    | ⟨whole, polls, response, length, taken, -, decided, trace, seen⟩
  · exact ⟨_, c, [.tx s.cfg.ch bs c], rfl, ret, txcnt, cle, txlog, frame, trace, exchange_rxFollows trace,
      .inl ⟨short, (exchange_xok s bs n).trans failed, kept, rxq, rfl⟩⟩
  · have events : (s.exchange bs n).1.world.trace = (polls ++ [.tx s.cfg.ch bs c]) ++ s.world.trace := by
      rw [trace, List.append_assoc, List.singleton_append]
    obtain ⟨few, time⟩ := late interval bound
    exact ⟨_, c, _, rfl, ret, txcnt, cle, txlog, frame, events, exchange_rxFollows events,
      .inr (.inl ⟨whole, (exchange_xok s bs n).trans failed, lobs, kept, rxq, few, time, polls, rfl, seen⟩)⟩
  · have events : (s.exchange bs n).1.world.trace
        = (.rxPop s.cfg.ch n response :: (polls ++ [.tx s.cfg.ch bs c])) ++ s.world.trace := by
      rw [trace, List.cons_append, List.append_assoc, List.singleton_append]
    rw [ack] at decided
    exact ⟨_, c, _, rfl, ret, txcnt, cle, txlog, frame, events, exchange_rxFollows events,
      .inr (.inr ⟨whole, polls, response, length, rfl, seen, taken, (exchange_xok s bs n).trans decided⟩)⟩

/-- Settles O13: what the poll loop of `AWAIT` leaves, and when it ends. -/
theorem awaitReturnsLengthOrZeroOnTimeout : Obligations.AwaitReturnsLengthOrZeroOnTimeout := by
  intro s n T pos interval bound
  obtain ⟨new, arrived, trace, rxq, txlog, lobs, observed, events⟩ := awaitBytes_effect s n T
  obtain ⟨below, late, time⟩ := awaitBytes_ends s n T pos interval bound
  exact ⟨_, _, new, rfl, rfl, lobs, observed.imp_right And.left,
    fun nonzero => (observed.resolve_left nonzero).2, trace, events pos, late, below, time, ⟨arrived, rxq.symm⟩,
    txlog, congrArg (State.setRet · (.count (s.awaitBytes n T).2)) (awaitBytes_only s n T)⟩

/-- Settles O14: with enough bytes the effect of `READEXACT`, with fewer its refusal. -/
theorem readExactTakesTheOldestBytes : Obligations.ReadExactTakesTheOldestBytes := by
  refine fun s n => ⟨fun buffered le rsp => ?_, fun short => if_pos short⟩
  obtain ⟨arrived, taken, kept, rxq, -, -, trace⟩ := readExact_effect s n buffered le rsp
  exact ⟨_, if_neg (Nat.not_lt.mpr buffered), congrArg Ret.bytes taken, kept, ⟨arrived, rxq.symm⟩, trace, rfl⟩

/-- Settles O17: the frame is sent whole, and the one poll sees what was buffered and has arrived. -/
theorem responseAtTheFirstPollDecidesTheExchange :
    Obligations.ResponseAtTheFirstPollDecidesTheExchange := by
  intro s bs n c first second later counts pos le rsp ack counted accepts script fits buffered
  obtain ⟨-, -, -, txlog, -, now, txcnt⟩ := send_effect s bs
  have whole : (s.send bs).2 = bs.length := by rw [send_scripted counted, Nat.min_eq_right accepts]
  have sent : (s.send bs).1.world.rxq = s.world.rxq ++ first := by
    refine tick_scripted (cap := s.par.rxCapacity) script (Nat.le_trans ?_ fits)
    rw [List.length_append (bs := second)]
    exact Nat.le_add_right _ _
  have polled : (s.send bs).1.firstPolled.world.rxq = s.world.rxq ++ first ++ second := by
    have next : (s.send bs).1.world.arrivals = second :: later := congrArg List.tail script
    rw [← sent] at fits ⊢
    exact tick_scripted next fits
  have length : (s.send bs).1.rxLen.2 = (s.world.rxq ++ first ++ second).length :=
    congrArg List.length polled
  have run := exchange_of_buffered pos whole (length ▸ buffered)
  have ackNow : (s.send bs).1.firstPolled.par.ack = 0x79 := ack
  obtain ⟨decided, kept, rxq⟩ :=
    takeResponse_effect (s := (s.send bs).1.firstPolled) pos (polled ▸ buffered) le rsp
  rw [polled, ackNow] at decided
  rw [polled] at kept rxq
  refine ⟨_, congrArg (Host.Outcome.next ∘ State.returnOk) run, congrArg Ret.ok decided, decided, ?_, ?_, rfl,
    kept, rxq, ?_, now⟩
  · exact txcnt.trans (by rw [whole])
  · exact congrArg (BitVec.ofNat 16) length
  · exact txlog.trans (by rw [whole, List.take_length])

/-- Settles O12: the effect of `SEND`, and its scripted count. -/
theorem sendReportsTheCountAccepted : Obligations.SendReportsTheCountAccepted := by
  intro s bs
  obtain ⟨-, le, -, txlog, trace, now, txcnt⟩ := send_effect s bs
  exact ⟨_, _, rfl, le, txcnt, rfl, txlog, trace, now, rfl, fun _ _ script => send_scripted script bs⟩

/-- Settles O15: the byte is compared with `ACK`, and the `ACK` row compares `ACK` with itself. -/
theorem onlySeventyNineClassifiesAsAck : Obligations.OnlySeventyNineClassifiesAsAck := by
  intro s b ack
  refine ⟨fun eq => exec_classify ?_, fun ne => exec_classify ?_,
    exec_classify (b := s.par.ack) (beq_self_eq_true _)⟩
  · rw [isAck, ack, beq_iff_eq.mpr eq]
  · rw [isAck, ack, beq_eq_false_iff_ne.mpr ne]

end Sys2Proof.Machine
end

section
/-!
PROOFS. The codec's values (spec/42_codec.md R180, R181): `COMPL` is bitwise `NOT`, and the fold of `XOR8`
carries its seed in front of the exclusive-or of the bytes (`xorFold_xor`), from which its laws follow.
-/
namespace Sys2Proof

/-! ### `COMPL` (R180) -/

theorem complement_eq_not (b : Byte) : complement b = ~~~b := BitVec.xor_allOnes

theorem complement_eq_sub (b : Byte) : complement b = 255 - b :=
  (complement_eq_not b).trans (BitVec.allOnes_sub_eq_not b).symm

theorem complement_involutive : Function.Involutive complement := fun b => by
  rw [complement_eq_not, complement_eq_not, BitVec.not_not]

theorem xor_complement (b : Byte) : b ^^^ complement b = 0xFF := by
  rw [complement, ← BitVec.xor_assoc, BitVec.xor_self, BitVec.zero_xor]

/-! ### The fold of `XOR8` (R181) -/

@[simp] theorem xorFold_nil (seed : Byte) : xorFold seed [] = seed := rfl

@[simp] theorem xorFold_cons (seed b : Byte) (bs : Bytes) :
    xorFold seed (b :: bs) = xorFold (seed ^^^ b) bs := rfl

theorem xorFold_append (seed : Byte) (bs bs' : Bytes) :
    xorFold seed (bs ++ bs') = xorFold (xorFold seed bs) bs' := List.foldl_append

theorem xorFold_perm (seed : Byte) {bs bs' : Bytes} (perm : bs.Perm bs') :
    xorFold seed bs = xorFold seed bs' := perm.foldl_eq seed

theorem xorFold_xor (a b : Byte) (bs : Bytes) : xorFold (a ^^^ b) bs = a ^^^ xorFold b bs :=
  List.foldl_assoc

/-- The seed stands in front of the exclusive-or of the bytes alone. -/
theorem xorFold_eq_seed_xor (seed : Byte) (bs : Bytes) : xorFold seed bs = seed ^^^ xorFold 0 bs := by
  simpa using xorFold_xor seed 0 bs

/-- The fold from the right, as the statement of R181 writes it, has the same value. -/
theorem xorFold_eq_foldr (seed : Byte) (bs : Bytes) :
    xorFold seed bs = bs.foldr (fun b c => b ^^^ c) seed := by
  induction bs with
  | nil => rfl
  | cons b bs ih => rw [xorFold_cons, BitVec.xor_comm, xorFold_xor, ih, List.foldr_cons]

/-- A string ended by its own fold folds to 0. -/
theorem xorFold_append_self (bs : Bytes) : xorFold 0 (bs ++ [xorFold 0 bs]) = 0 :=
  (xorFold_append 0 bs _).trans BitVec.xor_self

/-- A flip of bits in one byte is the same flip of the fold. -/
theorem xorFold_set_xor (seed : Byte) (bs : Bytes) (i : Nat) (h : i < bs.length) (m : Byte) :
    xorFold seed (bs.set i (bs[i] ^^^ m)) = xorFold seed bs ^^^ m := by
  induction bs generalizing seed i with
  | nil => exact absurd h (Nat.not_lt_zero i)
  | cons b bs ih =>
    cases i with
    | zero =>
      calc xorFold seed ((b ^^^ m) :: bs)
        _ = xorFold (m ^^^ (seed ^^^ b)) bs := by
          rw [xorFold_cons, ← BitVec.xor_assoc, BitVec.xor_comm m]
        _ = xorFold seed (b :: bs) ^^^ m := by rw [xorFold_xor, BitVec.xor_comm, xorFold_cons]
    | succ i => exact ih (seed ^^^ b) i (Nat.lt_of_succ_lt_succ h)

/-- The same flip in two bytes cancels. -/
theorem xorFold_set_xor_twice (seed : Byte) (bs : Bytes) (i j : Nat) (hi : i < bs.length)
    (hj : j < bs.length) (m : Byte) (ne : i ≠ j) :
    xorFold seed ((bs.set i (bs[i] ^^^ m)).set j (bs[j] ^^^ m)) = xorFold seed bs := by
  have hj' : j < (bs.set i (bs[i] ^^^ m)).length := by rwa [List.length_set]
  have other : bs[j] = (bs.set i (bs[i] ^^^ m))[j] := (List.getElem_set_ne ne hj').symm
  rw [other, xorFold_set_xor, xorFold_set_xor, BitVec.xor_assoc, BitVec.xor_self, BitVec.xor_zero]

/-- Equal bytes cancel in pairs. -/
theorem xorFold_replicate_even (seed b : Byte) (k : Nat) : xorFold seed (List.replicate (2 * k) b) = seed := by
  induction k with
  | zero => rfl
  | succ k ih =>
    rw [Nat.mul_succ, List.replicate_succ, List.replicate_succ, xorFold_cons, xorFold_cons,
      BitVec.xor_assoc, BitVec.xor_self, BitVec.xor_zero, ih]

/-! ### The checksums of the frames (R183, R184) -/

/-- The checksum of an address has the seed 00. -/
theorem xorFold_addrBytes (a : Addr) : xorFold 0x00 a.bytes = a.a0 ^^^ a.a1 ^^^ a.a2 ^^^ a.a3 := by
  simp [Addr.bytes]

theorem dataChecksum_eq (par : Params) (p : Bytes) :
    dataChecksum par p = par.pageCsumSeed ^^^ par.lenInd ^^^ xorFold 0 p :=
  xorFold_eq_seed_xor (par.pageCsumSeed ^^^ par.lenInd) p

/-- A seed equal to the length indicator cancels it. -/
theorem dataChecksum_of_seed_eq {par : Params} (seed : par.pageCsumSeed = par.lenInd) (p : Bytes) :
    dataChecksum par p = xorFold 0 p := by
  rw [dataChecksum_eq, seed, BitVec.xor_self, BitVec.zero_xor]

end Sys2Proof
end

section
/-!
PROOFS. The codec operations (spec/42_codec.md R180 to R185): each returns its value, and leaves the fold in
`CSUM` where it makes one.
-/
namespace Sys2Proof.Machine

theorem exec_compl (s : State) (b : Byte) :
    exec (.compl b) s = .next { s with ret := .byte (complement b) } := rfl

theorem exec_xor8 (s : State) (seed : Byte) (bs : Bytes) :
    exec (.xor8 seed bs) s = .next { s with csum := xorFold seed bs, ret := .byte (xorFold seed bs) } := rfl

theorem exec_addrframe (s : State) (a : Addr) :
    exec (.addrframe a) s = .next { s with
      csum := xorFold 0x00 a.bytes, ret := .bytes (a.bytes ++ [xorFold 0x00 a.bytes]) } := rfl

theorem exec_dataframe (s : State) (p : Bytes) :
    exec (.dataframe p) s = .next { s with
      csum := dataChecksum s.par p
      ret := .bytes (s.par.lenInd :: (p ++ [dataChecksum s.par p])) } := rfl

/-- Settles O6: the fold from the left is the fold from the right, and its laws one by one. -/
theorem exclusiveOrFoldObeysItsLaws : Obligations.ExclusiveOrFoldObeysItsLaws := by
  refine ⟨fun s seed bs => ?_, fun seed _ _ => xorFold_perm seed, xorFold_append, xorFold_nil, xorFold_xor,
    xorFold_append_self, xorFold_set_xor, xorFold_set_xor_twice, xorFold_replicate_even⟩
  rw [exec_xor8, xorFold_eq_foldr]

/-- Settles O5: `COMPL` is `NOT`, an involution and so a bijection. -/
theorem complementInvertsEveryBit : Obligations.ComplementInvertsEveryBit :=
  ⟨fun s b => by rw [exec_compl, complement_eq_sub], complement_involutive, xor_complement,
    complement_involutive.bijective⟩

/-- Settles O7: the two-byte frames are the byte and `COMPL` of it, the address frame ends in the fold of
its bytes. -/
theorem shortFramesHaveTheirCheckByte : Obligations.ShortFramesHaveTheirCheckByte := by
  refine fun s => ⟨fun b => ⟨rfl, rfl⟩, fun a => ?_⟩
  rw [exec_addrframe, xorFold_addrBytes]
  rfl

/-- Settles O8: the frame carries `dataChecksum`, in which the normative seed cancels the length indicator. -/
theorem dataFrameChecksumCoversIndicatorAndPayload :
    Obligations.DataFrameChecksumCoversIndicatorAndPayload := by
  intro s p lenInd length
  refine ⟨dataChecksum s.par p, ?_, ?_, ?_, fun seed => dataChecksum_of_seed_eq (seed.trans lenInd.symm) p⟩
  · rw [exec_dataframe, lenInd]
  · rw [List.length_cons, List.length_append, length, List.length_singleton]
  · rw [dataChecksum_eq, lenInd]

end Sys2Proof.Machine
end

section
/-!
PROOFS. The commands (spec/43_commands.md R199 to R210): each single-frame row is one exchange, the composite
ones are their stages, run one by one and gated as D10 and D11 say, and none writes more than its frame.
-/
namespace Sys2Proof.Machine

/-! ### One stage is one exchange (R102, R200 to R210) -/

/-- A row that runs a stage is the exchange of the stage's frame, where building the frame writes nothing. -/
theorem exec_of_stage {s : State} {i : Instr} {c : Stage} {bs : Bytes} {n : Nat}
    (run : exec i s = .next (State.returnOk (s.command c))) (frame : s.stageFrame c = (s, bs))
    (response : c.response s.par = n) : exec i s = .next (State.returnOk (s.exchange bs n)) := by
  rw [run, State.command, frame, response]

theorem exec_loadAddr (s : State) (a : Addr) :
    exec (.loadAddr a) s = .next (State.returnOk (s.loadAddr a)) := rfl

theorem exec_pageWriteData (s : State) (p : Bytes) :
    exec (.pageWriteData p) s = .next (State.returnOk (s.pageWriteData p)) := rfl

theorem exec_pageWrite (s : State) : exec .pageWrite s = .next (State.returnOk s.pageWrite) := rfl

theorem exec_pageRead (s : State) : exec .pageRead s = .next (State.returnOk s.pageRead) := rfl

theorem exec_pageReadLen (s : State) :
    exec .pageReadLen s = .next (State.returnOk (s.command .pageLen)) := rfl

theorem loadAddr_eq_exchange (s : State) (a : Addr) :
    s.loadAddr a = ({ s with csum := xorFold 0x00 a.bytes } : State).exchange
      (a.bytes ++ [xorFold 0x00 a.bytes]) s.par.rspAck := rfl

theorem pageWriteData_eq_exchange (s : State) (p : Bytes) :
    s.pageWriteData p = ({ s with csum := dataChecksum s.par p } : State).exchange
      (s.par.lenInd :: (p ++ [dataChecksum s.par p])) s.par.rspAck := rfl

/-- Settles O18: every row runs its stage, and the stated parameters give the response lengths. -/
theorem singleFrameRowsAreTheirExchanges : Obligations.SingleFrameRowsAreTheirExchanges := by
  rintro s ⟨-, -, lenInd, -, -, sync, get, getver, getid, ack, page⟩
  have lengthFrame : s.stageFrame .pageLen = (s, [0xFF, 0x00]) := by rw [State.stageFrame, lenInd]; rfl
  exact ⟨exec_of_stage rfl rfl sync, exec_of_stage rfl rfl get, exec_of_stage rfl rfl getver,
    exec_of_stage rfl rfl getid, exec_of_stage rfl rfl ack, exec_of_stage rfl rfl ack,
    exec_of_stage rfl rfl ack, exec_of_stage rfl rfl ack, exec_of_stage rfl rfl ack,
    exec_of_stage rfl rfl ack, exec_of_stage rfl lengthFrame page⟩

/-- Settles O19: the frames are the codec's, whose checksum is the fold left in `CSUM`. -/
theorem addressAndDataStagesExchangeTheirFrames : Obligations.AddressAndDataStagesExchangeTheirFrames := by
  rintro s ⟨-, -, lenInd, -, -, -, -, -, -, ack, -⟩
  refine ⟨fun a => ?_, fun p => ?_⟩
  · rw [exec_loadAddr, loadAddr_eq_exchange, xorFold_addrBytes, ack]
    rfl
  · rw [exec_pageWriteData, pageWriteData_eq_exchange, dataChecksum_eq, lenInd, ack]

/-! ### Stages run one by one (R204, R205, R209, R210) -/

/-- A stage run after another does not see the value that one returned. -/
theorem returnOk_command_returnOk (r : State × Bool) (c : Stage) :
    State.returnOk ((State.returnOk r).command c) = State.returnOk (r.1.command c) := by
  simp [State.returnOk]

theorem returnOk_loadAddr_returnOk (r : State × Bool) (a : Addr) :
    State.returnOk ((State.returnOk r).loadAddr a) = State.returnOk (r.1.loadAddr a) := by
  simp [State.returnOk]

theorem returnOk_pageWriteData_returnOk (r : State × Bool) (p : Bytes) :
    State.returnOk ((State.returnOk r).pageWriteData p) = State.returnOk (r.1.pageWriteData p) := by
  simp [State.returnOk]

/-- A gated composite ends where its first stage did if that failed, and otherwise where the rest does. -/
theorem returnOk_gated (r next : State × Bool) :
    ((State.returnOk r).ret = .ok false
        ∧ State.returnOk (if r.2 then next else (r.1, false)) = State.returnOk r)
      ∨ ((State.returnOk r).ret = .ok true
        ∧ State.returnOk (if r.2 then next else (r.1, false)) = State.returnOk next) := by
  obtain ⟨u, ok⟩ := r
  cases ok with
  | false => exact .inl ⟨rfl, rfl⟩
  | true => exact .inr ⟨rfl, rfl⟩

theorem command_addr (s : State) (c : Stage) : (s.command c).1.addr = s.addr := by
  obtain ⟨-, -, addr, -⟩ := (command_frame s c).keeps
  exact addr

theorem command_buf (s : State) (c : Stage) : (s.command c).1.buf = s.buf := by
  obtain ⟨-, -, -, -, -, -, -, -, -, buf, -⟩ := (command_frame s c).keeps
  exact buf

theorem loadAddr_buf (s : State) (a : Addr) : (s.loadAddr a).1.buf = s.buf := by
  obtain ⟨-, -, -, -, -, -, -, -, -, buf, -⟩ := (loadAddr_frame s a).keeps
  exact buf

theorem command_writeAddr (s : State) : s.command .writeAddr = s.loadAddr s.addr := rfl

theorem command_readAddr (s : State) : s.command .readAddr = s.loadAddr s.addr := rfl

theorem command_pageData (s : State) : s.command .pageData = s.pageWriteData s.buf := rfl

/-- An erase is its command stage, and the parameter stage gated on it (D10). -/
theorem exec_erase_stages {s : State} {first second whole : Instr} {c d : Stage}
    (runFirst : ∀ s, exec first s = .next (State.returnOk (s.command c)))
    (runSecond : ∀ s, exec second s = .next (State.returnOk (s.command d)))
    (runWhole : exec whole s = .next (State.returnOk
      (if (s.command c).2 then (s.command c).1.command d else ((s.command c).1, false)))) :
    ∃ u t, exec first s = .next u ∧ exec whole s = .next t
      ∧ ((u.ret = .ok true ∧ exec second u = .next t) ∨ (u.ret = .ok false ∧ t = u)) := by
  refine ⟨_, _, runFirst s, runWhole, ?_⟩
  rw [runSecond, returnOk_command_returnOk]
  obtain ⟨failed, ends⟩ | ⟨acked, ends⟩ := returnOk_gated (s.command c) ((s.command c).1.command d)
  · exact .inr ⟨failed, ends⟩
  · exact .inl ⟨acked, congrArg Host.Outcome.next ends.symm⟩

/-- Settles O20: both erases are a command stage that gates a parameter stage. -/
theorem eraseSendsTheParameterOnlyAfterAnAck : Obligations.EraseSendsTheParameterOnlyAfterAnAck := by
  rintro s first second whole (⟨rfl, rfl, rfl⟩ | ⟨rfl, rfl, rfl⟩)
  · exact exec_erase_stages (c := .massEraseCmd) (d := .massEraseParam) (fun _ => rfl) (fun _ => rfl) rfl
  · exact exec_erase_stages (c := .extEraseCmd) (d := .extEraseParam) (fun _ => rfl) (fun _ => rfl) rfl

/-- `PAGE_WRITE` by its stages' operations, with the operands of the state it starts in (R209). -/
theorem pageWrite_eq (s : State) :
    s.pageWrite =
      let u := s.command .writeMem
      let v := u.1.loadAddr s.addr
      if u.2 then if v.2 then v.1.pageWriteData s.buf else (v.1, false) else (u.1, false) := by
  unfold State.pageWrite
  dsimp only
  rw [command_writeAddr, command_pageData, loadAddr_buf, command_addr, command_buf]

/-- `PAGE_READ` by its stages' operations, the operand of the state it starts in (R210). -/
theorem pageRead_eq (s : State) :
    s.pageRead =
      let u := s.command .readMem
      if u.2 then (u.1.loadAddr s.addr).1.command .pageLen else (u.1, false) := by
  unfold State.pageRead
  dsimp only
  rw [command_readAddr, command_addr]

/-- Settles O21: two gates, one inside the other. -/
theorem pageWriteGatesEveryStage : Obligations.PageWriteGatesEveryStage := by
  intro s
  refine ⟨_, rfl, ?_⟩
  rw [exec_pageWrite, pageWrite_eq, exec_loadAddr, returnOk_loadAddr_returnOk]
  dsimp only
  obtain ⟨failed, ends⟩ | ⟨acked, ends⟩ := returnOk_gated (s.command .writeMem) _
  · exact .inl ⟨failed, congrArg Host.Outcome.next ends⟩
  refine .inr ⟨acked, _, rfl, ?_⟩
  rw [ends, exec_pageWriteData, returnOk_pageWriteData_returnOk]
  obtain ⟨addrFailed, addrEnds⟩ | ⟨addrAcked, addrEnds⟩ :=
    returnOk_gated ((s.command .writeMem).1.loadAddr s.addr) _
  · exact .inl ⟨addrFailed, congrArg Host.Outcome.next addrEnds⟩
  · exact .inr ⟨addrAcked, _, rfl, congrArg Host.Outcome.next addrEnds⟩

/-- Settles O22: one gate, and two stages behind it. -/
theorem pageReadIgnoresTheAddressStageResult : Obligations.PageReadIgnoresTheAddressStageResult := by
  intro s
  refine ⟨_, rfl, ?_⟩
  rw [exec_pageRead, pageRead_eq, exec_loadAddr, returnOk_loadAddr_returnOk]
  dsimp only
  obtain ⟨failed, ends⟩ | ⟨acked, ends⟩ := returnOk_gated (s.command .readMem) _
  · exact .inl ⟨failed, congrArg Host.Outcome.next ends⟩
  · refine .inr ⟨acked, _, _, rfl, exec_pageReadLen _, ?_⟩
    rw [returnOk_command_returnOk, ends]

/-! ### What a command leaves alone (R199) -/

theorem OnlyTransport.returnOk {s : State} {r : State × Bool} (h : OnlyTransport s r.1) :
    OnlyTransport s (State.returnOk r) := h.trans rfl

theorem OnlyCommand.returnOk {s : State} {r : State × Bool} (h : OnlyCommand s r.1) :
    OnlyCommand s (State.returnOk r) := h.trans rfl

/-- Settles O23: the frame of each command, and `ret`, which both frames leave free. -/
theorem commandsKeepEveryOtherRegister : Obligations.CommandsKeepEveryOtherRegister := by
  intro s t i e
  refine ⟨fun row => ?_, fun row => ?_⟩
  · cases i with
    | sync | get | getver | getid | massEraseCmd | massEraseParam | extEraseCmd | extEraseParam | writeMem
    | readMem | pageReadLen => cases e; exact (exchange_frame s _ _).returnOk
    | massErase => cases e; exact (massErase_frame s).returnOk
    | extErase => cases e; exact (extErase_frame s).returnOk
    | _ => simp at row
  · obtain row | ⟨a, rfl⟩ | ⟨p, rfl⟩ := row
    · obtain rfl | rfl := List.mem_pair.mp row
      · cases e; exact (pageWrite_frame s).returnOk
      · cases e; exact (pageRead_frame s).returnOk
    · cases e; exact (loadAddr_frame s a).returnOk
    · cases e; exact (pageWriteData_frame s p).returnOk

end Sys2Proof.Machine
end

section
/-!
PROOFS. The detector (spec/44_handshake.md R240, R241). One attempt run by its operations
(`detectAttempt_runs`) and what it adds to the environment (`detectAttempt_pulsed`); then the loop by its two
equations (`detectLoop_ends`, `detectLoop_again`).
-/
namespace Sys2Proof.Machine

/-! ### Pulses and time -/

/-- The environment `v` is `w` after `k` reset pulses, no drive of the boot-mode line, and at least `time`. -/
structure Pulsed (k time : Nat) (w v : World) : Prop where
  pulses : pulses v.trace = pulses w.trace + k
  boot : ∀ level, bootDrives level v.trace = bootDrives level w.trace
  now : w.now + time ≤ v.now

theorem Pulsed.refl (w : World) : Pulsed 0 0 w w := ⟨rfl, fun _ => rfl, Nat.le_refl _⟩

theorem Pulsed.trans {k l m n : Nat} {u v w : World} (a : Pulsed k m u v) (b : Pulsed l n v w) :
    Pulsed (k + l) (m + n) u w where
  pulses := by rw [b.pulses, a.pulses, Nat.add_assoc]
  boot level := (b.boot level).trans (a.boot level)
  now := by have first := a.now; have second := b.now; omega

/-- Work without a pulse and without a time bound adds to neither. -/
theorem Pulsed.andThen {k m : Nat} {u v w : World} (a : Pulsed k m u v) (b : Pulsed 0 0 v w) :
    Pulsed k m u w := a.trans b

theorem wait_pulsed (s : State) (n : Nat) : Pulsed 0 n s.world (s.wait n).world := by
  obtain ⟨-, -, trace, -, now, -⟩ := wait_effect s n
  exact ⟨by rw [trace]; rfl, fun _ => by rw [trace]; rfl, now⟩

theorem resetPulse_pulsed (s : State) :
    Pulsed 1 (s.par.tResetLow + s.par.tSettle) s.world s.resetPulse.world := by
  obtain ⟨-, trace, now, -⟩ := resetPulse_effect s
  exact ⟨by rw [trace]; rfl, fun _ => by rw [trace]; rfl, by omega⟩

/-! ### An exchange drives no line (R150 to R154) -/

theorem poll_pulsed (s : State) (n T : Nat) : Pulsed 0 0 s.world (s.poll n T).1.world := by
  rw [poll_world]
  exact ⟨rfl, fun _ => rfl, Nat.le_refl _⟩

theorem pause_pulsed (s : State) : Pulsed 0 0 s.world s.pause.world :=
  ⟨rfl, fun _ => rfl, Nat.le_trans (Nat.le_add_right _ _) (wait_pulsed s s.par.pollInterval).now⟩

theorem awaitLoop_pulsed (n T : Nat) : ∀ (polls : Nat) (s : State),
    Pulsed 0 0 s.world (State.awaitLoop polls n T s).1.world := by
  intro polls
  induction polls with
  | zero => intro s; exact .refl _
  | succ polls ih =>
    intro s
    have polled := poll_pulsed s n T
    unfold State.awaitLoop
    dsimp only
    split
    · exact polled
    · exact (polled.andThen (pause_pulsed _)).andThen (ih _)

theorem awaitBytes_pulsed (s : State) (n T : Nat) : Pulsed 0 0 s.world (s.awaitBytes n T).1.world :=
  awaitLoop_pulsed n T (T + 1) { s with elapsed := 0 }

theorem exchange_pulsed (s : State) (bs : Bytes) (n : Nat) :
    Pulsed 0 0 s.world (s.exchange bs n).1.world := by
  have sent : Pulsed 0 0 s.world (s.send bs).1.world := ⟨rfl, fun _ => rfl, Nat.le_refl _⟩
  unfold State.exchange
  dsimp only
  split
  · exact sent
  · have waited := sent.andThen (awaitBytes_pulsed (s.send bs).1 n (s.send bs).1.par.timeout)
    split
    · exact waited
    · exact waited.andThen ⟨rfl, fun _ => rfl, Nat.le_refl _⟩

theorem command_pulsed (s : State) (c : Stage) : Pulsed 0 0 s.world (s.command c).1.world := by
  have frame : (s.stageFrame c).1.world = s.world := by cases c <;> rfl
  exact frame ▸ exchange_pulsed (s.stageFrame c).1 _ _

/-! ### One attempt (R240) -/

/-- Where an attempt's exchanges begin: counted, and the reset line pulsed. -/
def State.attemptPulsed (s : State) : State := ({ s with attempt := s.attempt + 1 } : State).resetPulse

theorem attemptPulsed_setRet (s : State) (r : Ret) :
    (s.setRet r).attemptPulsed = s.attemptPulsed.setRet r :=
  resetPulse_setRet { s with attempt := s.attempt + 1 } r

theorem detectAttempt_eq (s : State) :
    s.detectAttempt = if (s.attemptPulsed.command .sync).2 then (s.attemptPulsed.command .sync).1.command .get
      else ((s.attemptPulsed.command .sync).1, false) := rfl

theorem detectAttempt_par (s : State) : s.detectAttempt.1.par = s.par :=
  (detectAttempt_related (worldRel_true s.cap)).1

/-- Below 3, the count of two bits does not wrap. -/
theorem detectAttempt_attempt {s : State} (bound : s.attempt.toNat < 3) :
    s.detectAttempt.1.attempt.toNat = s.attempt.toNat + 1 := by
  obtain ⟨-, attempt⟩ := detectAttempt_counts s
  rw [attempt]
  bv_omega

/-- An attempt is one pulse, whatever its exchanges answer. -/
theorem detectAttempt_pulsed (s : State) :
    Pulsed 1 (s.par.tResetLow + s.par.tSettle) s.world s.detectAttempt.1.world := by
  have synced : Pulsed 1 (s.par.tResetLow + s.par.tSettle) s.world (s.attemptPulsed.command .sync).1.world :=
    (resetPulse_pulsed { s with attempt := s.attempt + 1 }).andThen (command_pulsed _ .sync)
  rw [detectAttempt_eq]
  split
  · exact synced.andThen (command_pulsed _ .get)
  · exact synced

/-- An attempt run by its operations, whatever `ret` held before: `GET` is run only if `SYNC` returned true. -/
theorem detectAttempt_runs (s : State) (r : Ret) : ∃ u v,
    exec .resetPulse { s.setRet r with attempt := s.attempt + 1 } = .next u ∧ exec .sync u = .next v
      ∧ ((v.ret = .ok false ∧ State.returnOk s.detectAttempt = v)
        ∨ (v.ret = .ok true ∧ exec .get v = .next (State.returnOk s.detectAttempt))) := by
  have pulse : exec .resetPulse { s.setRet r with attempt := s.attempt + 1 }
      = .next (s.attemptPulsed.setRet .none) := by
    change Host.Outcome.next ((s.setRet r).attemptPulsed.setRet .none) = _
    rw [attemptPulsed_setRet, setRet_setRet]
  have sync : exec .sync (s.attemptPulsed.setRet .none)
      = .next (State.returnOk (s.attemptPulsed.command .sync)) := by
    change Host.Outcome.next (State.returnOk ((s.attemptPulsed.setRet .none).command .sync)) = _
    rw [command_setRet]
    rfl
  have get : exec .get (State.returnOk (s.attemptPulsed.command .sync))
      = .next (State.returnOk ((s.attemptPulsed.command .sync).1.command .get)) :=
    congrArg Host.Outcome.next (returnOk_command_returnOk _ .get)
  refine ⟨_, _, pulse, sync, ?_⟩
  rw [detectAttempt_eq, get]
  obtain ⟨failed, ends⟩ | ⟨acked, ends⟩ := returnOk_gated (s.attemptPulsed.command .sync) _
  · exact .inl ⟨failed, ends⟩
  · exact .inr ⟨acked, congrArg Host.Outcome.next ends.symm⟩

/-! ### The loop (R240, D6) -/

/-- The attempt that succeeds, and the last one, end the loop. -/
theorem detectLoop_ends {s : State} {left : Nat} (h : s.detectAttempt.2 = true ∨ left = 0) :
    State.detectLoop (left + 1) s = s.detectAttempt := by
  unfold State.detectLoop
  generalize s.detectAttempt = a at h ⊢
  obtain ⟨t, ok⟩ := a
  cases ok with
  | true => rfl
  | false => exact if_pos (h.resolve_left Bool.false_ne_true)

/-- Where the attempt after a failed one begins. -/
def State.backedOff (s : State) : State := s.detectAttempt.1.wait s.par.tBackoff

theorem backedOff_par (s : State) : s.backedOff.par = s.par := detectAttempt_par s

theorem backedOff_attempt {s : State} (bound : s.attempt.toNat < 3) :
    s.backedOff.attempt.toNat = s.attempt.toNat + 1 := detectAttempt_attempt bound

theorem backedOff_pulsed (s : State) :
    Pulsed 1 (s.par.tResetLow + s.par.tSettle + s.par.tBackoff) s.world s.backedOff.world :=
  (detectAttempt_pulsed s).trans (wait_pulsed _ _)

/-- A failed attempt with another allowed: the backoff, and the rest of the loop. -/
theorem detectLoop_again {s : State} {left : Nat} (failed : s.detectAttempt.2 = false) :
    State.detectLoop (left + 2) s = State.detectLoop (left + 1) s.backedOff := by
  rw [State.detectLoop, detectAttempt_par]
  simp [failed, State.backedOff]

theorem exec_detect (s : State) : exec .detect s
    = .next (State.returnOk (State.detectLoop s.par.maxAttempts { s with attempt := 0 })) := rfl

/-- The attempts made are counted in `ATTEMPT` and on the reset line; only the last can end in failure. -/
theorem detectLoop_pulses : ∀ (left : Nat) (s : State), s.attempt.toNat + left < 3 →
    ∃ more ≤ left,
      (State.detectLoop (left + 1) s).1.attempt.toNat = s.attempt.toNat + (more + 1)
      ∧ ((State.detectLoop (left + 1) s).2 = false → more = left)
      ∧ (State.detectLoop (left + 1) s).1.nrst = true
      ∧ Pulsed (more + 1) ((more + 1) * (s.par.tResetLow + s.par.tSettle) + more * s.par.tBackoff)
        s.world (State.detectLoop (left + 1) s).1.world := by
  intro left
  induction left with
  | zero =>
    intro s bound
    obtain ⟨nrst, -⟩ := detectAttempt_counts s
    rw [detectLoop_ends (.inr rfl)]
    refine ⟨0, Nat.le_refl _, detectAttempt_attempt bound, fun _ => rfl, nrst, ?_⟩
    simpa using detectAttempt_pulsed s
  | succ left ih =>
    intro s bound
    cases ok : s.detectAttempt.2 with
    | true =>
      obtain ⟨nrst, -⟩ := detectAttempt_counts s
      rw [detectLoop_ends (.inl ok)]
      refine ⟨0, Nat.zero_le _, detectAttempt_attempt (by omega), fun failed => ?_, nrst, ?_⟩
      · exact absurd (ok.symm.trans failed) (by decide)
      · simpa using detectAttempt_pulsed s
    | false =>
      have counted : s.backedOff.attempt.toNat = s.attempt.toNat + 1 := backedOff_attempt (by omega)
      obtain ⟨more, le, attempts, last, high, rest⟩ := ih s.backedOff (by omega)
      rw [backedOff_par] at rest
      rw [detectLoop_again ok]
      refine ⟨more + 1, by omega, by omega, fun failed => by rw [last failed], high, ?_⟩
      convert (backedOff_pulsed s).trans rest using 1 <;> ring

/-- Settles O25: the attempts `DETECT` is allowed, counted from none. -/
theorem detectPulsesOncePerAttempt : Obligations.DetectPulsesOncePerAttempt := by
  intro s least most
  obtain ⟨left, max⟩ := Nat.exists_eq_add_of_le' least
  have loop : s.detect = State.detectLoop (left + 1) { s with attempt := 0 } := by rw [State.detect, max]
  obtain ⟨more, le, attempts, last, high, pulsed, boot, now⟩ :=
    detectLoop_pulses left { s with attempt := 0 } (show 0 + left < 3 by omega)
  rw [← loop] at attempts last high pulsed boot now
  have made : (State.returnOk s.detect).attempt.toNat = more + 1 := attempts.trans (Nat.zero_add _)
  refine ⟨_, s.detect.2, rfl, rfl, ?_⟩
  rw [made, Nat.add_sub_cancel, Nat.add_assoc]
  exact ⟨by omega, by omega, fun failed => by rw [last failed, max], pulsed, boot true, boot false, now, high,
    (detect_frame s).trans rfl⟩

/-! ### The loop is its attempts (D6) -/

/-- An attempt that succeeds, or is the last, ends the attempts, whatever `ret` held before. -/
theorem attempts_ends {s : State} (r : Ret)
    (h : s.detectAttempt.2 = true ∨ s.detectAttempt.1.attempt.toNat = s.par.maxAttempts) :
    Attempts (s.setRet r) (State.returnOk s.detectAttempt) := by
  obtain ⟨u, v, pulse, sync, syncEnds⟩ := detectAttempt_runs s r
  cases ok : s.detectAttempt.2 with
  | true =>
    obtain ⟨failed, rfl⟩ | ⟨synced, get⟩ := syncEnds
    · exact absurd (ok.symm.trans (Ret.ok.inj failed)) (by decide)
    · exact .found pulse sync synced get (congrArg Ret.ok ok)
  | false =>
    have last := h.resolve_left (by simp [ok])
    obtain ⟨failed, rfl⟩ | ⟨synced, get⟩ := syncEnds
    · exact .lastSync pulse sync failed last
    · exact .lastGet pulse sync synced get (congrArg Ret.ok ok) last

/-- A failed attempt below `MAX_ATTEMPTS` is followed by the backoff and the other attempts. -/
theorem attempts_again {s t : State} (r : Ret) (ok : s.detectAttempt.2 = false)
    (below : s.detectAttempt.1.attempt.toNat < s.par.maxAttempts)
    (rest : Attempts ((State.returnOk s.detectAttempt).wait s.par.tBackoff) t) :
    Attempts (s.setRet r) t := by
  obtain ⟨u, v, pulse, sync, ⟨failed, rfl⟩ | ⟨synced, get⟩⟩ := detectAttempt_runs s r
  · exact .againSync pulse sync failed below rest
  · exact .againGet pulse sync synced get (congrArg Ret.ok ok) below rest

/-- The loop with as many attempts left as are not yet counted. -/
theorem detectLoop_attempts : ∀ (left : Nat) (s : State) (r : Ret),
    s.attempt.toNat + (left + 1) = s.par.maxAttempts → s.par.maxAttempts ≤ 3 →
    Attempts (s.setRet r) (State.returnOk (State.detectLoop (left + 1) s)) := by
  intro left
  induction left with
  | zero =>
    intro s r max bound
    rw [detectLoop_ends (.inr rfl)]
    exact attempts_ends r (.inr ((detectAttempt_attempt (by omega)).trans max))
  | succ left ih =>
    intro s r max bound
    cases ok : s.detectAttempt.2 with
    | true =>
      rw [detectLoop_ends (.inl ok)]
      exact attempts_ends r (.inl ok)
    | false =>
      have counted : s.detectAttempt.1.attempt.toNat = s.attempt.toNat + 1 :=
        detectAttempt_attempt (by omega)
      rw [detectLoop_again ok]
      refine attempts_again r ok (by omega) (ih s.backedOff (.ok s.detectAttempt.2) ?_ ?_)
      · rw [backedOff_par, backedOff_attempt (by omega)]; omega
      · rw [backedOff_par]; exact bound

/-- `DETECT` ends with its first attempt where that succeeds or is the only one. -/
theorem exec_detect_of_first {s : State} (least : 1 ≤ s.par.maxAttempts)
    (h : ({ s with attempt := 0 } : State).detectAttempt.2 = true ∨ s.par.maxAttempts = 1) :
    exec .detect s = .next (State.returnOk ({ s with attempt := 0 } : State).detectAttempt) := by
  obtain ⟨left, max⟩ := Nat.exists_eq_add_of_le' least
  rw [exec_detect, max, detectLoop_ends (h.imp_right fun one => by omega)]

/-- Settles O26: the loop from no attempt counted; its first attempt run by its operations. -/
theorem detectEndsAtTheFirstSuccess : Obligations.DetectEndsAtTheFirstSuccess := by
  refine ⟨fun s least most => ?_, fun s n => ?_, fun s least => ?_⟩
  · obtain ⟨left, max⟩ := Nat.exists_eq_add_of_le' least
    refine ⟨_, exec_detect s, ?_⟩
    rw [max]
    exact detectLoop_attempts left { s with attempt := 0 } s.ret
      (show 0 + (left + 1) = s.par.maxAttempts by omega) most
  · obtain ⟨-, -, trace, -, now, -⟩ := wait_effect s n
    exact ⟨trace, now, rfl⟩
  · obtain ⟨u, v, pulse, sync, syncEnds⟩ := detectAttempt_runs { s with attempt := 0 } s.ret
    have ends := exec_detect_of_first least
    refine ⟨u, v, pulse, sync, fun synced => ?_, fun failed one => ?_⟩
    · obtain ⟨failed, -⟩ | ⟨-, get⟩ := syncEnds
      · exact absurd (synced.symm.trans failed) (by simp)
      · exact ⟨_, get, fun got => ends (.inl (Ret.ok.inj got)), fun _ one => ends (.inr one)⟩
    · obtain ⟨-, rfl⟩ | ⟨synced, -⟩ := syncEnds
      · exact ends (.inr one)
      · exact absurd (synced.symm.trans failed) (by simp)

end Sys2Proof.Machine
end

section
/-!
PROOFS. The address and the block (spec/45_orchestrator.md R273, R274).
-/
namespace Sys2Proof.Machine

/-! ### `INC_ADDR` (R273, R276) -/

/-- The carry rule, byte by byte (R273). -/
theorem stepAddr_bytes (a : Addr) :
    (stepAddr a).a3 = a.a3 ∧ (stepAddr a).a2 = a.a2 + 1
      ∧ (stepAddr a).a1 = (if a.a2 + 1 = 0 then a.a1 + 1 else a.a1)
      ∧ (stepAddr a).a0 = (if a.a2 + 1 = 0 ∧ a.a1 + 1 = 0 then a.a0 + 1 else a.a0) := by
  unfold stepAddr
  dsimp only
  split
  · next third =>
    split
    · next second => exact ⟨rfl, rfl, rfl, (if_pos ⟨third, second⟩).symm⟩
    · next second => exact ⟨rfl, rfl, rfl, (if_neg fun h => second h.2).symm⟩
  · next third => exact ⟨rfl, rfl, rfl, (if_neg fun h => third h.1).symm⟩

/-- A byte of an address counts one up, and wraps from 255 to 0. -/
theorem byte_succ (b : Byte) :
    (b + 1 = 0 ∧ b.toNat = 255 ∧ (b + 1).toNat = 0) ∨ (b + 1 ≠ 0 ∧ (b + 1).toNat = b.toNat + 1) := by
  by_cases wraps : b + 1 = 0
  · exact .inl ⟨wraps, by bv_omega, by rw [wraps]; rfl⟩
  · exact .inr ⟨wraps, by bv_omega⟩

/-- The carries add a block to the numeric value. -/
theorem stepAddr_value (a : Addr) : (stepAddr a).value = (a.value + 0x100) % 2 ^ 32 := by
  obtain ⟨fourth, third, second, first⟩ := stepAddr_bytes a
  have b0 := a.a0.isLt
  have b1 := a.a1.isLt
  have b2 := a.a2.isLt
  have b3 := a.a3.isLt
  unfold Addr.value
  rw [fourth, third, second, first]
  rcases byte_succ a.a2 with ⟨w2, e2, n2⟩ | ⟨w2, n2⟩
  · rcases byte_succ a.a1 with ⟨w1, e1, n1⟩ | ⟨w1, n1⟩
    · rw [if_pos w2, if_pos ⟨w2, w1⟩]
      rcases byte_succ a.a0 with ⟨-, e0, n0⟩ | ⟨-, n0⟩ <;> omega
    · rw [if_pos w2, if_neg fun h => w1 h.2]
      omega
  · rw [if_neg w2, if_neg fun h => w2 h.1]
    omega

/-- `k` steps, with the carries of each. -/
theorem stepAddr_iterate (a : Addr) (k : Nat) :
    (stepAddr^[k] a).value = (a.value + 0x100 * k) % 2 ^ 32 ∧ (stepAddr^[k] a).a3 = a.a3 := by
  induction k with
  | zero =>
    have b0 := a.a0.isLt
    have b1 := a.a1.isLt
    have b2 := a.a2.isLt
    have b3 := a.a3.isLt
    refine ⟨?_, rfl⟩
    simp only [Function.iterate_zero, id, Addr.value]
    omega
  | succ k ih =>
    obtain ⟨value, fourth⟩ := ih
    obtain ⟨kept, -⟩ := stepAddr_bytes (stepAddr^[k] a)
    rw [Function.iterate_succ_apply', stepAddr_value, value, kept]
    exact ⟨by omega, fourth⟩

/-- Settles O27: `INC_ADDR` is the carry rule; `k` of them by induction. -/
theorem incAddrAdvancesByOneBlock : Obligations.IncAddrAdvancesByOneBlock := by
  refine ⟨fun s => ?_, stepAddr_iterate⟩
  obtain ⟨fourth, third, second, first⟩ := stepAddr_bytes s.addr
  exact ⟨_, rfl, stepAddr_value s.addr, fourth, third, second, first, rfl⟩

/-! ### `FETCH_BLOCK` (R274) -/

theorem stoRead_length (cap n : Nat) (w : World) : (World.stoRead cap n w).2.length ≤ n :=
  List.length_take_le _ _

/-- What `FETCH_BLOCK` does with every answer: `NREAD` is its length (R27). -/
theorem fetchBlock_nread (s : State) :
    s.fetchBlock.1.nread = BitVec.ofNat 9 (World.stoRead s.cap s.par.block s.world).2.length := by
  unfold State.fetchBlock
  dsimp only
  split <;> rfl

/-- A read of another length is `false` and leaves `BUF` (R274). -/
theorem fetchBlock_of_other {s : State}
    (other : (World.stoRead s.cap s.par.block s.world).2.length ≠ s.wantedBytes) :
    s.fetchBlock.2 = false ∧ s.fetchBlock.1.buf = s.buf := by
  unfold State.fetchBlock
  dsimp only
  split
  · exact ⟨rfl, rfl⟩
  · next wanted => exact absurd other wanted

/-- Settles O28: the length of the provider's answer decides. -/
theorem fetchBlockAcceptsOnlyTheWantedLength : Obligations.FetchBlockAcceptsOnlyTheWantedLength := by
  rintro s ⟨-, block, -, pad, -⟩
  have wanted : s.wantedBytes = min 256 (s.imgSize.toNat - 256 * s.blk.toNat) := by
    rw [State.wantedBytes, block]
  refine ⟨_, (World.stoRead s.cap s.par.block s.world).2, rfl, ?_, fetchBlock_nread s, ?_, fun eq => ?_,
    fun ne => ?_, ?_⟩
  · exact block ▸ stoRead_length s.cap s.par.block s.world
  · rw [State.returnOk_world, fetchBlock_world, block]
    rfl
  · obtain ⟨ok, buf⟩ := fetchBlock_of_wanted (eq.trans wanted.symm)
    exact ⟨congrArg Ret.ok ok, by rw [State.returnOk_buf, buf, padBlock, block, pad]⟩
  · obtain ⟨failed, kept⟩ := fetchBlock_of_other (wanted ▸ ne)
    exact ⟨congrArg Ret.ok failed, kept⟩
  · exact congrArg (State.setRet · (.ok s.fetchBlock.2)) (fetchBlock_frame s)

end Sys2Proof.Machine
end

section
/-!
PROOFS. The sequence one step at a time (spec/45_orchestrator.md R262 to R264, R266, R269, R270): what a step
does where nothing is placed, and the states whose work is single events.
-/
namespace Sys2Proof.Machine

/-! ### A step where nothing is placed -/

theorem popInput_of_nil {s : State} (inputs : s.inputs = []) : s.popInput = s := by
  cases s
  cases inputs
  rfl

/-- Undisturbed, a step is the next step of the sequence. -/
theorem State.undisturbed.step {s : State} {st : St} {pos : Pos} (h : s.undisturbed st pos) :
    step s = .next s.seqStep := by
  obtain ⟨-, -, slot, inputs⟩ := h
  rw [step_sequence s slot (by simp [State.input, inputs]), popInput_of_nil inputs]

/-- Without a placed operation a step samples the ports and goes on. -/
theorem step_of_no_slot {s : State} (slot : s.slot = none) : step s = .next s.advance := by
  cases input : s.input with
  | rst => simp [step, select, State.advance, input]
  | none | start => simp [step, select, slot, input]

/-- Settles O4: a `start` is sampled only where BUSY is 0. -/
theorem startWhileBusyIsTurnedAway : Obligations.StartWhileBusyIsTurnedAway := by
  intro s c nm rest notIdle notDone
  have busy : s.busy = true := Bool.eq_true_of_not_eq_false fun idle => by
    simpa [notIdle, notDone] using (busy_eq_false s).mp idle
  refine ⟨congrArg Host.Outcome.next (if_pos busy), fun slot => ?_⟩
  rw [step_of_no_slot (s := { s with inputs := .start c nm :: rest }) slot,
    step_of_no_slot (s := { s with inputs := .none :: rest }) slot]
  exact congrArg Host.Outcome.next (if_pos busy)

/-! ### The configuration and the storage (R262, R263) -/

/-- The FlasherConfig test is its eight conditions (R262). -/
theorem cfgValid_iff (p : Params) (c : Cfg) : cfgValid p c = true ↔
    c.reset ≠ p.unset ∧ c.boot ≠ p.unset ∧ c.tx ≠ p.unset ∧ c.rx ≠ p.unset ∧ c.ch ≠ p.unset
      ∧ c.ch.toNat < p.uartChannels ∧ c.tx ≠ c.rx ∧ c.reset ≠ c.boot := by
  simp [cfgValid, and_assoc]

theorem seqStep_configValidated {s : State} (st : s.st = .configValidated) :
    s.seqStep = s.validateConfig := by simp [State.seqStep, st]

theorem seqStep_storageReady {s : State} (st : s.st = .storageReady) : s.seqStep = s.mountStorage := by
  simp [State.seqStep, st]

/-- A failure is recorded where none was. -/
theorem raiseFail_result {s : State} (kind : Result) (success : s.result = .success) :
    (s.raiseFail kind).result = kind := if_pos success

/-- Settles O30: the test decides, and no event is made. -/
theorem invalidConfigurationFailsBeforeAnyProviderCall :
    Obligations.InvalidConfigurationFailsBeforeAnyProviderCall := by
  intro s st slot input
  refine ⟨_, step_sequence s slot input, ?_⟩
  rw [seqStep_configValidated (s := s.popInput) st, ← cfgValid_iff]
  unfold State.validateConfig
  split
  · next valid => exact ⟨rfl, rfl, fun _ => ⟨rfl, rfl⟩, fun invalid => absurd valid invalid⟩
  · next invalid =>
    exact ⟨rfl, rfl, fun valid => absurd valid invalid,
      fun _ => ⟨rfl, raiseFail_result (s := s.popInput) .configurationInvalid⟩⟩

/-- Settles O31: the answer of `StoMount` decides. -/
theorem storageFailureAbortsBeforeAnyLine : Obligations.StorageFailureAbortsBeforeAnyLine := by
  intro s st slot input
  refine ⟨_, (World.stoMount s.cap s.world).2, step_sequence s slot input, ?_⟩
  rw [seqStep_storageReady (s := s.popInput) st]
  unfold State.mountStorage
  dsimp only
  split
  · next mounted => exact ⟨rfl, rfl, fun _ => ⟨rfl, rfl⟩, 
      fun failed => absurd (failed.symm.trans mounted) Bool.false_ne_true⟩
  · next failed =>
    exact ⟨rfl, rfl, fun mounted => absurd mounted failed,
      fun _ => ⟨rfl, raiseFail_result (s := (s.popInput.ask _).1) .transportInitFailed⟩⟩

/-! ### The image is opened and sized (R264) -/

theorem seqStep_open {s : State} (st : s.st = .imageLocated) (pos : s.pos = .entry) :
    s.seqStep = s.openImage := by simp [State.seqStep, st, pos]

theorem seqStep_size {s : State} (st : s.st = .imageLocated) (pos : s.pos = .size) :
    s.seqStep = s.sizeImage := by simp [State.seqStep, st, pos]

/-- `NBLK` is the size over a block of 256, rounded up (R264). -/
theorem blocksOf_bounds {par : Params} (block : par.block = 256) {n : Nat} (nonempty : 1 ≤ n) :
    256 * (blocksOf par n - 1) < n ∧ n ≤ 256 * blocksOf par n := by
  rw [blocksOf, block]
  omega

/-- The registers after a size that is accepted, none of which the answer overflows (log 10). -/
theorem blocksOf_toNat {par : Params} (block : par.block = 256) {n : Nat} (fits : n ≤ 256 * 65535) :
    (BitVec.ofNat 16 (blocksOf par n)).toNat = blocksOf par n := by
  rw [BitVec.toNat_ofNat, blocksOf, block]
  omega

/-- ImageLocated after the answer `n` of `StoSize`, before it is tested (R264). -/
def State.withSize (s : State) (n : Nat) : State :=
  { (s.ask (World.stoSize s.cap)).1 with imgSize := BitVec.ofNat 32 n }

/-- The answer of `StoSize` is tested in order: empty, then too large (R264). -/
theorem sizeImage_eq (s : State) : ∃ n, (s.withSize n).world.trace = .stoSize n :: s.world.trace
    ∧ s.sizeImage =
      if n = 0 then (s.withSize n).raiseFail .imageEmpty
      else if s.par.maxImage < n then (s.withSize n).raiseFail .imageTooLarge
      else ({ s.withSize n with
        nblk := BitVec.ofNat 16 (blocksOf s.par n), modeEntered := true } : State).goto .modeEntered :=
  ⟨_, rfl, rfl⟩

/-- A failure at the start of a state's work. -/
theorem raiseFail_of_entry {s : State} (kind : Result) (entry : s.pos = .entry)
    (success : s.result = .success) :
    s.raiseFail kind = { s with st := .modeExited, result := kind } := by
  rw [State.raiseFail, if_pos success, ← entry]

/-- The second step of ImageLocated: the answer of `StoSize` decides (R264). -/
theorem sizing_decides {s : State} (h : s.undisturbed .imageLocated .size) (success : s.result = .success)
    (block : s.par.block = 256) (bound : s.par.maxImage ≤ 256 * 65535) :
    ∃ t n, step s = .next t ∧ t.world.trace = .stoSize n :: s.world.trace
      ∧ t = { s with
          world := t.world, st := t.st, pos := .entry, result := t.result, imgSize := BitVec.ofNat 32 n
          nblk := t.nblk, modeEntered := t.modeEntered }
      ∧ (n = 0 → t.st = .modeExited ∧ t.result = .imageEmpty ∧ t.nblk = s.nblk
          ∧ t.modeEntered = s.modeEntered)
      ∧ (s.par.maxImage < n → 1 ≤ n → t.st = .modeExited ∧ t.result = .imageTooLarge ∧ t.nblk = s.nblk
          ∧ t.modeEntered = s.modeEntered)
      ∧ (1 ≤ n → n ≤ s.par.maxImage → t.st = .modeEntered ∧ t.result = .success
          ∧ t.modeEntered = true ∧ t.imgSize.toNat = n
          ∧ 256 * (t.nblk.toNat - 1) < n ∧ n ≤ 256 * t.nblk.toNat) := by
  have move := h.step
  obtain ⟨st, pos, -, -⟩ := h
  rw [seqStep_size st pos] at move
  obtain ⟨n, trace, e⟩ := sizeImage_eq s
  refine ⟨_, n, move, ?_⟩
  rw [e]
  split
  · next empty => exact ⟨trace, rfl, fun _ => ⟨rfl, if_pos success, rfl, rfl⟩, by omega, by omega⟩
  · next nonempty =>
    split
    · next large =>
      exact ⟨trace, rfl, fun empty => absurd empty nonempty, fun _ _ => ⟨rfl, if_pos success, rfl, rfl⟩,
        by omega⟩
    · next fits =>
      refine ⟨trace, rfl, fun empty => absurd empty nonempty, fun large => absurd large fits,
        fun one le => ⟨rfl, success, rfl, ?_, ?_⟩⟩
      · exact (BitVec.toNat_ofNat n 32).trans (Nat.mod_eq_of_lt (by omega))
      · show 256 * ((BitVec.ofNat 16 (blocksOf s.par n)).toNat - 1) < n
          ∧ n ≤ 256 * (BitVec.ofNat 16 (blocksOf s.par n)).toNat
        rw [blocksOf_toNat block (by omega)]
        exact blocksOf_bounds block one

/-- Settles O32: the answer of `StoOpen` decides the first step, that of `StoSize` the second. -/
theorem imageChecksAreMadeInOrder : Obligations.ImageChecksAreMadeInOrder := by
  rintro s h success ⟨-, block, -⟩ bound
  have move := h.step
  obtain ⟨st, pos, slot, inputs⟩ := h
  rw [seqStep_open st pos] at move
  refine ⟨_, (World.stoOpen s.cap s.name s.world).2, move, ?_⟩
  unfold State.openImage
  dsimp only
  split
  · next opened =>
    refine ⟨rfl, fun failed => absurd (failed.symm.trans opened) Bool.false_ne_true, fun _ => ⟨rfl, ?_⟩⟩
    exact sizing_decides ⟨st, rfl, slot, inputs⟩ success block bound
  · next failed =>
    refine ⟨rfl, fun _ => ?_, fun opened => absurd opened failed⟩
    exact raiseFail_of_entry (s := (s.ask _).1) .imageNotFound pos success

/-! ### TransportReady (R266) -/

theorem seqStep_configureUart {s : State} (st : s.st = .transportReady) (pos : s.pos = .entry) :
    s.seqStep = s.configureUart := by simp [State.seqStep, st, pos]

theorem seqStep_setPins {s : State} {ok1 : Bool} (st : s.st = .transportReady) (pos : s.pos = .pins ok1) :
    s.seqStep = s.setPins ok1 := by simp [State.seqStep, st, pos]

/-- Settles O34: both calls are made, and both answers decide. -/
theorem uartIsConfiguredThenGivenItsPins : Obligations.UartIsConfiguredThenGivenItsPins := by
  rintro s h ⟨-, -, -, -, uart, -⟩
  have move := h.step
  obtain ⟨st, pos, slot, inputs⟩ := h
  rw [seqStep_configureUart st pos] at move
  have pins : s.configureUart.undisturbed .transportReady
      (.pins (World.uartConfigure s.cap s.cfg.ch s.par.uart s.world).2) := ⟨st, rfl, slot, inputs⟩
  have move2 := pins.step
  rw [seqStep_setPins pins.1 pins.2.1] at move2
  refine ⟨_, _, (World.uartConfigure s.cap s.cfg.ch s.par.uart s.world).2,
    (World.uartSetPins s.cap s.cfg s.configureUart.world).2, move, move2, ?_, rfl, ?_⟩
  · rw [← uart]
    rfl
  generalize (World.uartConfigure s.cap s.cfg.ch s.par.uart s.world).2 = ok1
  unfold State.setPins
  dsimp only
  split
  · next both =>
    refine ⟨rfl, fun _ _ => ?_, fun notBoth => absurd ((Bool.and_eq_true ..).mp both) notBoth⟩
    show ({ s with world := _, st := .presenceConfirmed, pos := .entry } : State) = _
    rw [← pos]
    rfl
  · next notBoth =>
    refine ⟨rfl, fun a b => absurd ((Bool.and_eq_true ..).mpr ⟨a, b⟩) notBoth, fun _ => ?_⟩
    show ({ s with
      world := _, st := .modeExited, pos := .entry
      result := if s.result = .success then .transportInitFailed else s.result } : State) = _
    rw [← pos]
    rfl

/-! ### Where an operation has returned -/

/-- Control goes on as after the operation run on its own, but for the value returned (log 20). -/
theorem goPos_returned {r : State × Bool} {ret : Ret} (kept : r.1.ret = ret) (p : Pos) :
    r.1.goPos p = { State.returnOk r with ret := ret, pos := p } := by
  rw [← kept]
  rfl

theorem goto_returned {r : State × Bool} {ret : Ret} (kept : r.1.ret = ret) (st : St) :
    r.1.goto st = { State.returnOk r with ret := ret, st := st, pos := .entry } := by
  rw [← kept]
  rfl

theorem raiseFail_returned {r : State × Bool} {ret : Ret} {result : Result} (kept : r.1.ret = ret)
    (unfailed : r.1.result = result) (kind : Result) :
    r.1.raiseFail kind = { State.returnOk r with
      ret := ret, st := .modeExited, pos := .entry
      result := if result = .success then kind else result } := by
  rw [← kept, ← unfailed]
  rfl

/-! ### The block loops (R269, R270, R274) -/

theorem seqStep_seedWriting {s : State} (st : s.st = .writing) (pos : s.pos = .entry) :
    s.seqStep = s.seedBlocks := by simp [State.seqStep, st, pos]

theorem seqStep_seedReading {s : State} (st : s.st = .reading) (pos : s.pos = .entry) :
    s.seqStep = s.seedReading := by simp [State.seqStep, st, pos]

theorem seqStep_nextWriting {s : State} (st : s.st = .writing) (pos : s.pos = .blocks) :
    s.seqStep = s.nextBlock .writeMem .reading := by simp [State.seqStep, st, pos]

theorem seqStep_nextReading {s : State} (st : s.st = .reading) (pos : s.pos = .blocks) :
    s.seqStep = s.nextBlock .readMem .modeExited := by simp [State.seqStep, st, pos]

theorem nextBlock_fetched {s : State} (more : s.blk.toNat < s.nblk.toNat) (ok : s.fetchBlock.2 = true)
    (page : Stage) (after : St) : s.nextBlock page after = s.fetchBlock.1.issue page := by
  simp [State.nextBlock, more, ok]

theorem nextBlock_unreadable {s : State} (more : s.blk.toNat < s.nblk.toNat)
    (failed : s.fetchBlock.2 = false) (page : Stage) (after : St) :
    s.nextBlock page after = s.fetchBlock.1.raiseFail .imageUnreadable := by
  simp [State.nextBlock, more, failed]

theorem nextBlock_left {s : State} (complete : s.nblk.toNat ≤ s.blk.toNat) (page : Stage) (after : St) :
    s.nextBlock page after = s.goto after := if_neg (Nat.not_lt.mpr complete)

theorem fetchBlock_ret (s : State) : s.fetchBlock.1.ret = s.ret := by rw [fetchBlock_frame]

theorem fetchBlock_result (s : State) : s.fetchBlock.1.result = s.result := by rw [fetchBlock_frame]

/-- Settles O37: the step from the start of a phase, and from the head of its loop. -/
theorem blockPhasesSeedAndFetch : Obligations.BlockPhasesSeedAndFetch := by
  intro s slot input
  rw [step_sequence s slot input]
  refine ⟨fun st pos => ?_, fun st pos => ?_, fun st pos more => ?_, fun st pos complete => ?_,
    fun st pos complete => ?_⟩
  · rw [seqStep_seedWriting (s := s.popInput) st pos]
    rfl
  · rw [seqStep_seedReading (s := s.popInput) st pos]
    exact ⟨_, rfl, rfl, rfl⟩
  · refine ⟨_, s.popInput.fetchBlock.2, rfl, rfl, fun ok st => ?_, fun ok st => ?_, fun failed => ?_⟩
    · rw [seqStep_nextWriting (s := s.popInput) st pos, nextBlock_fetched (s := s.popInput) more ok]
      exact congrArg Host.Outcome.next (goPos_returned (fetchBlock_ret s.popInput) _)
    · rw [seqStep_nextReading (s := s.popInput) st pos, nextBlock_fetched (s := s.popInput) more ok]
      exact congrArg Host.Outcome.next (goPos_returned (fetchBlock_ret s.popInput) _)
    · have unreadable : s.popInput.seqStep = s.popInput.fetchBlock.1.raiseFail .imageUnreadable := by
        rcases st with st | st
        · rw [seqStep_nextWriting (s := s.popInput) st pos, nextBlock_unreadable (s := s.popInput) more failed]
        · rw [seqStep_nextReading (s := s.popInput) st pos, nextBlock_unreadable (s := s.popInput) more failed]
      rw [unreadable]
      exact congrArg Host.Outcome.next
        (raiseFail_returned (fetchBlock_ret s.popInput) (fetchBlock_result s.popInput) _)
  · rw [seqStep_nextWriting (s := s.popInput) st pos, nextBlock_left (s := s.popInput) complete]
    rfl
  · rw [seqStep_nextReading (s := s.popInput) st pos, nextBlock_left (s := s.popInput) complete]
    rfl

end Sys2Proof.Machine
end

section
/-!
PROOFS. The operations of the sequence, event by event (spec/92_eei_decisions.md D33): each is led from its
first event to what follows it (`bootMode_leads`, `attempts_lead`, `massErase_leads`, `pageWrite_leads`, and so
on), where the state is the one the operation answers in one step.
-/
namespace Sys2Proof.Machine

/-! ### Several steps -/

/-- Some number of steps of the sequence leads from `s` to `t`. -/
def Leads (s t : State) : Prop := ∃ k, State.seqStep^[k] s = t

theorem Leads.refl (s : State) : Leads s s := ⟨0, rfl⟩

/-- One step, then some more. -/
theorem Leads.head {s t u : State} (e : s.seqStep = t) (run : Leads t u) : Leads s u := sequence_cons e run

theorem Leads.trans {s t u : State} (first : Leads s t) (rest : Leads t u) : Leads s u :=
  sequence_trans first rest

theorem Leads.untouched {s t : State} (run : Leads s t) : Untouched s t := by
  obtain ⟨k, rfl⟩ := run
  induction k with
  | zero => exact .refl s
  | succ k ih =>
    rw [Function.iterate_succ_apply']
    exact ih.trans (seqStep_untouched _)

/-- No step of the sequence writes the value returned (log 20). -/
theorem Leads.ret {s t : State} (run : Leads s t) : t.ret = s.ret := by
  obtain ⟨-, -, -, -, ret, -⟩ := run.untouched
  exact ret

/-- Two states with the same next step lead to the same states, but for the states themselves. -/
theorem Leads.of_same_step {s u t : State} (run : Leads u t) (same : s.seqStep = u.seqStep) (ne : u ≠ t) :
    Leads s t := by
  obtain ⟨k, e⟩ := run
  cases k with
  | zero => exact absurd e ne
  | succ k => exact ⟨k + 1, by rwa [Function.iterate_succ_apply, same]⟩

/-- Undisturbed, what the sequence leads to is reached by the machine. -/
theorem State.undisturbed.reaches {s t : State} {st : St} {pos : Pos} (h : s.undisturbed st pos)
    (run : Leads s t) : Reaches s t := by
  obtain ⟨-, -, slot, inputs⟩ := h
  exact reaches_of_sequence slot inputs run

/-! ### `ENTER_BL` and `EXIT_BL` (R131 to R133, R265, R271) -/

/-- The return of `ENTER_BL` or `EXIT_BL` does not read the position it was at. -/
theorem bootDone_goPos (s : State) (p : Pos) (ok : Bool) : (s.goPos p).bootDone ok = s.bootDone ok := by
  unfold State.bootDone
  cases h : s.st <;> simp [State.goPos, State.goto, State.raiseFail, h]

theorem seqStep_inBoot {s : State} (st : s.st = .modeEntered ∨ s.st = .modeExited) {p : Pos}
    (pos : s.pos = p) (inOp : p.inBootOp = true) : s.seqStep = s.bootStep p := by
  cases p with
  | dirBoot | level | pulse => rcases st with st | st <;> simp [State.seqStep, st, pos]
  | _ => cases inOp

/-- After `SetDir(RESET)` the second call is made, and both answers decide (R133). -/
theorem configBoot_configLines (s : State) (p : Pos) :
    ((s.setDir .reset).1.goPos p).configBoot (s.setDir .reset).2
      = if s.configLines.2 then s.configLines.1.goPos .level else s.configLines.1.bootDone false := by
  have sameEnd := bootDone_goPos s.configLines.1 p false
  unfold State.configBoot
  dsimp only
  split
  · next ok => exact (if_pos ok).symm
  · next failed => exact sameEnd.trans (if_neg failed).symm

/-- From its second event on, the operation of ModeEntered or ModeExited ends as in one step. -/
theorem bootMode_leads {s : State} {level : Bool}
    (st : s.st = .modeEntered ∧ level = true ∨ s.st = .modeExited ∧ level = false) :
    Leads s.configReset ((s.bootMode level).1.bootDone (s.bootMode level).2) := by
  have boot : s.st = .modeEntered ∨ s.st = .modeExited := st.imp And.left And.left
  have drive : (s.st != .modeExited) = level := by rcases st with ⟨e, rfl⟩ | ⟨e, rfl⟩ <;> rw [e] <;> rfl
  have first := seqStep_inBoot (s := s.configReset) (p := .dirBoot (s.setDir .reset).2) boot rfl rfl
  have second : s.configReset.bootStep (.dirBoot (s.setDir .reset).2)
      = ((s.setDir .reset).1.goPos (.dirBoot (s.setDir .reset).2)).configBoot (s.setDir .reset).2 := rfl
  refine .head (first.trans second) ?_
  rw [configBoot_configLines]
  cases ok : s.configLines.2 with
  | false =>
    rw [bootMode_fails level ok]
    exact .refl _
  | true =>
    have run : s.bootMode level = ((s.configLines.1.setLevel .boot level).resetPulse, true) := by
      simp [State.bootMode, ok]
    have driven : (s.configLines.1.goPos .level).bootStep .level
        = (s.configLines.1.setLevel .boot level).goPos (.pulse .low) := by
      rw [← drive]
      rfl
    have atLevel := seqStep_inBoot (s := s.configLines.1.goPos .level) (p := .level) boot rfl rfl
    rw [if_pos rfl, run]
    refine .head (atLevel.trans driven) ?_
    have kept : (s.configLines.1.setLevel .boot level).st = s.configLines.1.st := State.setLevel_st ..
    generalize s.configLines.1.setLevel .boot level = u at kept ⊢
    rw [show s.st = u.st from kept.symm] at boot
    obtain ⟨pulsed, -⟩ := (resetPulse_frame u).keeps
    have ends := pulseDone_boot (s := u.resetPulse) (by rwa [pulsed])
    have low : (u.goPos (.pulse .low)).bootStep (.pulse .low) = u.pulseStep .low := rfl
    have atPulse := seqStep_inBoot (s := u.goPos (.pulse .low)) (p := .pulse .low) boot rfl rfl
    exact ends ▸ .head (atPulse.trans low) (pulse_runs u (boot.imp_right .inl))

/-- Settles O33: from the first event of `ENTER_BL` to its return, which decides. -/
theorem modeEnteredRunsEnterBl : Obligations.ModeEnteredRunsEnterBl := by
  intro s h
  obtain ⟨st, pos, -, -⟩ := id h
  have first : s.seqStep = s.configReset := by simp [State.seqStep, State.bootStep, st, pos]
  have run := Leads.head first (bootMode_leads (.inl ⟨st, rfl⟩))
  obtain ⟨still, -, -, -, -, -, -, -, result, -⟩ := (bootMode_frame s true).keeps
  rw [bootDone_modeEntered (still.trans st)] at run
  refine ⟨_, s.enterBl.2, rfl, rfl, fun ok => ?_, fun failed => ?_⟩
  · rw [if_pos (show (s.bootMode true).2 = true from ok)] at run
    exact goto_returned run.ret _ ▸ h.reaches run
  · rw [if_neg (by simp [show (s.bootMode true).2 = false from failed])] at run
    exact raiseFail_returned run.ret result _ ▸ h.reaches run

/-! ### The cleanup (R271, R272, R76) -/

theorem seqStep_startCleanup {s : State} (st : s.st = .modeExited) (pos : s.pos = .entry) :
    s.seqStep = s.startCleanup := by simp [State.seqStep, st, pos]

theorem seqStep_closing {s : State} (st : s.st = .modeExited) (pos : s.pos = .closing) :
    s.seqStep = s.cleanupImage := by simp [State.seqStep, st, pos]

/-- Settles O39: the boot-mode exit from its first event to its return, and the three single steps. -/
theorem cleanupUndoesWhatWasBegun : Obligations.CleanupUndoesWhatWasBegun := by
  intro s
  refine ⟨fun h entered => ?_, fun h left => ?_, fun h opened => ?_, fun h closed => ?_⟩
  · obtain ⟨st, pos, -, -⟩ := id h
    have first : s.seqStep = s.configReset := (seqStep_startCleanup st pos).trans (if_pos entered)
    have run := Leads.head first (bootMode_leads (.inr ⟨st, rfl⟩))
    obtain ⟨still, -⟩ := (bootMode_frame s false).keeps
    rw [bootDone_modeExited (still.trans st)] at run
    have kept : (s.bootMode false).1.ret = s.ret := run.ret
    refine ⟨_, rfl, ?_⟩
    rw [← kept]
    exact h.reaches run
  · obtain ⟨st, pos, -, -⟩ := id h
    rw [h.step, seqStep_startCleanup st pos]
    exact congrArg Host.Outcome.next (if_neg (by simp [left]))
  · obtain ⟨st, pos, -, -⟩ := id h
    rw [h.step, seqStep_closing st pos]
    exact ⟨_, rfl, congrArg Host.Outcome.next (if_pos opened)⟩
  · obtain ⟨st, pos, -, -⟩ := id h
    rw [h.step, seqStep_closing st pos]
    exact congrArg Host.Outcome.next (if_neg (by simp [closed]))

/-! ### An exchange does not read the position (R21) -/

theorem stageFrame_goPos (s : State) (p : Pos) (c : Stage) :
    (s.goPos p).stageFrame c = ((s.stageFrame c).1.goPos p, (s.stageFrame c).2) := by cases c <;> rfl

theorem send_goPos (s : State) (p : Pos) (bs : Bytes) :
    (s.goPos p).send bs = ((s.send bs).1.goPos p, (s.send bs).2) := rfl

theorem awaitBytes_goPos (s : State) (p : Pos) (n T : Nat) :
    (s.goPos p).awaitBytes n T = ((s.awaitBytes n T).1.goPos p, (s.awaitBytes n T).2) :=
  awaitLoop_goPos n T p (T + 1) { s with elapsed := 0 }

theorem exchange_goPos (s : State) (p : Pos) (bs : Bytes) (n : Nat) :
    (s.goPos p).exchange bs n = ((s.exchange bs n).1.goPos p, (s.exchange bs n).2) := by
  unfold State.exchange
  rw [send_goPos]
  dsimp only
  generalize (s.send bs).1 = u
  split
  · rfl
  · rw [awaitBytes_goPos, State.goPos_par]
    dsimp only
    generalize u.awaitBytes n u.par.timeout = w
    split <;> rfl

theorem command_goPos (s : State) (p : Pos) (c : Stage) :
    (s.goPos p).command c = ((s.command c).1.goPos p, (s.command c).2) := by
  unfold State.command
  rw [stageFrame_goPos]
  exact exchange_goPos _ _ _ _

theorem stageTx_goPos (s : State) (p : Pos) (c : Stage) : (s.goPos p).stageTx c = s.stageTx c := by
  unfold State.stageTx
  rw [stageFrame_goPos]
  dsimp only
  rw [send_goPos]
  dsimp only
  generalize ((s.stageFrame c).1.send (s.stageFrame c).2).1 = u
  split
  · exact stageDone_goPos (u.setXok false) c false p
  · rfl

/-! ### Stages and composite commands (R199 to R210) -/

theorem Params.wf_bounds {p : Params} (wf : p.wf = true) :
    1 ≤ p.pollInterval ∧ 1 ≤ p.maxAttempts ∧ p.maxAttempts ≤ 3 ∧ p.timeout + p.pollInterval < 2 ^ 32 := by
  simp only [Params.wf, Bool.and_eq_true, decide_eq_true_eq] at wf
  obtain ⟨⟨⟨⟨⟨poll, -⟩, least⟩, most⟩, -⟩, bound⟩ := wf
  exact ⟨poll, least, most, bound⟩

theorem command_st (s : State) (c : Stage) : (s.command c).1.st = s.st := by
  obtain ⟨st, -⟩ := (command_frame s c).keeps
  exact st

theorem command_par (s : State) (c : Stage) : (s.command c).1.par = s.par :=
  (command_related (worldRel_true s.cap) c).1

/-- What follows an operation whose last stage is `c`. -/
def State.ended (c : Stage) (r : State × Bool) : State := r.1.stageDone c r.2

/-- A stage, taken event by event, ends as its command does. -/
theorem stage_leads {s : State} {c : Stage} (st : s.st = c.home) (wf : s.par.wf = true) :
    Leads (s.issue c) (State.ended c (s.command c)) := by
  obtain ⟨poll, -, -, bound⟩ := Params.wf_bounds wf
  have run := stage_runs (s.issue c) c st rfl poll bound
  rw [State.issue, command_goPos, stageDone_goPos] at run
  exact run

/-- A stage that gates the rest of an operation whose last stage is `e`: its failure is the operation's. -/
theorem gated_leads {s : State} {c d e : Stage} {rest : State × Bool} (st : s.st = c.home)
    (wf : s.par.wf = true) (pass : ∀ u : State, u.stageDone c true = u.issue d)
    (fail : ∀ u : State, u.stageDone c false = u.stageDone e false)
    (run : Leads ((s.command c).1.issue d) (State.ended e rest)) :
    Leads (s.issue c) (State.ended e (if (s.command c).2 then rest else ((s.command c).1, false))) := by
  have stage := stage_leads st wf
  unfold State.ended at stage
  cases ok : (s.command c).2 with
  | true => exact stage.trans (by rw [ok, pass]; exact run)
  | false =>
    rw [ok, fail] at stage
    exact stage

/-- `MASS_ERASE` (R204), event by event. -/
theorem massErase_leads {s : State} (st : s.st = .erased) (wf : s.par.wf = true) :
    Leads (s.issue .massEraseCmd) (s.massErase.1.massErased s.massErase.2) :=
  gated_leads (c := .massEraseCmd) (d := .massEraseParam) (e := .massEraseParam) st wf (fun _ => rfl) (fun _ => rfl)
    (stage_leads ((command_st _ _).trans st) (by rwa [command_par]))

/-- `EXT_ERASE` (R205), event by event. -/
theorem extErase_leads {s : State} (st : s.st = .erased) (wf : s.par.wf = true) :
    Leads (s.issue .extEraseCmd) (s.extErase.1.extErased s.extErase.2) :=
  gated_leads (c := .extEraseCmd) (d := .extEraseParam) (e := .extEraseParam) st wf (fun _ => rfl) (fun _ => rfl)
    (stage_leads ((command_st _ _).trans st) (by rwa [command_par]))

/-- `PAGE_WRITE` (R209), event by event. -/
theorem pageWrite_leads {s : State} (st : s.st = .writing) (wf : s.par.wf = true) :
    Leads (s.issue .writeMem) (s.pageWrite.1.pageDone s.pageWrite.2 .writeFailed) := by
  have st1 := (command_st s .writeMem).trans st
  have wf1 : (s.command .writeMem).1.par.wf = true := by rwa [command_par]
  refine gated_leads (e := .pageData) st wf (fun _ => rfl) (fun _ => rfl) ?_
  refine gated_leads st1 wf1 (fun _ => rfl) (fun _ => rfl) ?_
  exact stage_leads ((command_st _ _).trans st1) (by rwa [command_par])

/-- `PAGE_READ` (R210), event by event. -/
theorem pageRead_leads {s : State} (st : s.st = .reading) (wf : s.par.wf = true) :
    Leads (s.issue .readMem) (s.pageRead.1.pageDone s.pageRead.2 .readFailed) := by
  have st1 := (command_st s .readMem).trans st
  have wf1 : (s.command .readMem).1.par.wf = true := by rwa [command_par]
  refine gated_leads (e := .pageLen) st wf (fun _ => rfl) (fun _ => rfl) ?_
  exact (stage_leads st1 wf1).trans (stage_leads ((command_st _ _).trans st1) (by rwa [command_par]))

/-! ### `DETECT` (R240, D6) -/

theorem attemptPulsed_st (s : State) : s.attemptPulsed.st = s.st := by
  obtain ⟨st, -⟩ := (resetPulse_frame { s with attempt := s.attempt + 1 }).keeps
  exact st

theorem attemptPulsed_par (s : State) : s.attemptPulsed.par = s.par :=
  (resetPulse_related (s := { s with attempt := s.attempt + 1 }) (worldRel_true s.cap)).1

theorem detectAttempt_st (s : State) : s.detectAttempt.1.st = s.st := by
  obtain ⟨st, -⟩ := (detectAttempt_frame s).keeps
  exact st

theorem backedOff_st (s : State) : s.backedOff.st = s.st := by
  rw [State.backedOff, State.wait_st, detectAttempt_st]

/-- An attempt, event by event. -/
theorem attempt_leads {s : State} (st : s.st = .presenceConfirmed) (wf : s.par.wf = true) :
    Leads s.startAttempt (State.ended .get s.detectAttempt) := by
  have pulse : Leads s.startAttempt s.attemptPulsed.pulseDone :=
    pulse_runs { s with attempt := s.attempt + 1 } (.inr (.inr st))
  have st1 := (attemptPulsed_st s).trans st
  have wf1 : s.attemptPulsed.par.wf = true := by rwa [attemptPulsed_par]
  rw [pulseDone_presence st1] at pulse
  rw [detectAttempt_eq]
  refine pulse.trans (gated_leads st1 wf1 (fun _ => rfl) (fun _ => rfl) ?_)
  exact stage_leads ((command_st _ _).trans st1) (by rwa [command_par])

/-- What follows `DETECT` (R267, R275). -/
def State.detected (r : State × Bool) : State :=
  if r.2 then r.1.presenceFound else r.1.raiseFail .targetNotFound

theorem detected_found {r : State × Bool} (found : r.2 = true) : State.detected r = r.1.presenceFound :=
  if_pos found

theorem detected_failed {r : State × Bool} (failed : r.2 = false) :
    State.detected r = r.1.raiseFail .targetNotFound := if_neg (by simp [failed])

theorem ended_get_found {r : State × Bool} (found : r.2 = true) :
    State.ended .get r = r.1.presenceFound := by
  rw [State.ended, found]
  rfl

theorem ended_get_failed {r : State × Bool} (failed : r.2 = false) :
    State.ended .get r = r.1.attemptFailed := by
  rw [State.ended, failed]
  rfl

theorem attemptFailed_last {s : State} (last : s.attempt.toNat = s.par.maxAttempts) :
    s.attemptFailed = s.raiseFail .targetNotFound := if_pos last

theorem attemptFailed_again {s : State} (more : s.attempt.toNat ≠ s.par.maxAttempts) :
    s.attemptFailed = s.goPos .backoff := if_neg more

theorem seqStep_backoff {s : State} (st : s.st = .presenceConfirmed) (pos : s.pos = .backoff) :
    s.seqStep = s.backOff := by simp [State.seqStep, st, pos]

theorem seqStep_nextAttempt {s : State} (st : s.st = .presenceConfirmed) (pos : s.pos = .pulse .low) :
    s.seqStep = s.startAttempt := by simp [State.seqStep, st, pos]

theorem startAttempt_goPos (s : State) (p : Pos) : (s.goPos p).startAttempt = s.startAttempt := rfl

/-- The backoff leads to the next attempt. -/
theorem backoff_leads {s : State} (st : s.st = .presenceConfirmed) :
    Leads (s.goPos .backoff) (s.wait s.par.tBackoff).startAttempt := by
  have wait : (s.goPos .backoff).backOff = (s.wait s.par.tBackoff).goPos (.pulse .low) := rfl
  have kept : (s.wait s.par.tBackoff).st = .presenceConfirmed := st
  refine .head ((seqStep_backoff (s := s.goPos .backoff) st rfl).trans wait) ?_
  generalize s.wait s.par.tBackoff = u at kept ⊢
  have next := seqStep_nextAttempt (s := u.goPos (.pulse .low)) kept rfl
  rw [startAttempt_goPos] at next
  exact .head next (.refl _)

/-- The attempts still allowed, event by event from the first of them. -/
theorem attempts_lead : ∀ (left : Nat) (s : State), s.st = .presenceConfirmed → s.par.wf = true →
    s.attempt.toNat + (left + 1) = s.par.maxAttempts →
    Leads s.startAttempt (State.detected (State.detectLoop (left + 1) s)) := by
  intro left
  induction left with
  | zero =>
    intro s st wf count
    obtain ⟨-, -, most, -⟩ := Params.wf_bounds wf
    have run := attempt_leads st wf
    rw [detectLoop_ends (.inr rfl)]
    cases ok : s.detectAttempt.2 with
    | true => rwa [ended_get_found ok, ← detected_found ok] at run
    | false =>
      have last : s.detectAttempt.1.attempt.toNat = s.detectAttempt.1.par.maxAttempts := by
        rw [detectAttempt_attempt (by omega), detectAttempt_par, count]
      rwa [ended_get_failed ok, attemptFailed_last last, ← detected_failed ok] at run
  | succ left ih =>
    intro s st wf count
    obtain ⟨-, -, most, -⟩ := Params.wf_bounds wf
    have run := attempt_leads st wf
    cases ok : s.detectAttempt.2 with
    | true =>
      rw [detectLoop_ends (.inl ok)]
      rwa [ended_get_found ok, ← detected_found ok] at run
    | false =>
      have more : s.detectAttempt.1.attempt.toNat ≠ s.detectAttempt.1.par.maxAttempts := by
        rw [detectAttempt_attempt (by omega), detectAttempt_par]; omega
      have backoff := backoff_leads ((detectAttempt_st s).trans st)
      rw [detectAttempt_par] at backoff
      rw [ended_get_failed ok, attemptFailed_again more] at run
      rw [detectLoop_again ok]
      refine run.trans (backoff.trans (ih s.backedOff ?_ ?_ ?_))
      · rwa [backedOff_st]
      · rwa [backedOff_par]
      · rw [backedOff_par, backedOff_attempt (by omega)]; omega

/-- `DETECT` (R240), event by event. -/
theorem detect_leads {s : State} (st : s.st = .presenceConfirmed) (pos : s.pos = .entry)
    (wf : s.par.wf = true) : Leads s (State.detected s.detect) := by
  obtain ⟨-, least, -, -⟩ := Params.wf_bounds wf
  obtain ⟨left, max⟩ := Nat.exists_eq_add_of_le' least
  have first : s.seqStep = ({ s with attempt := 0 } : State).startAttempt := by
    simp [State.seqStep, st, pos]
  have count : (0 : BitVec 2).toNat + (left + 1) = s.par.maxAttempts := by rw [max]; exact Nat.zero_add _
  rw [State.detect, max]
  exact .head first (attempts_lead left { s with attempt := 0 } st wf count)

/-! ### The states of the sequence that run operations (R267 to R270, R275) -/

/-- The first failure of a session, after an operation (R310). -/
theorem raiseFail_first {r : State × Bool} {ret : Ret} (kept : r.1.ret = ret)
    (success : r.1.result = .success) (kind : Result) :
    r.1.raiseFail kind = { State.returnOk r with
      ret := ret, st := .modeExited, pos := .entry, result := kind } := by
  rw [raiseFail_returned kept success, if_pos rfl]

theorem command_result (s : State) (c : Stage) : (s.command c).1.result = s.result := by
  obtain ⟨-, -, -, -, -, -, -, -, result, -⟩ := (command_frame s c).keeps
  exact result

/-- At the first event of a stage, what the stage leads to. -/
theorem State.undisturbed.stage_leads {s : State} {st : St} {c : Stage}
    (h : s.undisturbed st (.stage c .tx)) (home : st = c.home) (wf : s.par.wf = true) :
    Leads s ((s.command c).1.stageDone c (s.command c).2) := by
  obtain ⟨e, pos, -, -⟩ := h
  have run := Machine.stage_leads (e.trans home) wf
  rwa [State.issue, goPos_self s pos] at run

/-- Settles O35: `DETECT`, `GETVER` and `GETID` from their first event to what follows them. -/
theorem presenceAndIdentificationDecideTheirFailures :
    Obligations.PresenceAndIdentificationDecideTheirFailures := by
  intro s wf success
  refine ⟨fun h => ?_, fun h => ?_, fun h => ?_⟩
  · obtain ⟨st, pos, -, -⟩ := id h
    have run := detect_leads st pos wf
    obtain ⟨-, -, -, -, -, -, -, -, result, -, -, -, -, -, -, -, -, -, par⟩ := (detect_frame s).keeps
    refine ⟨_, s.detect.2, rfl, rfl, fun failed => ?_, fun found ident => ?_, fun found ident => ?_⟩
    · rw [detected_failed failed] at run
      exact raiseFail_first run.ret (result.trans success) _ ▸ h.reaches run
    · rw [detected_found found, State.presenceFound, if_neg (by simp [par, ident])] at run
      exact goto_returned run.ret _ ▸ h.reaches run
    · rw [detected_found found, State.presenceFound, if_pos (par ▸ ident)] at run
      exact goPos_returned run.ret _ ▸ h.reaches run
  · have run := h.stage_leads rfl wf
    refine ⟨_, (s.command .getver).2, rfl, rfl, fun failed => ?_, fun found => ?_⟩
    · rw [failed] at run
      exact raiseFail_first run.ret ((command_result s _).trans success) _ ▸ h.reaches run
    · rw [found] at run
      exact goPos_returned run.ret _ ▸ h.reaches run
  · have run := h.stage_leads rfl wf
    refine ⟨_, (s.command .getid).2, rfl, rfl, fun failed => ?_, fun found => ?_⟩
    · rw [failed] at run
      exact raiseFail_first run.ret ((command_result s _).trans success) _ ▸ h.reaches run
    · rw [found] at run
      exact goto_returned run.ret _ ▸ h.reaches run

/-- `ERASE_STAT` bit 0 takes the result of `MASS_ERASE`, bit 1 that of `EXT_ERASE` (R36). -/
theorem eraseStat_bits : ∀ (e : BitVec 2) (ok : Bool),
    (e &&& 0b10) ||| (if ok then 0b01 else 0b00) = BitVec.ofBool (e.getLsbD 1) ++ BitVec.ofBool ok
      ∧ (e &&& 0b01) ||| (if ok then 0b10 else 0b00) = BitVec.ofBool ok ++ BitVec.ofBool (e.getLsbD 0) := by
  decide

/-- Settles O36: both erases from their first event to what follows them, which tests no result. -/
theorem eraseResultsAreRecordedNotTested : Obligations.EraseResultsAreRecordedNotTested := by
  intro s wf
  refine ⟨fun h => ?_, fun h => ?_⟩
  · obtain ⟨st, pos, -, -⟩ := id h
    have first : s.seqStep = (s.issue .massEraseCmd).seqStep := by
      rw [seqStep_stage (s.issue .massEraseCmd) .massEraseCmd .tx st rfl]
      show _ = (s.goPos _).stageTx .massEraseCmd
      rw [stageTx_goPos]
      simp [State.seqStep, st, pos]
    have run := (massErase_leads st wf).of_same_step first fun e => by cases congrArg State.pos e
    have kept : s.massErase.1.ret = s.ret := run.ret
    obtain ⟨-, -, -, -, -, -, -, -, -, -, -, -, -, -, -, stat, -⟩ := (massErase_frame s).keeps
    refine ⟨_, s.massErase.2, rfl, rfl, ?_⟩
    rw [← (eraseStat_bits _ _).1, ← stat, ← kept]
    exact h.reaches run
  · obtain ⟨st, pos, -, -⟩ := id h
    have run := extErase_leads st wf
    rw [State.issue, goPos_self s pos] at run
    have kept : s.extErase.1.ret = s.ret := run.ret
    obtain ⟨-, -, -, -, -, -, -, -, -, -, -, -, -, -, -, stat, -⟩ := (extErase_frame s).keeps
    refine ⟨_, s.extErase.2, rfl, rfl, ?_⟩
    rw [← (eraseStat_bits _ _).2, ← stat, ← kept]
    exact h.reaches run

/-- A page operation that is taken event by event: a success steps to the next block, a failure ends the
session (R269, R270, R309, R311). -/
theorem page_reaches {s : State} {r : State × Bool} {st : St} {pos : Pos} {kind : Result}
    (h : s.undisturbed st pos) (frame : OnlyCommand s r.1) (run : Leads s (r.1.pageDone r.2 kind)) :
    (r.2 = true → ∃ a : Addr, a.value = (s.addr.value + 0x100) % 2 ^ 32 ∧ a.a3 = s.addr.a3
        ∧ Reaches s { State.returnOk r with ret := s.ret, pos := .blocks, addr := a, blk := s.blk + 1 })
      ∧ (r.2 = false → Reaches s { State.returnOk r with
          ret := s.ret, st := .modeExited, pos := .entry
          result := if s.result = .success then kind else s.result }) := by
  obtain ⟨-, -, addr, blk, -, -, -, -, result, -⟩ := frame.keeps
  refine ⟨fun ok => ?_, fun failed => ?_⟩
  · obtain ⟨fourth, -⟩ := stepAddr_bytes s.addr
    refine ⟨stepAddr s.addr, stepAddr_value s.addr, fourth, ?_⟩
    rw [ok] at run
    have kept : r.1.ret = s.ret := run.ret
    rw [← addr, ← blk, ← kept]
    exact h.reaches run
  · rw [failed] at run
    exact raiseFail_returned run.ret result _ ▸ h.reaches run

/-- Settles O38: both page operations from their first event to what follows them. -/
theorem pagesAdvanceOnlyOnSuccess : Obligations.PagesAdvanceOnlyOnSuccess := by
  intro s wf
  refine ⟨fun h => ?_, fun h => ?_⟩
  · obtain ⟨st, pos, -, -⟩ := id h
    have run := pageWrite_leads st wf
    rw [State.issue, goPos_self s pos] at run
    exact ⟨_, s.pageWrite.2, rfl, rfl, page_reaches h (pageWrite_frame s) run⟩
  · obtain ⟨st, pos, -, -⟩ := id h
    have run := pageRead_leads st wf
    rw [State.issue, goPos_self s pos] at run
    exact ⟨_, s.pageRead.2, rfl, rfl, page_reaches h (pageRead_frame s) run⟩

end Sys2Proof.Machine
end

section
/-!
PROOFS. The block address (spec/45_orchestrator.md R276): the states that can come before a block loop are
Erased and the loops themselves, and in a loop only the end of a page operation writes `ADDR` and `BLK`.
-/
namespace Sys2Proof.Machine

/-- `ADDR` is `BASE_ADDR` stepped `BLK` times. -/
def State.stepped (s : State) : Prop := s.addr = stepAddr^[s.blk.toNat] s.par.baseAddr

theorem State.stepped.addressOk {s : State} (h : s.stepped) : s.addressOk := fun _ _ => h

theorem addressOk_of_entry {s : State} (entry : s.pos = .entry) : s.addressOk :=
  fun _ past => absurd entry past

theorem addressOk_of_st {s : State} (outside : s.st ≠ .writing ∧ s.st ≠ .reading) : s.addressOk :=
  fun loop => absurd loop (by simp [outside])

/-- The states from which the next step can be in a block loop. -/
def St.nearLoops : St → Bool
  | .erased | .writing | .reading => true
  | _ => false

theorem St.Moves.outsideLoops {a b : St} (m : a.Moves b) (far : a.nearLoops = false) :
    b ≠ .writing ∧ b ≠ .reading := by
  obtain rfl | next | ⟨-, rfl⟩ := m
  · constructor <;> rintro rfl <;> cases far
  · cases a <;> cases b <;> revert far next <;> decide
  · simp

/-- The page operation that succeeds steps both registers, below the top of `BLK` (R23, R273). -/
theorem State.stepped.pageDone {s : State} (h : s.stepped) (below : s.blk.toNat < s.nblk.toNat) (ok : Bool)
    (kind : Result) : (s.pageDone ok kind).addressOk := by
  cases ok with
  | false => exact addressOk_of_entry rfl
  | true =>
    have next : (s.blk + 1).toNat = s.blk.toNat + 1 := by bv_omega
    have steps : stepAddr s.addr = stepAddr^[(s.blk + 1).toNat] s.par.baseAddr := by
      rw [next, Function.iterate_succ_apply', ← h]
    exact fun _ _ => steps

/-- What follows a stage keeps the block address, inside a page operation with `BLK` below `NBLK`. -/
theorem stageDone_addressOk {s : State} {c : Stage} (st : s.st = c.home)
    (inLoop : c.home = .writing ∨ c.home = .reading → s.stepped ∧ s.blk.toNat < s.nblk.toNat) (ok : Bool) :
    (s.stageDone c ok).addressOk := by
  have erased : ∀ {t : State}, t.st = s.st → c.home = .erased → t.addressOk := fun e home =>
    addressOk_of_st (by rw [e, st, home]; simp)
  cases c with
  | sync | get | getver | getid =>
    exact addressOk_of_st ((stageDone_moves _ st ok).outsideLoops (by rw [st]; rfl))
  | massEraseCmd => cases ok <;> exact erased rfl rfl
  | massEraseParam => exact erased rfl rfl
  | extEraseCmd => cases ok; exacts [addressOk_of_entry rfl, erased rfl rfl]
  | extEraseParam => exact addressOk_of_entry rfl
  | writeMem | writeAddr =>
    obtain ⟨stepped, -⟩ := inLoop (.inl rfl)
    cases ok; exacts [addressOk_of_entry rfl, fun _ _ => stepped]
  | pageData =>
    obtain ⟨stepped, below⟩ := inLoop (.inl rfl)
    exact stepped.pageDone below ok _
  | readMem =>
    obtain ⟨stepped, -⟩ := inLoop (.inr rfl)
    cases ok; exacts [addressOk_of_entry rfl, fun _ _ => stepped]
  | readAddr =>
    obtain ⟨stepped, -⟩ := inLoop (.inr rfl)
    exact fun _ _ => stepped
  | pageLen =>
    obtain ⟨stepped, below⟩ := inLoop (.inr rfl)
    exact stepped.pageDone below ok _

/-- No event of a stage writes `ADDR` or `BLK`. -/
theorem stageStep_addressOk {s : State} {c : Stage} (st : s.st = c.home)
    (inLoop : c.home = .writing ∨ c.home = .reading → s.stepped ∧ s.blk.toNat < s.nblk.toNat)
    (x : ExchangePos) : (s.stageStep c x).addressOk := by
  obtain ⟨u, a, next⟩ := stageStep_cases s c x
  obtain ⟨ust, -, addr, blk, nblk, -, -, -, -, -, -, -, -, -, -, -, -, -, -, par⟩ := a.only.keeps
  have kept : c.home = .writing ∨ c.home = .reading → u.stepped ∧ u.blk.toNat < u.nblk.toNat := by
    unfold State.stepped
    rwa [addr, blk, nblk, par]
  obtain ⟨y, -, e⟩ | ⟨ok, e⟩ := next <;> rw [e]
  · exact fun loop _ => (kept (by rwa [← st, ← ust])).1
  · exact stageDone_addressOk (ust.trans st) kept ok

/-- The head of a block loop does not write them either, and leaves the loop for the start of a state. -/
theorem nextBlock_addressOk {s : State} (stepped : s.stepped) (page : Stage) (after : St) :
    (s.nextBlock page after).addressOk := by
  have fetched : s.fetchBlock.1.stepped := by
    unfold State.stepped
    rw [fetchBlock_frame]
    exact stepped
  unfold State.nextBlock
  dsimp only
  split
  · split
    exacts [fun _ _ => fetched, addressOk_of_entry rfl]
  · exact addressOk_of_entry rfl

theorem SeqMove.addressOk {s t : State} (h : s.sessionOk) (address : s.addressOk) (move : SeqMove s t) :
    t.addressOk := by
  by_cases far : s.st.nearLoops = false
  · exact addressOk_of_st (move.st_moves.outsideLoops far)
  cases move with
  | stage c x st pos =>
    refine stageStep_addressOk st (fun loop => ?_) x
    rw [← st] at loop
    exact ⟨address loop (by simp [pos]), h.inside loop ⟨c, x, pos⟩⟩
  | eraseAll st pos => exact stageStep_addressOk (c := .massEraseCmd) st (by simp [Stage.home]) .tx
  | seedWriting | seedReading => exact fun _ _ => rfl
  | nextWriting st pos => exact nextBlock_addressOk (address (.inl st) (by simp [pos])) _ _
  | nextReading st pos => exact nextBlock_addressOk (address (.inr st) (by simp [pos])) _ _
  | rest st => exact address
  | _ => simp_all [St.nearLoops]

/-- Settles O50: a reset or a session start leaves the loops, and every move of the sequence keeps it. -/
theorem everyStepKeepsTheBlockAddress : Obligations.EveryStepKeepsTheBlockAddress := by
  intro s t h address e
  obtain ⟨-, r⟩ | ⟨c, nm, -, -, r⟩ | ⟨-, r⟩ := step_cases s h.noSlot <;> cases r.symm.trans e
  · exact addressOk_of_entry rfl
  · exact addressOk_of_entry rfl
  · exact (seqStep_move s.popInput h.legal).addressOk h.popInput address

end Sys2Proof.Machine
end

section
/-!
PROOFS. What a response holds steers nothing (spec/45_orchestrator.md R281, spec/20_memory.md R82, R31): each
event of the sequence does the same to the registers that steer (`State.steering`) whatever `RSP` and the record
of events hold.
-/
namespace Sys2Proof.Machine

/-- The state without the bytes of the last response and without the record of events. -/
def State.steering (s : State) : State := { s with rsp := [], world := { s.world with trace := [] } }

/-- Two states differ in `RSP` and the record of events only if they steer the same. -/
theorem sameButResponse_iff {s t : State} : SameButResponse s t ↔ s.steering = t.steering := by
  unfold SameButResponse
  constructor
  · intro h
    rw [h]
    rfl
  · intro h
    have eta : t = { t.steering with rsp := t.rsp, world := { t.steering.world with trace := t.world.trace } } := rfl
    rw [eta, ← h]
    rfl

@[simp] theorem State.steering_st (s : State) : s.steering.st = s.st := rfl

@[simp] theorem State.steering_pos (s : State) : s.steering.pos = s.pos := rfl

@[simp] theorem State.steering_par (s : State) : s.steering.par = s.par := rfl

/-- An update that does the same to what steers, whatever `RSP` and the record hold. -/
def Steered (f : State → State) : Prop := ∀ s : State, (f s.steering).steering = (f s).steering

theorem Steered.same {f : State → State} (hf : Steered f) {s t : State} (h : s.steering = t.steering) :
    (f s).steering = (f t).steering := by rw [← hf s, h, hf t]

theorem Steered.comp {f g : State → State} (hg : Steered g) (hf : Steered f) : Steered fun s => g (f s) :=
  fun s => hg.same (hf s)

/-- A choice that depends on what steers. -/
theorem Steered.ite {p : State → Prop} [DecidablePred p] {f g : State → State}
    (same : ∀ s : State, p s.steering ↔ p s) (hf : Steered f) (hg : Steered g) :
    Steered fun s => if p s then f s else g s := by
  intro s
  dsimp only
  rw [if_congr (same s) rfl rfl]
  split
  exacts [hf s, hg s]

/-! ### After an operation -/

theorem raiseFail_steered (kind : Result) : Steered fun s => s.raiseFail kind := fun _ => rfl

theorem goPos_steered (p : Pos) : Steered fun s => s.goPos p := fun _ => rfl

theorem goto_steered (st : St) : Steered fun s => s.goto st := fun _ => rfl

theorem setXok_steered (v : Bool) : Steered fun s => s.setXok v := fun _ => rfl

theorem stageDone_steered (c : Stage) (ok : Bool) : Steered fun s => s.stageDone c ok := by
  have failed : Steered State.attemptFailed := .ite (fun _ => .rfl) (raiseFail_steered _) (goPos_steered _)
  have found : Steered State.presenceFound := .ite (fun _ => .rfl) (fun _ => rfl) (fun _ => rfl)
  cases c with
  | sync => cases ok; exacts [failed, fun _ => rfl]
  | get => cases ok; exacts [failed, found]
  | _ => cases ok <;> exact fun _ => rfl

theorem bootDone_steered (ok : Bool) : Steered fun s => s.bootDone ok := by
  intro s
  dsimp only
  unfold State.bootDone
  simp only [State.steering_st]
  split
  · rfl
  · cases ok <;> rfl

theorem pulseDone_steered : Steered State.pulseDone := by
  intro s
  unfold State.pulseDone
  simp only [State.steering_st]
  split
  · rfl
  · exact bootDone_steered true s

/-! ### The events of a stage (R150 to R154) -/

theorem send_steered {s t : State} (h : s.steering = t.steering) (bs : Bytes) :
    (s.send bs).1.steering = (t.send bs).1.steering ∧ (s.send bs).2 = (t.send bs).2 := by
  have count : ∀ u : State, (u.steering.send bs).2 = (u.send bs).2 := fun _ => rfl
  exact ⟨Steered.same (f := fun u => (u.send bs).1) (fun _ => rfl) h, by rw [← count s, h, count t]⟩

theorem stageTx_steered (c : Stage) : Steered fun s => s.stageTx c := by
  intro s
  have framed : (s.steering.stageFrame c).1.steering = (s.stageFrame c).1.steering
      ∧ (s.steering.stageFrame c).2 = (s.stageFrame c).2 := by cases c <;> exact ⟨rfl, rfl⟩
  dsimp only
  unfold State.stageTx
  dsimp only
  obtain ⟨regs, frame⟩ := framed
  rw [frame]
  generalize (s.steering.stageFrame c).1 = u at regs ⊢
  generalize (s.stageFrame c).1 = v at regs ⊢
  obtain ⟨sent, count⟩ := send_steered regs (s.stageFrame c).2
  rw [count]
  split
  · exact ((stageDone_steered c false).comp (setXok_steered false)).same sent
  · exact Steered.same (f := fun u => ({ u with elapsed := 0 } : State).goPos (.stage c .poll))
      (fun _ => rfl) sent

theorem poll_steered (s : State) (n T : Nat) :
    (s.steering.poll n T).1.steering = (s.poll n T).1.steering
      ∧ (s.steering.poll n T).2 = (s.poll n T).2 := by
  unfold State.poll
  dsimp only
  by_cases seen : n ≤ s.rxLen.2
  · rw [if_pos seen, if_pos (show n ≤ s.steering.rxLen.2 from seen)]
    exact ⟨rfl, rfl⟩
  · rw [if_neg seen, if_neg (show ¬ n ≤ s.steering.rxLen.2 from seen)]
    by_cases late : T ≤ s.rxLen.1.elapsed.toNat
    · rw [if_pos late, if_pos (show T ≤ s.steering.rxLen.1.elapsed.toNat from late)]
      exact ⟨rfl, rfl⟩
    · rw [if_neg late, if_neg (show ¬ T ≤ s.steering.rxLen.1.elapsed.toNat from late)]
      exact ⟨rfl, rfl⟩

theorem stagePoll_steered (c : Stage) : Steered fun s => s.stagePoll c := by
  intro s
  obtain ⟨regs, answer⟩ := poll_steered s (c.response s.par) s.par.timeout
  dsimp only
  unfold State.stagePoll
  dsimp only [State.steering_par]
  rw [answer]
  generalize (s.poll (c.response s.par) s.par.timeout).2 = a
  cases a with
  | none => exact (goPos_steered _).same regs
  | some L =>
    dsimp only
    split
    · exact ((stageDone_steered c false).comp (setXok_steered false)).same regs
    · exact (goPos_steered _).same regs

theorem stageStep_steered (c : Stage) (x : ExchangePos) : Steered fun s => s.stageStep c x := by
  cases x with
  | tx => exact stageTx_steered c
  | poll => exact stagePoll_steered c
  | pause => exact fun _ => rfl
  | pop => exact fun s => (stageDone_steered c (s.takeResponse (c.response s.par)).2).same rfl

/-! ### The other events -/

theorem wait_steered (n : Nat) : Steered fun s => s.wait n := fun _ => rfl

theorem setDir_steered (line : Line) : Steered fun s => (s.setDir line).1 := fun _ => rfl

theorem setLevel_steered (line : Line) (v : Bool) : Steered fun s => s.setLevel line v := by
  cases line <;> exact fun _ => rfl

theorem pulseStep_steered (q : PulsePos) : Steered fun s => s.pulseStep q := by
  cases q with
  | low | high => exact (goPos_steered _).comp (setLevel_steered .reset _)
  | hold => exact fun s => (goPos_steered _).same (wait_steered s.par.tResetLow s)
  | settle => exact fun s => pulseDone_steered.same (wait_steered s.par.tSettle s)

theorem startAttempt_steered : Steered State.startAttempt :=
  (pulseStep_steered .low).comp (f := fun s => { s with attempt := s.attempt + 1 }) fun _ => rfl

theorem configReset_steered : Steered State.configReset := fun s =>
  (goPos_steered (.dirBoot (s.setDir .reset).2)).same (setDir_steered .reset s)

theorem configBoot_steered (ok1 : Bool) : Steered fun s => s.configBoot ok1 :=
  .ite (fun _ => .rfl) ((goPos_steered _).comp (setDir_steered .boot))
    ((bootDone_steered false).comp (setDir_steered .boot))

theorem bootStep_steered (p : Pos) : Steered fun s => s.bootStep p := by
  cases p with
  | dirBoot ok1 => exact configBoot_steered ok1
  | level => exact fun s => (goPos_steered _).same (setLevel_steered .boot (s.st != .modeExited) s)
  | pulse q => exact pulseStep_steered q
  | _ => exact configReset_steered

theorem fetchBlock_steered (s : State) :
    s.steering.fetchBlock.1.steering = s.fetchBlock.1.steering
      ∧ s.steering.fetchBlock.2 = s.fetchBlock.2 := by
  by_cases other : (World.stoRead s.cap s.par.block s.world).2.length ≠ s.wantedBytes
  · have run : s.fetchBlock = _ := if_pos other
    have run' : s.steering.fetchBlock = _ := if_pos other
    rw [run, run']
    exact ⟨rfl, rfl⟩
  · have run : s.fetchBlock = _ := if_neg other
    have run' : s.steering.fetchBlock = _ := if_neg other
    rw [run, run']
    exact ⟨rfl, rfl⟩

theorem nextBlock_steered (page : Stage) (after : St) : Steered fun s => s.nextBlock page after := by
  have fetched : Steered fun s => s.fetchBlock.1 := fun s => (fetchBlock_steered s).1
  refine .ite (fun _ => .rfl) (.ite (fun s => ?_) ?_ ?_) fun _ => rfl
  · rw [(fetchBlock_steered s).2]
  · exact (goPos_steered _).comp fetched
  · exact (raiseFail_steered _).comp fetched

theorem validateConfig_steered : Steered State.validateConfig :=
  .ite (fun _ => .rfl) (goto_steered _) (raiseFail_steered _)

theorem mountStorage_steered : Steered State.mountStorage := by
  have mounted : Steered fun s => (s.ask (World.stoMount s.cap)).1 := fun _ => rfl
  exact .ite (fun _ => .rfl) ((goto_steered _).comp mounted) ((raiseFail_steered _).comp mounted)

theorem openImage_steered : Steered State.openImage := by
  have opened : Steered fun s => (s.ask (World.stoOpen s.cap s.name)).1 := fun _ => rfl
  have handle : Steered fun s => ({ s with imgOpen := true } : State).goPos .size := fun _ => rfl
  exact .ite (fun _ => .rfl) (handle.comp opened) ((raiseFail_steered _).comp opened)

theorem sizeImage_steered : Steered State.sizeImage := by
  have sized : Steered fun s => s.withSize (World.stoSize s.cap s.world).2 := fun _ => rfl
  have blocks : Steered fun s => ({ s.withSize (World.stoSize s.cap s.world).2 with
    nblk := BitVec.ofNat 16 (blocksOf s.par (World.stoSize s.cap s.world).2)
    modeEntered := true } : State) := fun _ => rfl
  exact .ite (fun _ => .rfl) ((raiseFail_steered _).comp sized)
    (.ite (fun _ => .rfl) ((raiseFail_steered _).comp sized) ((goto_steered _).comp blocks))

theorem setPins_steered (ok1 : Bool) : Steered fun s => s.setPins ok1 := by
  have pins : Steered fun s => (s.ask (World.uartSetPins s.cap s.cfg)).1 := fun _ => rfl
  exact .ite (fun _ => .rfl) ((goto_steered _).comp pins) ((raiseFail_steered _).comp pins)

theorem startCleanup_steered : Steered State.startCleanup :=
  .ite (fun _ => .rfl) configReset_steered (goPos_steered _)

theorem cleanupImage_steered : Steered State.cleanupImage :=
  .ite (fun _ => .rfl) (fun _ => rfl) (fun _ => rfl)

/-! ### Every step -/

/-- Every step of the sequence, from every state and position. -/
theorem seqStep_steered : Steered State.seqStep := by
  intro s
  unfold State.seqStep
  simp only [State.steering_st, State.steering_pos]
  split
  · rfl
  · exact validateConfig_steered s
  · exact mountStorage_steered s
  · split
    · exact sizeImage_steered s
    · exact openImage_steered s
  · exact bootStep_steered _ s
  · split
    · exact setPins_steered _ s
    · rfl
  · split
    · exact startAttempt_steered s
    · exact pulseStep_steered _ s
    · exact stageStep_steered _ _ s
    · rfl
    · exact startAttempt_steered { s with attempt := 0 }
  · split
    · exact stageStep_steered _ _ s
    · exact stageTx_steered _ s
  · split
    · exact nextBlock_steered _ _ s
    · exact stageStep_steered _ _ s
    · rfl
  · split
    · exact nextBlock_steered _ _ s
    · exact stageStep_steered _ _ s
    · rfl
  · split
    · exact startCleanup_steered s
    · exact cleanupImage_steered s
    · exact bootStep_steered _ s
  · rfl

/-- A step without a placed operation, whatever the ports present. -/
theorem advance_steered : Steered State.advance := by
  intro s
  have input : s.steering.input = s.input := rfl
  unfold State.advance
  rw [input]
  cases s.input with
  | none => exact seqStep_steered s.popInput
  | rst => rfl
  | start c nm =>
    exact Steered.ite (p := fun u => u.busy = true) (fun _ => .rfl)
      (seqStep_steered.comp (f := State.popInput) fun _ => rfl)
      (g := fun u => u.popInput.startSession c nm) (fun _ => rfl) s

/-! ### The response of `PAGE_READ` (R210, R281) -/

/-- The same state with other bytes buffered. -/
def State.withRxq (s : State) (bytes : Bytes) : State := { s with world := { s.world with rxq := bytes } }

theorem takeResponse_regs (s : State) (n : Nat) :
    (s.takeResponse n).1 = { s with
      world := (s.takeResponse n).1.world, rsp := (s.takeResponse n).1.rsp
      xok := (s.takeResponse n).2 } := rfl

theorem takeResponse_world (s : State) (n : Nat) :
    (s.takeResponse n).1.world = { s.world.tick s.cap with
      rxq := (s.takeResponse n).1.world.rxq, trace := (s.takeResponse n).1.world.trace } := rfl

/-- What a response leaves that steers: the buffer behind it, and its classification. -/
theorem takeResponse_steering (s : State) (bytes : Bytes) (n : Nat) :
    ((s.withRxq bytes).takeResponse n).1.steering = { s with
      rsp := [], xok := ((s.withRxq bytes).takeResponse n).2
      world := { s.world.tick s.cap with
        rxq := ((s.withRxq bytes).takeResponse n).1.world.rxq, trace := [] } } := by
  have regs := takeResponse_regs (s.withRxq bytes) n
  have world := takeResponse_world (s.withRxq bytes) n
  generalize ((s.withRxq bytes).takeResponse n).2 = ok at regs ⊢
  generalize ((s.withRxq bytes).takeResponse n).1 = t at regs world ⊢
  rw [world] at regs
  rw [regs]
  rfl

/-- The buffer behind a response: what was there behind it, and what arrived. -/
theorem takeResponse_rxq {s : State} {n : Nat} (buffered : n ≤ s.world.rxq.length) :
    (s.takeResponse n).1.world.rxq = s.world.rxq.drop n
      ++ admitted (draw s.world.arrivals Config.freeBatch s.world.moment) (s.cap - s.world.rxq.length)
        s.world.moment :=
  List.drop_append_of_le_length buffered

/-- Two responses with the same first byte, and the same bytes behind them, steer the same. -/
theorem takeResponse_same {s : State} {other : Bytes} {n : Nat} (pos : 1 ≤ n) (le : n ≤ Config.rspBytes)
    (rsp : s.rsp.length = Config.rspBytes) (buffered : n ≤ s.world.rxq.length)
    (length : other.length = s.world.rxq.length) (first : other.headD 0 = s.world.rxq.headD 0)
    (rest : other.drop n = s.world.rxq.drop n) :
    (s.takeResponse n).2 = ((s.withRxq other).takeResponse n).2
      ∧ (s.takeResponse n).1.steering = ((s.withRxq other).takeResponse n).1.steering := by
  have there : n ≤ (s.withRxq other).world.rxq.length := length ▸ buffered
  obtain ⟨decided, -⟩ := takeResponse_effect pos buffered le rsp
  obtain ⟨decided', -⟩ := takeResponse_effect (s := s.withRxq other) pos there le rsp
  have same : (s.takeResponse n).2 = ((s.withRxq other).takeResponse n).2 := by
    rw [decided, decided', ← first]
    rfl
  have left : ((s.withRxq other).takeResponse n).1.world.rxq = (s.takeResponse n).1.world.rxq := by
    rw [takeResponse_rxq there, takeResponse_rxq buffered, ← rest, ← length]
    rfl
  refine ⟨same, ?_⟩
  rw [takeResponse_steering s other, left, ← same]
  exact takeResponse_steering s s.world.rxq n

/-- At its last event, `PAGE_READ` takes the response and returns (R154, R210). -/
theorem seqStep_pagePop {s : State} (page : s.par.rspPage = 257) (st : s.st = .reading)
    (pos : s.pos = .stage .pageLen .pop) :
    s.seqStep = (s.takeResponse 257).1.stageDone .pageLen (s.takeResponse 257).2 := by
  rw [seqStep_stage s .pageLen .pop st pos, ← page]
  rfl

/-- `RSP` holds the whole response (R31). -/
theorem takeResponse_rsp {s : State} (rsp : s.rsp.length = 257) (buffered : 257 ≤ s.world.rxq.length) :
    (s.takeResponse 257).1.rsp = s.world.rxq.take 257 := by
  obtain ⟨-, kept, -⟩ := takeResponse_effect (s := s) (n := 257) (by decide) buffered (Nat.le_refl _) rsp
  rw [kept, ← rsp, List.drop_length, List.append_nil]

theorem stageDone_rsp (s : State) (c : Stage) (ok : Bool) : (s.stageDone c ok).rsp = s.rsp := by
  obtain ⟨-, -, -, -, -, -, -, -, rsp, -⟩ := (stageDone_control s c ok).keeps
  exact rsp

/-- Settles O47: at the event that takes it only the first byte of the response steers, and afterwards a step
does the same whatever `RSP` holds. -/
theorem readBackBytesSteerNothing : Obligations.ReadBackBytesSteerNothing := by
  refine ⟨fun s other slot input page st pos rsp buffered length first rest => ?_,
    fun s s' slot _ _ same => ?_⟩
  · have there : 257 ≤ (s.withRxq other).world.rxq.length := length ▸ buffered
    obtain ⟨ok, steering⟩ := takeResponse_same (s := s.popInput) (n := 257) (by decide) (Nat.le_refl _) rsp
      buffered length first rest
    have run := step_sequence s slot input
    have run' := step_sequence (s.withRxq other) slot input
    rw [seqStep_pagePop (s := s.popInput) page st pos] at run
    rw [seqStep_pagePop (s := (s.withRxq other).popInput) page st pos] at run'
    refine ⟨_, _, run, run', sameButResponse_iff.mpr ?_, ?_, ?_⟩
    · rw [ok]
      exact (stageDone_steered .pageLen _).same steering
    · rw [stageDone_rsp, takeResponse_rsp (s := s.popInput) rsp buffered]
      rfl
    · rw [stageDone_rsp, takeResponse_rsp (s := (s.withRxq other).popInput) rsp there]
      rfl
  · have slot' : s'.slot = none := by
      rw [same]
      exact slot
    exact ⟨_, _, step_of_no_slot slot, step_of_no_slot slot',
      sameButResponse_iff.mpr (advance_steered.same (sameButResponse_iff.mp same))⟩

end Sys2Proof.Machine
end

section
/-!
PROOFS. A session ends (spec/45_orchestrator.md R260, spec/60_exceptions.md R315(a), log 24). `State.stepsLeft`
bounds the steps from a position of the sequence to Done by what the rest of the session takes at most; every
step of the sequence lowers it (`SeqMove.progress`), and it is at most `sequenceFuel` at the start. So the
session taken event by event ends where `FLASH` does.
-/
namespace Sys2Proof.Machine

/-! ### The steps a session has left, at most -/

/-- From a position of an exchange (R150 to R154): a poll and a wait for each time-unit before `TIMEOUT`. -/
def ExchangePos.stepsLeft (par : Params) (elapsed : BitVec 32) : ExchangePos → Nat
  | .tx => exchangeSteps par
  | .poll => 2 * (par.timeout - elapsed.toNat) + 2
  | .pause => 2 * (par.timeout - (elapsed + BitVec.ofNat 32 par.pollInterval).toNat) + 3
  | .pop => 1

/-- From a position of a reset pulse (R130). -/
def PulsePos.stepsLeft : PulsePos → Nat
  | .low => 4
  | .hold => 3
  | .high => 2
  | .settle => 1

/-- From a position of `ENTER_BL` or `EXIT_BL` (R131 to R133). -/
def Pos.bootStepsLeft : Pos → Nat
  | .dirBoot _ => 6
  | .level => 5
  | .pulse q => q.stepsLeft
  | _ => 7

/-- A block of a phase: a fetch and three exchanges (R269, R270). -/
def blockSteps (par : Params) : Nat := 3 * exchangeSteps par + 1

/-- From the start of ModeExited (R271). -/
def cleanupSteps : Nat := 9

/-- From the head of the loop of Reading, with `left` blocks to go. -/
def readingSteps (par : Params) (left : Nat) : Nat := left * blockSteps par + 1 + cleanupSteps

/-- From the head of the loop of Writing, with `left` blocks of `blocks` to go. -/
def writingSteps (par : Params) (blocks left : Nat) : Nat :=
  left * blockSteps par + 1 + (1 + readingSteps par blocks)

/-- From the start of Erased (R268). -/
def erasedSteps (par : Params) (blocks : Nat) : Nat :=
  4 * exchangeSteps par + (1 + writingSteps par blocks blocks)

/-- From the success of `DETECT`, with the identification phase (R275). -/
def foundSteps (par : Params) (blocks : Nat) : Nat := 2 * exchangeSteps par + erasedSteps par blocks

/-- An attempt of `DETECT` and its backoff (R240). -/
def attemptSteps (par : Params) : Nat := 2 * exchangeSteps par + 5

/-- From the start of PresenceConfirmed. -/
def presenceSteps (par : Params) (blocks : Nat) : Nat :=
  par.maxAttempts * attemptSteps par + foundSteps par blocks

/-- From the start of ModeEntered. -/
def enteredSteps (par : Params) (blocks : Nat) : Nat := 7 + (2 + presenceSteps par blocks)

/-- The attempts of `DETECT` after the one counted last: `ATTEMPT` counts up to `MAX_ATTEMPTS` (R28, log 26). -/
def retries (par : Params) (attempt : BitVec 2) : Nat := (BitVec.ofNat 2 par.maxAttempts - attempt).toNat

/-- From a pulse of `DETECT` on: the attempt counted last fails, and so do the ones after it. -/
def attemptedSteps (par : Params) (blocks : Nat) (attempt : BitVec 2) : Nat :=
  2 * exchangeSteps par + 1 + (retries par attempt * attemptSteps par + foundSteps par blocks)

/-- From the return of a stage. -/
def State.afterStage (s : State) : Stage → Nat
  | .sync => exchangeSteps s.par + 1
      + (retries s.par s.attempt * attemptSteps s.par + foundSteps s.par s.nblk.toNat)
  | .get => 1 + (retries s.par s.attempt * attemptSteps s.par + foundSteps s.par s.nblk.toNat)
  | .getver => exchangeSteps s.par + erasedSteps s.par s.nblk.toNat
  | .getid => erasedSteps s.par s.nblk.toNat
  | .massEraseCmd => 3 * exchangeSteps s.par + (1 + writingSteps s.par s.nblk.toNat s.nblk.toNat)
  | .massEraseParam => 2 * exchangeSteps s.par + (1 + writingSteps s.par s.nblk.toNat s.nblk.toNat)
  | .extEraseCmd => exchangeSteps s.par + (1 + writingSteps s.par s.nblk.toNat s.nblk.toNat)
  | .extEraseParam => 1 + writingSteps s.par s.nblk.toNat s.nblk.toNat
  | .writeMem => 2 * exchangeSteps s.par
      + writingSteps s.par s.nblk.toNat (s.nblk.toNat - (s.blk + 1).toNat)
  | .writeAddr => exchangeSteps s.par + writingSteps s.par s.nblk.toNat (s.nblk.toNat - (s.blk + 1).toNat)
  | .pageData => writingSteps s.par s.nblk.toNat (s.nblk.toNat - (s.blk + 1).toNat)
  | .readMem => 2 * exchangeSteps s.par + readingSteps s.par (s.nblk.toNat - (s.blk + 1).toNat)
  | .readAddr => exchangeSteps s.par + readingSteps s.par (s.nblk.toNat - (s.blk + 1).toNat)
  | .pageLen => readingSteps s.par (s.nblk.toNat - (s.blk + 1).toNat)

/-- From a state and position of the sequence to Done. Until `NBLK` is known it is taken as large as it can
be. -/
def State.stepsLeft (s : State) : Nat :=
  match s.st with
  | .idle => 0
  | .configValidated => 4 + enteredSteps s.par 65535
  | .storageReady => 3 + enteredSteps s.par 65535
  | .imageLocated =>
    match s.pos with
    | .size => 1 + enteredSteps s.par 65535
    | _ => 2 + enteredSteps s.par 65535
  | .modeEntered => s.pos.bootStepsLeft + (2 + presenceSteps s.par s.nblk.toNat)
  | .transportReady =>
    match s.pos with
    | .pins _ => 1 + presenceSteps s.par s.nblk.toNat
    | _ => 2 + presenceSteps s.par s.nblk.toNat
  | .presenceConfirmed =>
    match s.pos with
    | .pulse .low => 4 + attemptedSteps s.par s.nblk.toNat (s.attempt + 1)
    | .pulse q => q.stepsLeft + attemptedSteps s.par s.nblk.toNat s.attempt
    | .stage c x => x.stepsLeft s.par s.elapsed + s.afterStage c
    | .backoff => 5 + attemptedSteps s.par s.nblk.toNat (s.attempt + 1)
    | _ => presenceSteps s.par s.nblk.toNat
  | .erased =>
    match s.pos with
    | .stage c x => x.stepsLeft s.par s.elapsed + s.afterStage c
    | _ => erasedSteps s.par s.nblk.toNat
  | .writing =>
    match s.pos with
    | .blocks => writingSteps s.par s.nblk.toNat (s.nblk.toNat - s.blk.toNat)
    | .stage c x => x.stepsLeft s.par s.elapsed + s.afterStage c
    | _ => 1 + writingSteps s.par s.nblk.toNat s.nblk.toNat
  | .reading =>
    match s.pos with
    | .blocks => readingSteps s.par (s.nblk.toNat - s.blk.toNat)
    | .stage c x => x.stepsLeft s.par s.elapsed + s.afterStage c
    | _ => 1 + readingSteps s.par s.nblk.toNat
  | .modeExited =>
    match s.pos with
    | .closing => if s.imgOpen then 2 else 1
    | p => p.bootStepsLeft + 2
  | .done => 0

/-- At one of the positions of the state's own work, with at most `n` steps left. -/
structure State.within (n : Nat) (s : State) : Prop where
  legal : legalPos s.st s.pos = true
  le : s.stepsLeft ≤ n

theorem State.within.mono {m n : Nat} {s : State} (h : s.within m) (le : m ≤ n) : s.within n :=
  ⟨h.legal, h.le.trans le⟩

/-! ### After an operation -/

theorem raiseFail_within (s : State) (kind : Result) : (s.raiseFail kind).within cleanupSteps :=
  ⟨rfl, Nat.le_refl _⟩

theorem cleanup_le_reading (par : Params) (left : Nat) : cleanupSteps ≤ readingSteps par left := by
  unfold readingSteps
  omega

theorem cleanup_le_writing (par : Params) (blocks left : Nat) :
    cleanupSteps ≤ writingSteps par blocks left := by
  have := cleanup_le_reading par blocks
  unfold writingSteps
  omega

theorem cleanup_le_erased (par : Params) (blocks : Nat) : cleanupSteps ≤ erasedSteps par blocks := by
  have := cleanup_le_writing par blocks blocks
  unfold erasedSteps
  omega

theorem cleanup_le_found (par : Params) (blocks : Nat) : cleanupSteps ≤ foundSteps par blocks := by
  have := cleanup_le_erased par blocks
  unfold foundSteps
  omega

theorem cleanup_le_presence (par : Params) (blocks : Nat) : cleanupSteps ≤ presenceSteps par blocks := by
  have := cleanup_le_found par blocks
  unfold presenceSteps
  omega

/-- Inside a stage, in the state it belongs to. -/
theorem stepsLeft_stage {s : State} {c : Stage} {x : ExchangePos} (st : s.st = c.home)
    (pos : s.pos = .stage c x) : s.stepsLeft = x.stepsLeft s.par s.elapsed + s.afterStage c := by
  cases c <;> simp [State.stepsLeft, st, pos, Stage.home]

theorem issue_within {s : State} {c : Stage} (st : s.st = c.home) :
    (s.issue c).within (exchangeSteps s.par + s.afterStage c) :=
  ⟨beq_iff_eq.mpr st, (stepsLeft_stage (s := s.issue c) st rfl).le⟩

/-- Below `MAX_ATTEMPTS` another attempt uses up one of those left. -/
theorem retries_succ {par : Params} {attempt : BitVec 2} (most : par.maxAttempts ≤ 3)
    (more : attempt.toNat ≠ par.maxAttempts) : retries par attempt = retries par (attempt + 1) + 1 := by
  have count : ∀ max a : BitVec 2, a ≠ max → (max - a).toNat = (max - (a + 1)).toNat + 1 := by decide
  refine count _ _ fun e => more ?_
  rw [e, BitVec.toNat_ofNat]
  omega

theorem attemptFailed_within {s : State} (st : s.st = .presenceConfirmed) (most : s.par.maxAttempts ≤ 3) :
    s.attemptFailed.within
      (1 + (retries s.par s.attempt * attemptSteps s.par + foundSteps s.par s.nblk.toNat)) := by
  unfold State.attemptFailed
  split
  · have := cleanup_le_found s.par s.nblk.toNat
    exact (raiseFail_within s _).mono (by omega)
  · next more =>
    refine ⟨by simp [legalPos, st], ?_⟩
    have left : (s.goPos .backoff).stepsLeft = 5 + attemptedSteps s.par s.nblk.toNat (s.attempt + 1) := by
      simp [State.stepsLeft, st]
    rw [left, attemptedSteps, retries_succ most more, Nat.add_mul, attemptSteps]
    omega

theorem presenceFound_within {s : State} (st : s.st = .presenceConfirmed) :
    s.presenceFound.within (foundSteps s.par s.nblk.toNat) := by
  unfold State.presenceFound foundSteps
  split
  · exact (issue_within (c := .getver) st).mono (by simp only [State.afterStage]; omega)
  · exact ⟨rfl, Nat.le_add_left _ _⟩

/-- The page operation of a block returns to the head of the loop, or fails. -/
theorem pageDone_within {s : State} {n : Nat} (st : s.st = .writing ∨ s.st = .reading)
    (head : (({ s.incAddr with blk := s.blk + 1 } : State).goPos .blocks).stepsLeft ≤ n)
    (clean : cleanupSteps ≤ n) (ok : Bool) (kind : Result) : (s.pageDone ok kind).within n := by
  cases ok with
  | false => exact (raiseFail_within s kind).mono clean
  | true => exact ⟨by rcases st with e | e <;> simp [State.pageDone, legalPos, e], head⟩

theorem massErased_within {s : State} (st : s.st = .erased) (ok : Bool) :
    (s.massErased ok).within
      (2 * exchangeSteps s.par + (1 + writingSteps s.par s.nblk.toNat s.nblk.toNat)) := by
  have next := issue_within (s := s.setMassErased ok) (c := .extEraseCmd) st
  simp only [State.afterStage, State.setMassErased_par, State.setMassErased_nblk] at next
  exact next.mono (by omega)

theorem extErased_within (s : State) (ok : Bool) :
    (s.extErased ok).within (1 + writingSteps s.par s.nblk.toNat s.nblk.toNat) := ⟨rfl, Nat.le_refl _⟩

/-- What follows a stage is bounded by what was to follow it, whatever the stage returned. -/
theorem stageDone_within {s : State} {c : Stage} (st : s.st = c.home) (most : s.par.maxAttempts ≤ 3)
    (ok : Bool) : (s.stageDone c ok).within (s.afterStage c) := by
  have fail : ∀ {n kind}, cleanupSteps ≤ n → (s.raiseFail kind).within n := fun {_ kind} le =>
    (raiseFail_within s kind).mono le
  have issue : ∀ {n c'}, c'.home = c.home → exchangeSteps s.par + s.afterStage c' ≤ n →
      (s.issue c').within n := fun home le => (issue_within (st.trans home.symm)).mono le
  have writing := cleanup_le_writing s.par s.nblk.toNat (s.nblk.toNat - (s.blk + 1).toNat)
  have reading := cleanup_le_reading s.par (s.nblk.toNat - (s.blk + 1).toNat)
  have erased := cleanup_le_erased s.par s.nblk.toNat
  cases c with
  | sync =>
    simp only [State.afterStage]
    cases ok
    exacts [(attemptFailed_within st most).mono (by omega),
      issue rfl (by simp only [State.afterStage]; omega)]
  | get =>
    simp only [State.afterStage]
    cases ok
    exacts [attemptFailed_within st most, (presenceFound_within st).mono (by omega)]
  | getver =>
    simp only [State.afterStage]
    cases ok
    exacts [fail (by omega), issue rfl (Nat.le_refl _)]
  | getid => cases ok; exacts [fail erased, ⟨rfl, Nat.le_refl _⟩]
  | massEraseCmd =>
    simp only [State.afterStage]
    cases ok
    exacts [(massErased_within st false).mono (by omega),
      issue rfl (by simp only [State.afterStage]; omega)]
  | massEraseParam => exact massErased_within st ok
  | extEraseCmd =>
    simp only [State.afterStage]
    cases ok
    exacts [(extErased_within s false).mono (by omega), issue rfl (Nat.le_refl _)]
  | extEraseParam => exact extErased_within s ok
  | writeMem =>
    simp only [State.afterStage]
    cases ok
    exacts [fail (by omega), issue rfl (by simp only [State.afterStage]; omega)]
  | writeAddr =>
    simp only [State.afterStage]
    cases ok
    exacts [fail (by omega), issue rfl (Nat.le_refl _)]
  | pageData => exact pageDone_within (.inl st) (by simp [State.stepsLeft, st, Stage.home]) writing ok _
  | readMem =>
    simp only [State.afterStage]
    cases ok
    exacts [fail (by omega), issue rfl (by simp only [State.afterStage]; omega)]
  | readAddr => exact issue rfl (Nat.le_refl _)
  | pageLen => exact pageDone_within (.inr st) (by simp [State.stepsLeft, st, Stage.home]) reading ok _

/-! ### An event of a stage -/

theorem exchangeSteps_eq (par : Params) : exchangeSteps par = 2 * par.timeout + 3 := rfl

/-- No event of an exchange writes what the rest of the stage's state depends on. -/
theorem OnlyCommand.afterStage {s u : State} (only : OnlyCommand s u) (c : Stage) :
    u.afterStage c = s.afterStage c := by
  obtain ⟨-, -, -, blk, nblk, -, -, -, -, -, -, attempt, -, -, -, -, -, -, -, par⟩ := only.keeps
  cases c <;> simp only [State.afterStage, blk, nblk, attempt, par]

theorem OnlyCommand.st_par {s u : State} (only : OnlyCommand s u) : u.st = s.st ∧ u.par = s.par := by
  obtain ⟨st, -, -, -, -, -, -, -, -, -, -, -, -, -, -, -, -, -, -, par⟩ := only.keeps
  exact ⟨st, par⟩

/-- The stage goes on at another position of its exchange. -/
theorem exchange_within {s u : State} {c : Stage} (st : s.st = c.home) (only : OnlyCommand s u)
    {y : ExchangePos} {n : Nat} (le : y.stepsLeft s.par u.elapsed ≤ n) :
    (u.goPos (.stage c y)).within (n + s.afterStage c) := by
  obtain ⟨ust, par⟩ := only.st_par
  refine ⟨beq_iff_eq.mpr (ust.trans st), ?_⟩
  rw [stepsLeft_stage (s := u.goPos (.stage c y)) (ust.trans st) rfl, ← only.afterStage c]
  exact Nat.add_le_add_right (by rw [State.goPos_par, par]; exact le) _

/-- The stage returns. -/
theorem returned_within {s u : State} {c : Stage} (st : s.st = c.home) (only : OnlyCommand s u)
    (most : s.par.maxAttempts ≤ 3) (ok : Bool) : (u.stageDone c ok).within (s.afterStage c) := by
  obtain ⟨ust, par⟩ := only.st_par
  rw [← only.afterStage c]
  exact stageDone_within (ust.trans st) (by rwa [par]) ok

/-- The polls of an exchange come closer to `TIMEOUT` (R151, D4). -/
theorem stagePoll_within {s : State} {c : Stage} (st : s.st = c.home) (wf : s.par.wf = true) :
    (s.stagePoll c).within (2 * (s.par.timeout - s.elapsed.toNat) + 1 + s.afterStage c) := by
  obtain ⟨interval, -, most, bound⟩ := Params.wf_bounds wf
  have only := (poll_frame s (c.response s.par) s.par.timeout).command
  obtain ⟨_, k, -, -, -, -, -, elapsed, -, -, ends⟩ := poll_effect s (c.response s.par) s.par.timeout
  unfold State.stagePoll
  dsimp only
  generalize s.poll (c.response s.par) s.par.timeout = r at only elapsed ends ⊢
  obtain ⟨u, answer⟩ := r
  dsimp only at only elapsed ends ⊢
  have response : ∀ L, (if L = 0 then (u.setXok false).stageDone c false
      else u.goPos (.stage c .pop)).within
        (2 * (s.par.timeout - s.elapsed.toNat) + 1 + s.afterStage c) := by
    intro L
    split
    · exact (returned_within st (only.trans (u := u.setXok false) rfl) most false).mono (by omega)
    · exact exchange_within st only (Nat.le_add_left _ _)
  rcases ends with ⟨-, rfl, -⟩ | ⟨-, -, rfl, -⟩ | ⟨-, early, rfl⟩
  · exact response _
  · exact response _
  · refine exchange_within st only ?_
    have next : (s.elapsed + BitVec.ofNat 32 s.par.pollInterval).toNat
        = s.elapsed.toNat + s.par.pollInterval := by
      rw [BitVec.toNat_add, BitVec.toNat_ofNat]
      omega
    rw [elapsed, ExchangePos.stepsLeft, next]
    omega

/-- Every event of a stage lowers the bound. -/
theorem stageStep_within {s : State} {c : Stage} (st : s.st = c.home) (wf : s.par.wf = true)
    (x : ExchangePos) :
    (s.stageStep c x).within (x.stepsLeft s.par s.elapsed - 1 + s.afterStage c) := by
  obtain ⟨-, -, most, -⟩ := Params.wf_bounds wf
  cases x with
  | tx =>
    have sent := (stageFrame_frame s c).trans (send_frame _ (s.stageFrame c).2).command
    show (s.stageTx c).within _
    unfold State.stageTx
    dsimp only
    generalize (s.stageFrame c).1.send (s.stageFrame c).2 = r at sent ⊢
    split
    · exact (returned_within st (sent.trans (u := r.1.setXok false) rfl) most false).mono (by omega)
    · exact exchange_within st (sent.trans (u := { r.1 with elapsed := 0 }) rfl)
        (by simp [ExchangePos.stepsLeft, exchangeSteps_eq])
  | poll => exact (stagePoll_within st wf).mono (by simp [ExchangePos.stepsLeft])
  | pause => exact exchange_within st (pause_frame s).command (by simp [ExchangePos.stepsLeft])
  | pop =>
    exact (returned_within st (takeResponse_frame s (c.response s.par)).command most _).mono (by omega)

/-! ### `ENTER_BL`, `EXIT_BL` and `DETECT` -/

/-- From the return of `ENTER_BL` or `EXIT_BL`. -/
def State.afterBoot (s : State) : Nat :=
  match s.st with
  | .modeEntered => 2 + presenceSteps s.par s.nblk.toNat
  | _ => 2

theorem stepsLeft_boot {s : State} (st : s.st = .modeEntered ∨ s.st = .modeExited)
    (open_ : s.pos ≠ .closing) : s.stepsLeft = s.pos.bootStepsLeft + s.afterBoot := by
  rcases st with st | st
  · simp [State.stepsLeft, State.afterBoot, st]
  · cases pos : s.pos with
    | closing => exact absurd pos open_
    | _ => simp [State.stepsLeft, State.afterBoot, st, pos]

theorem bootDone_within {s : State} (st : s.st = .modeEntered ∨ s.st = .modeExited) (ok : Bool) :
    (s.bootDone ok).within s.afterBoot := by
  rcases st with st | st
  · have after : s.afterBoot = 2 + presenceSteps s.par s.nblk.toNat := by simp [State.afterBoot, st]
    have clean := cleanup_le_presence s.par s.nblk.toNat
    rw [bootDone_modeEntered st, after]
    cases ok
    exacts [(raiseFail_within s _).mono (by omega), ⟨rfl, Nat.le_refl _⟩]
  · have after : s.afterBoot = 2 := by simp [State.afterBoot, st]
    rw [bootDone_modeExited st, after]
    refine ⟨by simp [legalPos, st], ?_⟩
    simp only [State.stepsLeft, State.goPos_st, State.goPos_pos, st]
    split <;> omega

/-- The work goes on at another position of the operation. -/
theorem boot_within {s u : State} (st : s.st = .modeEntered ∨ s.st = .modeExited) (only : OnlyLines s u)
    (p : Pos) (inOp : p.inBootOp = true) : (u.goPos p).within (p.bootStepsLeft + s.afterBoot) := by
  obtain ⟨ust, -, -, -, nblk, -, -, -, -, -, -, -, -, -, -, -, -, -, -, -, -, -, -, par⟩ := only.keeps
  obtain ⟨legalIn, legalOut, open_⟩ := legalPos_of_inBootOp inOp
  have after : u.afterBoot = s.afterBoot := by simp only [State.afterBoot, ust, nblk, par]
  rw [← ust] at st
  refine ⟨?_, ?_⟩
  · show legalPos u.st p = true
    rcases st with e | e <;> rw [e] <;> assumption
  · rw [← after]
    exact (stepsLeft_boot (s := u.goPos p) st open_).le

/-- Every event of a pulse of `ENTER_BL` or `EXIT_BL` lowers the bound. -/
theorem bootPulse_within {s : State} (st : s.st = .modeEntered ∨ s.st = .modeExited) (q : PulsePos) :
    (s.pulseStep q).within (q.stepsLeft - 1 + s.afterBoot) := by
  cases q with
  | low => exact boot_within st (setLevel_frame s .reset false) (.pulse .hold) rfl
  | hold => exact boot_within st (wait_lines s s.par.tResetLow) (.pulse .high) rfl
  | high => exact boot_within st (setLevel_frame s .reset true) (.pulse .settle) rfl
  | settle =>
    have done := bootDone_within (s := s.wait s.par.tSettle) st true
    rw [← pulseDone_boot (s := s.wait s.par.tSettle) st] at done
    exact done.mono (Nat.le_add_left _ _)

theorem PulsePos.stepsLeft_pos (q : PulsePos) : 1 ≤ q.stepsLeft := by cases q <;> decide

theorem ExchangePos.stepsLeft_pos (par : Params) (elapsed : BitVec 32) (x : ExchangePos) :
    1 ≤ x.stepsLeft par elapsed := by
  cases x <;> simp [ExchangePos.stepsLeft, exchangeSteps]

theorem Pos.bootStepsLeft_pos (p : Pos) : 1 ≤ p.bootStepsLeft := by
  cases p with
  | pulse q => exact q.stepsLeft_pos
  | _ => simp [Pos.bootStepsLeft]

theorem not_closing_of_bootOp {p : Pos} (pos : p = .entry ∨ p.inBootOp = true) : p ≠ .closing := by
  rintro rfl
  simp [Pos.inBootOp] at pos

/-- Every event of `ENTER_BL` and `EXIT_BL` lowers the bound. -/
theorem bootStep_within {s : State} (st : s.st = .modeEntered ∨ s.st = .modeExited) {p : Pos}
    (pos : p = .entry ∨ p.inBootOp = true) :
    (s.bootStep p).within (p.bootStepsLeft - 1 + s.afterBoot) := by
  cases p with
  | entry => exact boot_within (u := (s.setDir .reset).1) st rfl (.dirBoot _) rfl
  | dirBoot ok1 =>
    show (s.configBoot ok1).within _
    unfold State.configBoot
    dsimp only
    split
    · exact boot_within (u := (s.setDir .boot).1) st rfl .level rfl
    · exact (bootDone_within (s := (s.setDir .boot).1) st false).mono (Nat.le_add_left _ _)
  | level => exact boot_within st (setLevel_frame s .boot _) (.pulse .low) rfl
  | pulse q => exact bootPulse_within st q
  | _ => simp [Pos.inBootOp] at pos

/-- Every event of a pulse of `DETECT` lowers the bound; the first is made with the attempt counted. -/
theorem detectPulse_within {s : State} (st : s.st = .presenceConfirmed) (q : PulsePos) :
    (s.pulseStep q).within (q.stepsLeft - 1 + attemptedSteps s.par s.nblk.toNat s.attempt) := by
  cases q with
  | low | hold | high =>
    refine ⟨by simp [State.pulseStep, legalPos, st], ?_⟩
    simp [State.stepsLeft, State.pulseStep, st, PulsePos.stepsLeft]
  | settle =>
    have next := issue_within (s := s.wait s.par.tSettle) (c := .sync) st
    rw [← pulseDone_presence (s := s.wait s.par.tSettle) st] at next
    simp only [State.afterStage, State.wait_par, State.wait_nblk, State.wait_attempt] at next
    exact next.mono (by simp only [attemptedSteps, PulsePos.stepsLeft]; omega)

theorem startAttempt_within {s : State} (st : s.st = .presenceConfirmed) :
    s.startAttempt.within (3 + attemptedSteps s.par s.nblk.toNat (s.attempt + 1)) :=
  detectPulse_within (s := { s with attempt := s.attempt + 1 }) st .low

/-! ### The block loops -/

/-- A block fetched and its page operation are one block less to go. -/
theorem blocks_succ {blk nblk : BitVec 16} (more : blk.toNat < nblk.toNat) :
    nblk.toNat - blk.toNat = nblk.toNat - (blk + 1).toNat + 1 := by
  bv_omega

theorem fetchBlock_kept (s : State) : s.fetchBlock.1.afterStage = s.afterStage := by
  rw [fetchBlock_frame]
  rfl

/-- The head of a block loop: a block fetched leaves its page operation, and the loop may be left. -/
theorem nextBlock_within {s : State} {page : Stage} {after : St} {n : Nat} (st : s.st = page.home)
    (fetched : s.blk.toNat < s.nblk.toNat → exchangeSteps s.par + s.afterStage page ≤ n)
    (left : (s.goto after).stepsLeft ≤ n) (clean : cleanupSteps ≤ n) : (s.nextBlock page after).within n := by
  have frame := fetchBlock_frame s
  have kept := fetchBlock_kept s
  unfold State.nextBlock
  dsimp only
  split
  · next more =>
    generalize s.fetchBlock = r at frame kept ⊢
    split
    · have next := issue_within (s := r.1) (c := page) (by rw [frame]; exact st)
      rw [kept, show r.1.par = s.par by rw [frame]] at next
      exact next.mono (fetched more)
    · exact (raiseFail_within r.1 _).mono clean
  · exact ⟨rfl, left⟩

/-! ### Every step -/

theorem enteredSteps_mono {m n : Nat} (par : Params) (le : m ≤ n) :
    enteredSteps par m ≤ enteredSteps par n := by
  unfold enteredSteps presenceSteps foundSteps erasedSteps writingSteps readingSteps
  gcongr

theorem cleanup_lt_entered (par : Params) (blocks : Nat) : cleanupSteps < enteredSteps par blocks := by
  have := cleanup_le_presence par blocks
  unfold enteredSteps
  omega

theorem sizeImage_within (s : State) : s.sizeImage.within (enteredSteps s.par 65535) := by
  have clean := cleanup_lt_entered s.par 65535
  obtain ⟨n, -, e⟩ := sizeImage_eq s
  rw [e]
  split
  · exact (raiseFail_within _ _).mono clean.le
  · split
    · exact (raiseFail_within _ _).mono clean.le
    · refine ⟨rfl, enteredSteps_mono s.par ?_⟩
      exact Nat.le_of_lt_succ (BitVec.ofNat 16 (blocksOf s.par n)).isLt

theorem retries_zero {par : Params} (most : par.maxAttempts ≤ 3) : retries par 0 = par.maxAttempts := by
  have same : BitVec.ofNat 2 par.maxAttempts - 0 = BitVec.ofNat 2 par.maxAttempts := BitVec.sub_zero _
  rw [retries, same, BitVec.toNat_ofNat]
  omega

/-- Every step of the sequence keeps to the positions of the states' own work and lowers the bound. -/
theorem SeqMove.progress {s t : State} (wf : s.par.wf = true) (busy : s.busy = true) (move : SeqMove s t) :
    t.within (s.stepsLeft - 1) := by
  obtain ⟨-, least, most, -⟩ := Params.wf_bounds wf
  have entered := cleanup_lt_entered s.par 65535
  have presence := cleanup_le_presence s.par s.nblk.toNat
  cases move with
  | rest st => rw [(busy_eq_false s).mpr st] at busy; cases busy
  | validate st =>
    have now : s.stepsLeft = 4 + enteredSteps s.par 65535 := by simp [State.stepsLeft, st]
    rw [now]
    unfold State.validateConfig
    split
    exacts [⟨rfl, by simp [State.stepsLeft]⟩, (raiseFail_within _ _).mono (by omega)]
  | mount st =>
    have now : s.stepsLeft = 3 + enteredSteps s.par 65535 := by simp [State.stepsLeft, st]
    rw [now]
    unfold State.mountStorage
    dsimp only
    split
    exacts [⟨rfl, by simp [State.stepsLeft]⟩, (raiseFail_within _ _).mono (by omega)]
  | openImage st pos =>
    have now : s.stepsLeft = 2 + enteredSteps s.par 65535 := by simp [State.stepsLeft, st, pos]
    rw [now]
    unfold State.openImage
    dsimp only
    split
    · exact ⟨by simp [legalPos, st], by simp [State.stepsLeft, st]⟩
    · exact (raiseFail_within _ _).mono (by omega)
  | sizeImage st pos =>
    have now : s.stepsLeft = 1 + enteredSteps s.par 65535 := by simp [State.stepsLeft, st, pos]
    exact (sizeImage_within s).mono (by omega)
  | enterBl st pos =>
    have now := stepsLeft_boot (.inl st) (not_closing_of_bootOp pos)
    have one := s.pos.bootStepsLeft_pos
    exact (bootStep_within (.inl st) pos).mono (by omega)
  | configureUart st pos =>
    have now : s.stepsLeft = 2 + presenceSteps s.par s.nblk.toNat := by simp [State.stepsLeft, st, pos]
    refine ⟨by simp [State.configureUart, legalPos, st], ?_⟩
    rw [now]
    simp [State.configureUart, State.stepsLeft, st]
  | setPins ok1 st pos =>
    have now : s.stepsLeft = 1 + presenceSteps s.par s.nblk.toNat := by simp [State.stepsLeft, st, pos]
    rw [now]
    unfold State.setPins
    dsimp only
    split
    exacts [⟨rfl, by simp [State.stepsLeft]⟩, (raiseFail_within _ _).mono (by omega)]
  | firstAttempt st pos =>
    have now : s.stepsLeft = presenceSteps s.par s.nblk.toNat := by simp [State.stepsLeft, st, pos]
    have first := startAttempt_within (s := { s with attempt := 0 }) st
    have count := retries_succ (attempt := 0) most (show 0 ≠ _ by omega)
    rw [retries_zero most] at count
    refine first.mono ?_
    rw [now, presenceSteps, attemptedSteps, count, Nat.add_mul, attemptSteps]
    dsimp only
    omega
  | nextAttempt st pos =>
    have now : s.stepsLeft = 4 + attemptedSteps s.par s.nblk.toNat (s.attempt + 1) := by
      simp [State.stepsLeft, st, pos]
    exact (startAttempt_within st).mono (by omega)
  | pulse q later st pos =>
    have now : s.stepsLeft = q.stepsLeft + attemptedSteps s.par s.nblk.toNat s.attempt := by
      cases q <;> simp_all [State.stepsLeft]
    have one := q.stepsLeft_pos
    exact (detectPulse_within st q).mono (by omega)
  | backOff st pos =>
    have now : s.stepsLeft = 5 + attemptedSteps s.par s.nblk.toNat (s.attempt + 1) := by
      simp [State.stepsLeft, st, pos]
    refine ⟨by simp [State.backOff, legalPos, st], ?_⟩
    rw [now]
    simp [State.backOff, State.stepsLeft, st]
  | stage c x st pos =>
    have one := x.stepsLeft_pos s.par s.elapsed
    rw [stepsLeft_stage st pos]
    exact (stageStep_within st wf x).mono (by omega)
  | eraseAll st pos =>
    have now : s.stepsLeft = erasedSteps s.par s.nblk.toNat := by simp [State.stepsLeft, st, pos]
    refine (stageStep_within (c := .massEraseCmd) st wf .tx).mono ?_
    rw [now, erasedSteps]
    simp only [ExchangePos.stepsLeft, State.afterStage, exchangeSteps_eq]
    omega
  | seedWriting st pos =>
    have now : s.stepsLeft = 1 + writingSteps s.par s.nblk.toNat s.nblk.toNat := by
      simp [State.stepsLeft, st, pos]
    refine ⟨by simp [State.seedBlocks, legalPos, st], ?_⟩
    rw [now]
    simp [State.seedBlocks, State.stepsLeft, st]
  | seedReading st pos =>
    have now : s.stepsLeft = 1 + readingSteps s.par s.nblk.toNat := by simp [State.stepsLeft, st, pos]
    refine ⟨by simp [State.seedReading, State.seedBlocks, legalPos, st], ?_⟩
    rw [now]
    simp [State.seedReading, State.seedBlocks, State.stepsLeft, st]
  | nextWriting st pos =>
    have now : s.stepsLeft = writingSteps s.par s.nblk.toNat (s.nblk.toNat - s.blk.toNat) := by
      simp [State.stepsLeft, st, pos]
    rw [now]
    refine nextBlock_within st (fun more => ?_) ?_ ?_
    · rw [blocks_succ more]
      simp only [State.afterStage, writingSteps, blockSteps, Nat.add_mul]
      omega
    · show 1 + readingSteps s.par s.nblk.toNat ≤ _
      unfold writingSteps
      omega
    · unfold writingSteps readingSteps
      omega
  | nextReading st pos =>
    have now : s.stepsLeft = readingSteps s.par (s.nblk.toNat - s.blk.toNat) := by
      simp [State.stepsLeft, st, pos]
    rw [now]
    refine nextBlock_within st (fun more => ?_) ?_ ?_
    · rw [blocks_succ more]
      simp only [State.afterStage, readingSteps, blockSteps, Nat.add_mul]
      omega
    · show cleanupSteps ≤ _
      unfold readingSteps
      omega
    · unfold readingSteps
      omega
  | startCleanup st pos =>
    have now : s.stepsLeft = cleanupSteps := by
      simp [State.stepsLeft, st, pos, Pos.bootStepsLeft, cleanupSteps]
    have after : s.afterBoot = 2 := by simp [State.afterBoot, st]
    rw [now]
    unfold State.startCleanup
    split
    · exact (bootStep_within (p := .entry) (.inr st) (.inl rfl)).mono (by rw [after]; exact Nat.le_refl _)
    · refine ⟨by simp [legalPos, st], ?_⟩
      simp only [State.stepsLeft, State.goPos_st, State.goPos_pos, st, cleanupSteps]
      split <;> omega
  | exitBl st pos =>
    have now := stepsLeft_boot (.inr st) (not_closing_of_bootOp (.inr pos))
    have one := s.pos.bootStepsLeft_pos
    exact (bootStep_within (.inr st) (.inr pos)).mono (by omega)
  | cleanupImage st pos =>
    unfold State.cleanupImage
    split
    · next opened =>
      refine ⟨by simp [legalPos, st, pos], ?_⟩
      simp [State.stepsLeft, st, pos, opened]
    · exact ⟨rfl, Nat.zero_le _⟩

/-- Outside Idle and Done a step is left. -/
theorem stepsLeft_pos {s : State} (busy : s.busy = true) : 1 ≤ s.stepsLeft := by
  have boot := s.pos.bootStepsLeft_pos
  have presence := cleanup_le_presence s.par s.nblk.toNat
  have erased := cleanup_le_erased s.par s.nblk.toNat
  have clean : cleanupSteps = 9 := rfl
  unfold State.stepsLeft
  cases st : s.st with
  | idle | done => simp [State.busy, st] at busy
  | configValidated | storageReady | modeEntered => dsimp only; omega
  | imageLocated | transportReady => dsimp only; split <;> omega
  | presenceConfirmed =>
    dsimp only
    split
    · omega
    · next q _ _ => exact q.stepsLeft_pos.trans (Nat.le_add_right _ _)
    · next c x _ => exact (x.stepsLeft_pos _ _).trans (Nat.le_add_right _ _)
    · omega
    · omega
  | erased =>
    dsimp only
    split
    · next c x _ => exact (x.stepsLeft_pos _ _).trans (Nat.le_add_right _ _)
    · omega
  | writing =>
    dsimp only
    split
    · exact (by decide : 1 ≤ cleanupSteps).trans (cleanup_le_writing _ _ _)
    · next c x _ => exact (x.stepsLeft_pos _ _).trans (Nat.le_add_right _ _)
    · omega
  | reading =>
    dsimp only
    split
    · exact (by decide : 1 ≤ cleanupSteps).trans (cleanup_le_reading _ _)
    · next c x _ => exact (x.stepsLeft_pos _ _).trans (Nat.le_add_right _ _)
    · omega
  | modeExited =>
    dsimp only
    split
    · split <;> omega
    · omega

/-! ### The session -/

/-- A session taken event by event comes to Done (R315(a)). -/
theorem sequence_done : ∀ (n : Nat) (s : State), s.par.wf = true → s.st ≠ .idle → s.within n →
    (State.seqStep^[n] s).st = .done := by
  intro n
  induction n with
  | zero =>
    intro s _ begun near
    cases busy : s.busy with
    | false => exact ((busy_eq_false s).mp busy).resolve_left begun
    | true => exact absurd (stepsLeft_pos busy) (Nat.not_lt.mpr near.le)
  | succ n ih =>
    intro s wf begun near
    have move := seqStep_move s near.legal
    have later : s.seqStep.st ≠ .idle := fun e => begun (by
      have le := move.st_moves.code_le
      rw [e] at le
      cases st : s.st <;> simp [st, St.code] at le ⊢)
    refine ih s.seqStep (by rwa [seqStep_par]) later ?_
    cases busy : s.busy with
    | false =>
      rw [seqStep_of_not_busy busy]
      have st := ((busy_eq_false s).mp busy).resolve_left begun
      exact ⟨near.legal, by simp [State.stepsLeft, st]⟩
    | true => exact (move.progress wf busy).mono (by have := near.le; omega)

/-- The bounded run of `FLASH` is the sequence iterated: in Idle and Done it rests. -/
theorem runSequence_eq : ∀ (n : Nat) (s : State), State.runSequence n s = State.seqStep^[n] s := by
  intro n
  induction n with
  | zero => exact fun s => rfl
  | succ n ih =>
    intro s
    rw [Function.iterate_succ_apply, ← ih, State.runSequence]
    cases busy : s.busy with
    | false =>
      rw [seqStep_of_not_busy busy, ih, Function.iterate_fixed (seqStep_of_not_busy busy)]
      rfl
    | true => rfl

/-- The bound of `FLASH` is enough for any session (log 24). -/
theorem startSession_within (s : State) (c : Cfg) (nm : Name) (wf : s.par.wf = true) :
    (s.startSession c nm).within (sequenceFuel s.par) := by
  obtain ⟨interval, -⟩ := Params.wf_bounds wf
  refine ⟨rfl, ?_⟩
  show 4 + enteredSteps s.par 65535 ≤ sequenceFuel s.par
  unfold sequenceFuel
  split
  · omega
  · simp only [enteredSteps, presenceSteps, foundSteps, erasedSteps, writingSteps, readingSteps, blockSteps,
      attemptSteps, cleanupSteps]
    omega

/-- Settles O55: both runs iterate the sequence from the started session, which is in Done before the bound
of `FLASH` is used up. -/
theorem stepwiseSessionRefinesFlash : Obligations.StepwiseSessionRefinesFlash := by
  unfold Obligations.StepwiseSessionRefinesFlash
  intro s c nm idle slot inputs wf
  have free : s.busy = false := (busy_eq_false s).mpr idle
  have popped : ({ s with inputs := [.start c nm] } : State).popInput = s := by
    cases s
    cases inputs
    rfl
  have start := step_start { s with inputs := [.start c nm] } c nm slot rfl free
  rw [popped] at start
  refine ⟨sequenceFuel s.par + 1, State.seqStep^[sequenceFuel s.par] (s.startSession c nm), ?_, ?_, ?_⟩
  · exact (run_next _ start).trans (run_sequence _ _ slot inputs)
  · exact sequence_done _ _ wf (fun e => by cases e) (startSession_within s c nm wf)
  · rw [← runSequence_eq]
    have flash : s.flash c nm = _ := if_neg (by simp [free])
    exact congrArg Host.Outcome.next flash

end Sys2Proof.Machine
end

section
/-!
PROOFS. The reset state meets the session invariant; and the first failure of a session
(spec/60_exceptions.md R310, spec/10_state.md R26): what raises one raises it after work that kept `RESULT`
(`raiseFail_firstFailure`), and every step of the sequence, from a position of the state's own work or not,
either keeps `RESULT` or raises one (`seqStep_firstFailure`).
-/
namespace Sys2Proof.Machine

/-- Settles O48: the reset state is the state a hardware reset makes of it. -/
theorem sessionInvariantHoldsAtReset : Obligations.SessionInvariantHoldsAtReset :=
  hwReset_sessionOk (s := State.reset) rfl

/-- `RESULT` is kept, or success gives way to a failure with the move to ModeExited (R310). -/
def FirstFailure (s t : State) : Prop :=
  t.result = s.result ∨ (s.result = .success ∧ t.st = .modeExited ∧ t.pos = .entry)

/-- Raising a failure after work that kept `RESULT`. -/
theorem raiseFail_firstFailure {s u : State} (kept : u.result = s.result) (kind : Result) :
    FirstFailure s (u.raiseFail kind) := by
  by_cases success : u.result = .success
  · exact .inr ⟨kept.symm.trans success, rfl, rfl⟩
  · exact .inl ((if_neg success).trans kept)

theorem stageDone_firstFailure {s u : State} (kept : u.result = s.result) (c : Stage) (ok : Bool) :
    FirstFailure s (u.stageDone c ok) := by
  have fail : ∀ kind, FirstFailure s (u.raiseFail kind) := raiseFail_firstFailure kept
  have failed : FirstFailure s u.attemptFailed := by
    unfold State.attemptFailed
    split
    exacts [fail _, .inl kept]
  cases c with
  | sync => cases ok; exacts [failed, .inl kept]
  | get =>
    cases ok
    · exact failed
    · show FirstFailure s u.presenceFound
      unfold State.presenceFound
      split <;> exact .inl kept
  | massEraseCmd | extEraseCmd => cases ok <;> exact .inl kept
  | massEraseParam | extEraseParam | readAddr => exact .inl kept
  | _ => cases ok; exacts [fail _, .inl kept]

theorem OnlyCommand.result {s t : State} (h : OnlyCommand s t) : t.result = s.result := by
  unfold OnlyCommand at h
  rw [h]

theorem stageStep_firstFailure (s : State) (c : Stage) (x : ExchangePos) :
    FirstFailure s (s.stageStep c x) := by
  obtain ⟨u, event, ⟨y, -, e⟩ | ⟨ok, e⟩⟩ := stageStep_cases s c x <;> rw [e]
  · exact .inl event.only.result
  · exact stageDone_firstFailure event.only.result c ok

theorem bootDone_firstFailure {s u : State} (kept : u.result = s.result) (ok : Bool) :
    FirstFailure s (u.bootDone ok) := by
  unfold State.bootDone
  split
  · exact .inl kept
  · cases ok
    exacts [raiseFail_firstFailure kept _, .inl kept]

theorem pulseStep_firstFailure (s : State) (q : PulsePos) : FirstFailure s (s.pulseStep q) := by
  cases q with
  | low | hold | high => exact .inl rfl
  | settle =>
    show FirstFailure s (s.wait s.par.tSettle).pulseDone
    unfold State.pulseDone
    split
    · exact .inl rfl
    · exact bootDone_firstFailure (u := s.wait s.par.tSettle) rfl true

theorem bootStep_firstFailure (s : State) (p : Pos) : FirstFailure s (s.bootStep p) := by
  unfold State.bootStep
  split
  · unfold State.configBoot
    dsimp only
    split
    · exact .inl rfl
    · exact bootDone_firstFailure (u := (s.setDir .boot).1) rfl false
  · exact .inl rfl
  · exact pulseStep_firstFailure s _
  · exact .inl rfl

theorem nextBlock_firstFailure (s : State) (page : Stage) (after : St) :
    FirstFailure s (s.nextBlock page after) := by
  have fetched := fetchBlock_result s
  unfold State.nextBlock
  dsimp only
  split
  · split
    exacts [.inl fetched, raiseFail_firstFailure fetched _]
  · exact .inl rfl

theorem sizeImage_firstFailure (s : State) : FirstFailure s s.sizeImage := by
  obtain ⟨n, -, e⟩ := sizeImage_eq s
  rw [e]
  split
  · exact raiseFail_firstFailure (u := s.withSize n) rfl _
  · split
    exacts [raiseFail_firstFailure (u := s.withSize n) rfl _, .inl rfl]

/-- Every step of the sequence, from any state and position, keeps the first failure. -/
theorem seqStep_firstFailure (s : State) : FirstFailure s s.seqStep := by
  unfold State.seqStep
  split
  · exact .inl rfl
  · unfold State.validateConfig
    split
    exacts [.inl rfl, raiseFail_firstFailure rfl _]
  · unfold State.mountStorage
    dsimp only
    split
    exacts [.inl rfl, raiseFail_firstFailure (u := (s.ask _).1) rfl _]
  · split
    · exact sizeImage_firstFailure s
    · unfold State.openImage
      dsimp only
      split
      exacts [.inl rfl, raiseFail_firstFailure (u := (s.ask _).1) rfl _]
  · exact bootStep_firstFailure s _
  · split
    · unfold State.setPins
      dsimp only
      split
      exacts [.inl rfl, raiseFail_firstFailure (u := (s.ask _).1) rfl _]
    · exact .inl rfl
  · split
    · exact .inl rfl
    · exact pulseStep_firstFailure s _
    · exact stageStep_firstFailure s _ _
    · exact .inl rfl
    · exact .inl rfl
  · split
    · exact stageStep_firstFailure s _ _
    · exact stageStep_firstFailure s .massEraseCmd .tx
  · split
    · exact nextBlock_firstFailure s _ _
    · exact stageStep_firstFailure s _ _
    · exact .inl rfl
  · split
    · exact nextBlock_firstFailure s _ _
    · exact stageStep_firstFailure s _ _
    · exact .inl rfl
  · split
    · unfold State.startCleanup
      split <;> exact .inl rfl
    · unfold State.cleanupImage
      split <;> exact .inl rfl
    · exact bootStep_firstFailure s _
  · exact .inl rfl

/-- Settles O41: a step without an operation and an input is a step of the sequence. -/
theorem firstFailureWins : Obligations.FirstFailureWins := by
  intro s t slot input e
  cases (step_sequence s slot input).symm.trans e
  have first : FirstFailure s s.popInput.seqStep := seqStep_firstFailure s.popInput
  refine ⟨fun failed => ?_, fun changed => first.resolve_left changed⟩
  exact first.resolve_right fun ⟨success, _⟩ => failed success

end Sys2Proof.Machine
end

section
/-!
PROOFS. `FLASH` (spec/45_orchestrator.md R260, log 24) answers the state in which its session is in Done
(`flash_of_run`, `flash_of_leads`); with an invalid configuration (R262, R301) that is three steps away.
-/
namespace Sys2Proof.Machine

theorem seqStep_of_done {t : State} (done : t.st = .done) : t.seqStep = t :=
  seqStep_of_not_busy ((busy_eq_false t).mpr (.inr done))

/-- A session that is in Done within the bound of `FLASH` is what `FLASH` answers. -/
theorem flash_of_run {s t : State} {c : Cfg} {nm : Name} {k : Nat} (idle : s.st = .idle ∨ s.st = .done)
    (run : State.seqStep^[k] (s.startSession c nm) = t) (done : t.st = .done)
    (within : k ≤ sequenceFuel s.par) : exec (.flash c nm) s = .next (t.setRet (.result t.result)) := by
  have free : s.busy = false := (busy_eq_false s).mpr idle
  have flash : s.flash c nm = _ := if_neg (by simp [free])
  obtain ⟨more, fuel⟩ := Nat.exists_eq_add_of_le' within
  have ends : State.runSequence (sequenceFuel s.par) (s.startSession c nm) = t := by
    rw [runSequence_eq, fuel, Function.iterate_add_apply, run, Function.iterate_fixed (seqStep_of_done done)]
  rw [ends] at flash
  exact congrArg Host.Outcome.next flash

/-- With parameters within the spec's bounds the bound of `FLASH` is no restriction (log 24). -/
theorem flash_of_leads {s t : State} {c : Cfg} {nm : Name} (idle : s.st = .idle ∨ s.st = .done)
    (wf : s.par.wf = true) (run : Leads (s.startSession c nm) t) (done : t.st = .done) :
    exec (.flash c nm) s = .next (t.setRet (.result t.result)) := by
  obtain ⟨k, run⟩ := run
  rcases Nat.le_total k (sequenceFuel s.par) with within | beyond
  · exact flash_of_run idle run done within
  · have bounded := sequence_done (sequenceFuel s.par) (s.startSession c nm) wf (fun e => by cases e)
      (startSession_within s c nm wf)
    obtain ⟨more, rfl⟩ := Nat.exists_eq_add_of_le' beyond
    rw [Function.iterate_add_apply, Function.iterate_fixed (seqStep_of_done bounded)] at run
    exact flash_of_run idle run done (Nat.le_refl _)

/-- An invalid configuration takes three steps: the test, ModeExited with nothing to undo, and the end. -/
theorem invalid_run {s : State} (st : s.st = .configValidated) (invalid : ¬ cfgValid s.par s.cfg = true)
    (closed : s.imgOpen = false) (left : s.modeEntered = false) :
    State.seqStep^[3] s = ((s.raiseFail .configurationInvalid).goPos .closing).endSession := by
  have tested : s.seqStep = s.raiseFail .configurationInvalid :=
    (seqStep_configValidated st).trans (if_neg invalid)
  have nothingToUndo : (s.raiseFail .configurationInvalid).seqStep
      = (s.raiseFail .configurationInvalid).goPos .closing :=
    (seqStep_startCleanup rfl rfl).trans (if_neg (by simp [left]))
  have ended : ((s.raiseFail .configurationInvalid).goPos .closing).seqStep
      = ((s.raiseFail .configurationInvalid).goPos .closing).endSession :=
    (seqStep_closing rfl rfl).trans (if_neg (by simp [closed]))
  show s.seqStep.seqStep.seqStep = _
  rw [tested, nothingToUndo, ended]

/-- Settles O54: the three steps of `invalid_run` make no event of a provider. -/
theorem flashRejectsAnInvalidConfigurationUntouched :
    Obligations.FlashRejectsAnInvalidConfigurationUntouched := by
  intro s c nm idle poll violated
  have invalid : ¬ cfgValid s.par c = true := by
    rw [cfgValid_iff]
    rintro ⟨reset, boot, tx, rx, ch, channel, lines, control⟩
    rcases violated with v | v | v | v | v | v | v | v
    exacts [reset v, boot v, tx v, rx v, ch v, absurd channel (by omega), lines v, control v]
  have fuel : 3 ≤ sequenceFuel s.par := by
    unfold sequenceFuel
    split <;> omega
  have run := invalid_run (s := s.startSession c nm) rfl invalid rfl rfl
  exact ⟨_, flash_of_run idle run rfl fuel, rfl, rfl, rfl, rfl, rfl⟩

end Sys2Proof.Machine
end

section
/-!
PROOFS. What a session is to undo (spec/60_exceptions.md R315), kept in two books: of the image and of the
lines (`State.imageBooks`, `State.lineBooks`). From the first attempt of `DETECT` to the start of ModeExited no
step writes either (`SeqMove.underway`), and a session there comes to ModeExited (`underway_leads`).
-/
namespace Sys2Proof.Machine

/-! ### The books of a session -/

/-- What the cleanup of the image and of boot mode goes by, and the opens and closes the trace tells of. -/
structure ImageBooks where
  opened : Bool
  entered : Bool
  opens : Nat
  closes : Nat

/-- The answers of `SetDir` still to come, the drives of the boot-mode line to each level, and the reset pulses
beyond the attempts counted. -/
structure LineBooks where
  answers : List Bool
  raises : Nat
  lowers : Nat
  excess : Int

/-- The image book of a state. -/
def State.imageBooks (s : State) : ImageBooks :=
  ⟨s.imgOpen, s.modeEntered, imageOpens s.world.trace, imageCloses s.world.trace⟩

/-- The line book of a state. -/
def State.lineBooks (s : State) : LineBooks :=
  ⟨s.world.dirOk, bootDrives true s.world.trace, bootDrives false s.world.trace,
    (pulses s.world.trace : Int) - s.attempt.toNat⟩

/-- The line book after an operation that drove the boot-mode line to `level` and pulsed the reset, with the
answers of `SetDir` that are left. -/
def LineBooks.driven (b : LineBooks) (level : Bool) (answers : List Bool) : LineBooks :=
  ⟨answers, b.raises + level.toNat, b.lowers + (!level).toNat, b.excess + 1⟩

/-- Neither book is written between the two states. -/
structure SameBooks (s t : State) : Prop where
  image : t.imageBooks = s.imageBooks
  line : t.lineBooks = s.lineBooks

theorem SameBooks.trans {s t u : State} (a : SameBooks s t) (b : SameBooks t u) : SameBooks s u :=
  ⟨b.image.trans a.image, b.line.trans a.line⟩

/-! ### From the first attempt of `DETECT` to the end of Reading -/

theorem stageDone_books (s : State) (c : Stage) (ok : Bool) : SameBooks s (s.stageDone c ok) := by
  have failed : SameBooks s s.attemptFailed := by
    unfold State.attemptFailed
    split <;> exact ⟨rfl, rfl⟩
  cases c with
  | sync => cases ok; exacts [failed, ⟨rfl, rfl⟩]
  | get =>
    cases ok
    · exact failed
    · show SameBooks s s.presenceFound
      unfold State.presenceFound
      split <;> exact ⟨rfl, rfl⟩
  | _ => cases ok <;> exact ⟨rfl, rfl⟩

theorem setXok_books (s : State) (v : Bool) : SameBooks s (s.setXok v) := ⟨rfl, rfl⟩

theorem poll_books (s : State) (n T : Nat) : SameBooks s (s.poll n T).1 := by
  unfold State.poll
  dsimp only
  split
  · exact ⟨rfl, rfl⟩
  · split <;> exact ⟨rfl, rfl⟩

/-- The events of an exchange are `Tx`, `RxLen`, waits and `RxPop`. -/
theorem stageStep_books (s : State) (c : Stage) (x : ExchangePos) : SameBooks s (s.stageStep c x) := by
  cases x with
  | tx =>
    have sent : SameBooks s ((s.stageFrame c).1.send (s.stageFrame c).2).1 := by
      cases c <;> exact ⟨rfl, rfl⟩
    show SameBooks s (s.stageTx c)
    unfold State.stageTx
    dsimp only
    split
    · exact (sent.trans (setXok_books _ false)).trans (stageDone_books _ c false)
    · exact sent.trans ⟨rfl, rfl⟩
  | poll =>
    have polled := poll_books s (c.response s.par) s.par.timeout
    show SameBooks s (s.stagePoll c)
    unfold State.stagePoll
    dsimp only
    split
    · exact polled.trans ⟨rfl, rfl⟩
    · split
      · exact (polled.trans (setXok_books _ false)).trans (stageDone_books _ c false)
      · exact polled.trans ⟨rfl, rfl⟩
  | pause => exact ⟨rfl, rfl⟩
  | pop =>
    have taken : SameBooks s (s.takeResponse (c.response s.par)).1 := ⟨rfl, rfl⟩
    exact taken.trans (stageDone_books _ c _)

theorem fetchBlock_books (s : State) : SameBooks s s.fetchBlock.1 := by
  unfold State.fetchBlock
  dsimp only
  split <;> exact ⟨rfl, rfl⟩

/-- An attempt is counted with the first event of its pulse (R240). -/
theorem startAttempt_books {s : State} (bound : s.attempt.toNat < 3) : SameBooks s s.startAttempt := by
  refine ⟨rfl, ?_⟩
  have counted : (s.attempt + 1).toNat = s.attempt.toNat + 1 := by bv_omega
  have excess : ((pulses s.world.trace + 1 : Nat) : Int) - (s.attempt + 1).toNat
      = (pulses s.world.trace : Int) - s.attempt.toNat := by rw [counted]; omega
  exact congrArg (LineBooks.mk s.world.dirOk (bootDrives true s.world.trace)
    (bootDrives false s.world.trace)) excess

/-- The attempt of `DETECT` a position stands before. -/
def Pos.attemptDue : Pos → Nat
  | .backoff | .pulse .low => 1
  | _ => 0

/-- After the first event of `DETECT`, up to the end of Reading: an attempt that is due is allowed. -/
structure State.underway (s : State) : Prop where
  st : s.st = .presenceConfirmed ∧ s.pos ≠ .entry ∨ s.st = .erased ∨ s.st = .writing ∨ s.st = .reading
  attempts : s.attempt.toNat + s.pos.attemptDue ≤ s.par.maxAttempts

/-- At the start of ModeExited. -/
structure State.atCleanup (s : State) : Prop where
  st : s.st = .modeExited
  pos : s.pos = .entry

theorem State.underway.counted {s : State} (h : s.underway) : s.attempt.toNat ≤ s.par.maxAttempts :=
  (Nat.le_add_right _ _).trans h.attempts

theorem State.underway.busy {s : State} (h : s.underway) : s.busy = true := by
  rcases h.st with ⟨st, -⟩ | st | st | st <;> simp [State.busy, st]

theorem underway_of_stage {s : State} {c : Stage} (st : s.st = c.home)
    (counted : s.attempt.toNat ≤ s.par.maxAttempts) (x : ExchangePos) :
    (s.goPos (.stage c x)).underway := by
  cases c <;> exact ⟨by simp [st, Stage.home], counted⟩

/-- What follows a stage goes on, or to ModeExited. -/
theorem stageDone_underway {s : State} {c : Stage} (st : s.st = c.home)
    (counted : s.attempt.toNat ≤ s.par.maxAttempts) (ok : Bool) :
    (s.stageDone c ok).underway ∨ (s.stageDone c ok).atCleanup := by
  have fail : ∀ kind, (s.raiseFail kind).atCleanup := fun _ => ⟨rfl, rfl⟩
  have issued : ∀ c' : Stage, c'.home = c.home → (s.issue c').underway := fun c' home =>
    underway_of_stage (st.trans home.symm) counted .tx
  have failed : c.home = .presenceConfirmed → s.attemptFailed.underway ∨ s.attemptFailed.atCleanup := by
    intro home
    unfold State.attemptFailed
    split
    · exact .inr (fail _)
    · next more => exact .inl ⟨.inl ⟨st.trans home, by simp⟩, Nat.lt_of_le_of_ne counted more⟩
  cases c with
  | sync => cases ok; exacts [failed rfl, .inl (issued _ rfl)]
  | get =>
    cases ok
    · exact failed rfl
    · show s.presenceFound.underway ∨ s.presenceFound.atCleanup
      unfold State.presenceFound
      split
      exacts [.inl (issued _ rfl), .inl ⟨.inr (.inl rfl), counted⟩]
  | getver => cases ok; exacts [.inr (fail _), .inl (issued _ rfl)]
  | getid => cases ok; exacts [.inr (fail _), .inl ⟨.inr (.inl rfl), counted⟩]
  | massEraseCmd => cases ok <;> exact .inl ⟨.inr (.inl st), counted⟩
  | massEraseParam => exact .inl ⟨.inr (.inl st), counted⟩
  | extEraseCmd =>
    cases ok
    exacts [.inl ⟨.inr (.inr (.inl rfl)), counted⟩, .inl (issued _ rfl)]
  | extEraseParam => exact .inl ⟨.inr (.inr (.inl rfl)), counted⟩
  | writeMem | writeAddr | readMem => cases ok; exacts [.inr (fail _), .inl (issued _ rfl)]
  | pageData => cases ok; exacts [.inr (fail _), .inl ⟨.inr (.inr (.inl st)), counted⟩]
  | readAddr => exact .inl (issued _ rfl)
  | pageLen => cases ok; exacts [.inr (fail _), .inl ⟨.inr (.inr (.inr st)), counted⟩]

theorem OnlyCommand.attempt {s t : State} (h : OnlyCommand s t) : t.attempt = s.attempt := by
  unfold OnlyCommand at h
  rw [h]

theorem stageStep_underway {s : State} {c : Stage} (st : s.st = c.home)
    (counted : s.attempt.toNat ≤ s.par.maxAttempts) (x : ExchangePos) :
    (s.stageStep c x).underway ∨ (s.stageStep c x).atCleanup := by
  obtain ⟨u, event, e⟩ := stageStep_cases s c x
  obtain ⟨kept, par⟩ := event.only.st_par
  have attempt := event.only.attempt
  rw [← kept] at st
  rw [← attempt, ← par] at counted
  obtain ⟨y, -, e⟩ | ⟨ok, e⟩ := e <;> rw [e]
  · exact .inl (underway_of_stage st counted y)
  · exact stageDone_underway st counted ok

theorem nextBlock_books (s : State) (page : Stage) (after : St) : SameBooks s (s.nextBlock page after) := by
  have fetched := fetchBlock_books s
  unfold State.nextBlock
  dsimp only
  split
  · split <;> exact fetched.trans ⟨rfl, rfl⟩
  · exact ⟨rfl, rfl⟩

theorem nextBlock_underway {s : State} {page : Stage} {after : St} (st : s.st = page.home)
    (counted : s.attempt.toNat ≤ s.par.maxAttempts)
    (left : (s.goto after).underway ∨ (s.goto after).atCleanup) :
    (s.nextBlock page after).underway ∨ (s.nextBlock page after).atCleanup := by
  have frame := fetchBlock_frame s
  unfold State.nextBlock
  dsimp only
  split
  · generalize s.fetchBlock = r at frame ⊢
    split
    · refine .inl (underway_of_stage ?_ ?_ .tx)
      · rw [frame]; exact st
      · rw [frame]; exact counted
    · exact .inr ⟨rfl, rfl⟩
  · exact left

/-- A session underway goes on, or to ModeExited, and writes neither book. -/
theorem SeqMove.underway {s t : State} (most : s.par.maxAttempts ≤ 3) (h : s.underway)
    (move : SeqMove s t) : SameBooks s t ∧ (t.underway ∨ t.atCleanup) := by
  have counted := h.counted
  obtain ⟨course, attempts⟩ := h
  cases move with
  | rest st => rcases st with st | st <;> simp [st] at course
  | validate st | mount st | openImage st | sizeImage st | enterBl st | configureUart st | startCleanup st
  | exitBl st | cleanupImage st => simp [st] at course
  | setPins _ st => simp [st] at course
  | firstAttempt st pos => simp [st, pos] at course
  | nextAttempt st pos =>
    have due : s.attempt.toNat + 1 ≤ s.par.maxAttempts := by rwa [pos] at attempts
    have later : s.startAttempt.pos ≠ .entry := by simp [State.startAttempt, State.pulseStep]
    refine ⟨startAttempt_books (by omega), .inl ⟨.inl ⟨st, later⟩, ?_⟩⟩
    show (s.attempt + 1).toNat ≤ s.par.maxAttempts
    bv_omega
  | pulse q later st pos =>
    cases q with
    | low => exact absurd rfl later
    | hold | high => exact ⟨⟨rfl, rfl⟩, .inl ⟨.inl ⟨st, by simp [State.pulseStep]⟩, counted⟩⟩
    | settle =>
      have synced : s.pulseStep .settle = (s.wait s.par.tSettle).issue .sync := pulseDone_presence st
      rw [synced]
      exact ⟨⟨rfl, rfl⟩,
        .inl (underway_of_stage (s := s.wait s.par.tSettle) (c := .sync) st counted .tx)⟩
  | backOff st pos =>
    rw [pos] at attempts
    exact ⟨⟨rfl, rfl⟩, .inl ⟨.inl ⟨st, by simp [State.backOff]⟩, attempts⟩⟩
  | stage c x st => exact ⟨stageStep_books s c x, stageStep_underway st counted x⟩
  | eraseAll st =>
    exact ⟨stageStep_books s .massEraseCmd .tx, stageStep_underway (c := .massEraseCmd) st counted .tx⟩
  | seedWriting st => exact ⟨⟨rfl, rfl⟩, .inl ⟨.inr (.inr (.inl st)), counted⟩⟩
  | seedReading st => exact ⟨⟨rfl, rfl⟩, .inl ⟨.inr (.inr (.inr st)), counted⟩⟩
  | nextWriting st =>
    exact ⟨nextBlock_books s _ _,
      nextBlock_underway st counted (.inl ⟨.inr (.inr (.inr rfl)), counted⟩)⟩
  | nextReading st => exact ⟨nextBlock_books s _ _, nextBlock_underway st counted (.inr ⟨rfl, rfl⟩)⟩

/-! ### To the start of ModeExited -/

theorem Leads.wf {s t : State} (run : Leads s t) (wf : s.par.wf = true) : t.par.wf = true := by
  obtain ⟨-, -, -, -, -, par⟩ := run.untouched
  rwa [par]

/-- A session underway comes to ModeExited, since it comes to Done (R315(a)). -/
theorem underway_ends : ∀ (n : Nat) (s : State), s.par.wf = true → legalPos s.st s.pos = true →
    s.underway → (State.seqStep^[n] s).st = .done → ∃ x, Leads s x ∧ SameBooks s x ∧ x.atCleanup := by
  intro n
  induction n with
  | zero =>
    intro s _ _ h done
    exact absurd h.busy (by simp [(busy_eq_false s).mpr (.inr done)])
  | succ n ih =>
    intro s wf legal h done
    obtain ⟨-, -, most, -⟩ := Params.wf_bounds wf
    have move := seqStep_move s legal
    have near := move.progress wf h.busy
    obtain ⟨books, goesOn | ends⟩ := move.underway most h
    · rw [Function.iterate_succ_apply] at done
      obtain ⟨x, run, later, ends⟩ := ih s.seqStep (by rwa [seqStep_par]) near.legal goesOn done
      exact ⟨x, .head rfl run, books.trans later, ends⟩
    · exact ⟨s.seqStep, .head rfl (.refl _), books, ends⟩

theorem underway_leads {s : State} (wf : s.par.wf = true) (legal : legalPos s.st s.pos = true)
    (h : s.underway) : ∃ x, Leads s x ∧ SameBooks s x ∧ x.atCleanup := by
  have begun : s.st ≠ .idle := fun idle => absurd h.busy (by simp [(busy_eq_false s).mpr (.inl idle)])
  exact underway_ends s.stepsLeft s wf legal h (sequence_done _ s wf begun ⟨legal, Nat.le_refl _⟩)

/-- From the first event of the first attempt of `DETECT` to the start of ModeExited. -/
theorem firstAttempt_leads {s : State} (st : s.st = .presenceConfirmed) (none : s.attempt = 0)
    (wf : s.par.wf = true) : ∃ x, Leads s.startAttempt x ∧ SameBooks s x ∧ x.atCleanup := by
  obtain ⟨-, least, -, -⟩ := Params.wf_bounds wf
  have first : (s.attempt + 1).toNat = 1 := by rw [none]; rfl
  have counted : SameBooks s s.startAttempt := startAttempt_books (by rw [none]; decide)
  have held : s.startAttempt.pos = .pulse .hold := rfl
  have legal : legalPos s.st (.pulse .hold) = true := by rw [st]; rfl
  have allowed : s.startAttempt.attempt.toNat + 0 ≤ s.par.maxAttempts := first.trans_le least
  obtain ⟨x, run, books, ends⟩ :=
    underway_leads (s := s.startAttempt) wf legal ⟨.inl ⟨st, by rw [held]; simp⟩, allowed⟩
  exact ⟨x, run, counted.trans books, ends⟩

/-- PresenceConfirmed: the attempts are counted from none. -/
theorem presence_leads {s : State} (st : s.st = .presenceConfirmed) (pos : s.pos = .entry)
    (wf : s.par.wf = true) : ∃ x, Leads s x ∧ x.imageBooks = s.imageBooks
      ∧ (s.attempt = 0 → x.lineBooks = s.lineBooks) ∧ x.atCleanup := by
  have first : s.seqStep = ({ s with attempt := 0 } : State).startAttempt := by
    simp [State.seqStep, st, pos]
  obtain ⟨x, run, books, ends⟩ := firstAttempt_leads (s := { s with attempt := 0 }) st rfl wf
  refine ⟨x, .head first run, books.image, fun none => books.line.trans ?_, ends⟩
  simp [State.lineBooks, none]

/-- TransportReady: two calls of the UART, whose answers decide (R266). -/
theorem transport_leads {s : State} (st : s.st = .transportReady) (pos : s.pos = .entry)
    (wf : s.par.wf = true) : ∃ x, Leads s x ∧ x.imageBooks = s.imageBooks
      ∧ (s.attempt = 0 → x.lineBooks = s.lineBooks) ∧ x.atCleanup := by
  have first := seqStep_configureUart st pos
  have second := seqStep_setPins (s := s.configureUart) st rfl
  refine Exists.imp (fun x => And.imp_left fun run => .head first (.head second run)) ?_
  unfold State.setPins
  dsimp only
  split
  · exact presence_leads (s := ((s.configureUart).ask _).1.goto .presenceConfirmed) rfl rfl wf
  · exact ⟨_, .refl _, rfl, fun _ => rfl, rfl, rfl⟩

end Sys2Proof.Machine
end

section
/-!
PROOFS. A session, state by state, in its books: the states before ModeEntered (`prepare_leads`), `ENTER_BL`
and what follows to the start of ModeExited (`exit_leads`), the cleanup (`cleanup_leads`, `closing_leads`), and
the whole (`session_leads`).
-/
namespace Sys2Proof.Machine

/-! ### `ENTER_BL` and `EXIT_BL` -/

theorem configLines_answers {s : State} {answers : List Bool}
    (script : s.world.dirOk = true :: true :: answers) :
    s.configLines.2 = true ∧ s.configLines.1.world.dirOk = answers := by
  simp [State.configLines, State.setDir, State.ask, World.setDir, draw, script]

/-- The boot-mode operations do nothing to the image. -/
theorem bootMode_image (s : State) (level : Bool) : (s.bootMode level).1.imageBooks = s.imageBooks := by
  obtain ⟨-, -, -, -, -, -, opened, entered, -⟩ := (bootMode_frame s level).keeps
  obtain ⟨ok1, ok2, -, -, events, -⟩ := configLines_effect s
  have trace : imageOpens (s.bootMode level).1.world.trace = imageOpens s.world.trace
      ∧ imageCloses (s.bootMode level).1.world.trace = imageCloses s.world.trace := by
    cases ok : s.configLines.2 with
    | true =>
      obtain ⟨-, -, driven, -⟩ := bootMode_succeeds level ok
      rw [driven, events]
      exact ⟨rfl, rfl⟩
    | false =>
      rw [bootMode_fails level ok, events]
      exact ⟨rfl, rfl⟩
  obtain ⟨opens, closes⟩ := trace
  simp only [State.imageBooks, opened, entered, opens, closes]

theorem resetPulse_dirOk (s : State) : s.resetPulse.world.dirOk = s.world.dirOk := rfl

/-- With both configurations succeeding the boot-mode line is driven once and the target reset once. -/
theorem bootMode_line {s : State} {answers : List Bool} (level : Bool)
    (script : s.world.dirOk = true :: true :: answers) :
    (s.bootMode level).2 = true ∧ (s.bootMode level).1.bootSel = level ∧ (s.bootMode level).1.nrst = true
      ∧ (s.bootMode level).1.lineBooks = s.lineBooks.driven level answers := by
  obtain ⟨ok, left⟩ := configLines_answers script
  obtain ⟨succeeded, frame, trace, -⟩ := bootMode_succeeds level ok
  obtain ⟨ok1, ok2, -, -, events, -⟩ := configLines_effect s
  have run : s.bootMode level = ((s.configLines.1.setLevel .boot level).resetPulse, true) := by
    simp [State.bootMode, ok]
  have dirOk : (s.bootMode level).1.world.dirOk = answers := by
    rw [run, resetPulse_dirOk, State.setLevel_world]
    exact left
  have attempt : (s.bootMode level).1.attempt = s.attempt := by rw [frame]
  refine ⟨succeeded, congrArg State.bootSel frame, congrArg State.nrst frame, ?_⟩
  rw [State.lineBooks, dirOk, attempt, trace, events]
  cases level <;> simp [State.lineBooks, LineBooks.driven, bootDrives, pulses] <;> omega

/-! ### From the start to the sized image (R262 to R264) -/

/-- No line is driven or asked for, and no attempt counted, between the two states. -/
structure SameLines (s t : State) : Prop where
  book : t.lineBooks = s.lineBooks
  boot : t.bootSel = s.bootSel
  reset : t.nrst = s.nrst
  attempt : t.attempt = s.attempt

theorem SameLines.trans {s t u : State} (a : SameLines s t) (b : SameLines t u) : SameLines s u :=
  ⟨b.book.trans a.book, b.boot.trans a.boot, b.reset.trans a.reset, b.attempt.trans a.attempt⟩

/-- ImageLocated: where the size is accepted, boot mode is entered next. -/
theorem size_leads {s : State} (st : s.st = .imageLocated) (pos : s.pos = .size) :
    ∃ x, Leads s x ∧ SameLines s x
      ∧ (x.imageBooks = s.imageBooks ∧ x.atCleanup
        ∨ x.imageBooks = { s.imageBooks with entered := true }
          ∧ x.st = .modeEntered ∧ x.pos = .entry) := by
  refine ⟨s.sizeImage, .head (seqStep_size st pos) (.refl _), ?_⟩
  unfold State.sizeImage
  dsimp only
  split
  · exact ⟨⟨rfl, rfl, rfl, rfl⟩, .inl ⟨rfl, rfl, rfl⟩⟩
  · split
    · exact ⟨⟨rfl, rfl, rfl, rfl⟩, .inl ⟨rfl, rfl, rfl⟩⟩
    · exact ⟨⟨rfl, rfl, rfl, rfl⟩, .inr ⟨rfl, rfl, rfl⟩⟩

/-- `StoOpen` is recorded with its answer. -/
theorem askOpen_image {s : State} {ok : Bool} (answer : (World.stoOpen s.cap s.name s.world).2 = ok) :
    (s.ask (World.stoOpen s.cap s.name)).1.imageBooks
      = { s.imageBooks with opens := s.imageBooks.opens + ok.toNat } := by
  have trace : (s.ask (World.stoOpen s.cap s.name)).1.world.trace = .stoOpen s.name ok :: s.world.trace := by
    rw [← answer]
    rfl
  rw [State.imageBooks, trace]
  cases ok <;> rfl

/-- Where the states before ModeEntered lead: to ModeEntered with the image open, or to ModeExited. -/
structure Prepared (s x : State) (opened entered : Bool) : Prop where
  run : Leads s x
  lines : SameLines s x
  image : x.imageBooks = ⟨opened, entered, s.imageBooks.opens + opened.toNat, s.imageBooks.closes⟩
  next : entered = false ∧ x.atCleanup ∨ entered = true ∧ x.st = .modeEntered ∧ x.pos = .entry

/-- ImageLocated: the image is opened at most once, and boot mode is entered only with the image open. -/
theorem locate_leads {s : State} (st : s.st = .imageLocated) (pos : s.pos = .entry)
    (closed : s.imgOpen = false) (left : s.modeEntered = false) :
    ∃ x opened entered, Prepared s x opened entered := by
  have first : Leads s s.openImage := .head (seqStep_open st pos) (.refl _)
  cases ok : (World.stoOpen s.cap s.name s.world).2 with
  | false =>
    have failed : s.openImage = (s.ask (World.stoOpen s.cap s.name)).1.raiseFail .imageNotFound :=
      if_neg (by simp [ok])
    rw [failed] at first
    refine ⟨_, false, false, first, ⟨rfl, rfl, rfl, rfl⟩, (askOpen_image ok).trans ?_,
      .inl ⟨rfl, rfl, rfl⟩⟩
    simp only [State.imageBooks, closed, left, Bool.toNat_false, Nat.add_zero]
  | true =>
    have opened : s.openImage
        = ({ (s.ask (World.stoOpen s.cap s.name)).1 with imgOpen := true } : State).goPos .size := if_pos ok
    have image : s.openImage.imageBooks = ⟨true, false, s.imageBooks.opens + 1, s.imageBooks.closes⟩ := by
      rw [opened]
      refine (congrArg (fun books : ImageBooks => { books with opened := true }) (askOpen_image ok)).trans ?_
      simp only [State.imageBooks, left, Bool.toNat_true]
    obtain ⟨x, run, lines, ends⟩ :=
      size_leads (s := s.openImage) (by rw [opened]; exact st) (by rw [opened]; rfl)
    have same : SameLines s s.openImage := by rw [opened]; exact ⟨rfl, rfl, rfl, rfl⟩
    rw [image] at ends
    rcases ends with ⟨books, aborted⟩ | ⟨books, entered⟩
    · exact ⟨x, true, false, first.trans run, same.trans lines, books, .inl ⟨rfl, aborted⟩⟩
    · exact ⟨x, true, true, first.trans run, same.trans lines, books, .inr ⟨rfl, entered⟩⟩

/-- From the start of a session: before ImageLocated nothing is done that is to be undone. -/
theorem prepare_leads {s : State} (st : s.st = .configValidated) (closed : s.imgOpen = false)
    (left : s.modeEntered = false) : ∃ x opened entered, Prepared s x opened entered := by
  have unopened : s.imageBooks = ⟨false, false, s.imageBooks.opens + 0, s.imageBooks.closes⟩ := by
    simp only [State.imageBooks, closed, left, Nat.add_zero]
  have first : Leads s s.validateConfig := .head (seqStep_configValidated st) (.refl _)
  unfold State.validateConfig at first
  split at first
  · have second := first.trans (.head (seqStep_storageReady (s := s.goto .storageReady) rfl) (.refl _))
    unfold State.mountStorage at second
    dsimp only at second
    split at second
    · have mounted : SameLines s (((s.goto .storageReady).ask (World.stoMount s.cap)).1.goto .imageLocated) :=
        ⟨rfl, rfl, rfl, rfl⟩
      obtain ⟨x, opened, entered, run, lines, image, next⟩ := locate_leads
        (s := ((s.goto .storageReady).ask (World.stoMount s.cap)).1.goto .imageLocated) rfl rfl closed left
      exact ⟨x, opened, entered, second.trans run, mounted.trans lines, image, next⟩
    · exact ⟨_, false, false, second, ⟨rfl, rfl, rfl, rfl⟩, unopened, .inl ⟨rfl, rfl, rfl⟩⟩
  · exact ⟨_, false, false, first, ⟨rfl, rfl, rfl, rfl⟩, unopened, .inl ⟨rfl, rfl, rfl⟩⟩

/-! ### The session -/

/-- From the start of ModeEntered, through `ENTER_BL`, to the start of ModeExited. -/
theorem entered_leads {s : State} (st : s.st = .modeEntered) (pos : s.pos = .entry) (wf : s.par.wf = true) :
    ∃ x, Leads s x ∧ x.imageBooks = s.imageBooks ∧ x.atCleanup
      ∧ ∀ answers, s.world.dirOk = true :: true :: answers → s.attempt = 0 →
        x.lineBooks = s.lineBooks.driven true answers := by
  have first : s.seqStep = s.configReset := by simp [State.seqStep, State.bootStep, st, pos]
  have run := Leads.head first (bootMode_leads (.inl ⟨st, rfl⟩))
  have image := bootMode_image s true
  obtain ⟨still, -, -, -, -, -, -, -, -, -, -, attempt, -⟩ := (bootMode_frame s true).keeps
  rw [bootDone_modeEntered (still.trans st)] at run
  cases ok : (s.bootMode true).2 with
  | false =>
    rw [if_neg (by simp [ok])] at run
    refine ⟨_, run, image, ⟨rfl, rfl⟩, fun answers script _ => ?_⟩
    obtain ⟨succeeded, -⟩ := bootMode_line true script
    exact absurd (ok.symm.trans succeeded) Bool.false_ne_true
  | true =>
    rw [if_pos ok] at run
    obtain ⟨x, rest, kept, line, ends⟩ :=
      transport_leads (s := (s.bootMode true).1.goto .transportReady) rfl rfl (run.wf wf)
    refine ⟨x, run.trans rest, kept.trans image, ends, fun answers script none => ?_⟩
    obtain ⟨-, -, -, driven⟩ := bootMode_line true script
    exact (line (attempt.trans none)).trans driven

/-- ModeExited up to the boot-mode exit, which is made where boot mode was entered (R271). -/
theorem cleanup_leads {s : State} (h : s.atCleanup) :
    ∃ x, Leads s x ∧ x.st = .modeExited ∧ x.pos = .closing
      ∧ x.imageBooks = { s.imageBooks with entered := false }
      ∧ (s.modeEntered = false → SameLines s x)
      ∧ (s.modeEntered = true → ∀ answers, s.world.dirOk = true :: true :: answers →
        x.bootSel = false ∧ x.nrst = true ∧ x.lineBooks = s.lineBooks.driven false answers) := by
  obtain ⟨st, pos⟩ := h
  have first := seqStep_startCleanup st pos
  cases entered : s.modeEntered with
  | false =>
    have nothing : s.startCleanup = s.goPos .closing := if_neg (by simp [entered])
    refine ⟨s.goPos .closing, .head (first.trans nothing) (.refl _), st, rfl, ?_,
      fun _ => ⟨rfl, rfl, rfl, rfl⟩, by simp⟩
    simp [State.imageBooks, entered]
  | true =>
    have exit : s.startCleanup = s.configReset := if_pos entered
    have run := Leads.head (first.trans exit) (bootMode_leads (.inr ⟨st, rfl⟩))
    obtain ⟨still, -⟩ := (bootMode_frame s false).keeps
    rw [bootDone_modeExited (still.trans st)] at run
    refine ⟨_, run, still.trans st, rfl, ?_, by simp, fun _ answers script => ?_⟩
    · exact congrArg (fun books : ImageBooks => { books with entered := false }) (bootMode_image s false)
    · obtain ⟨-, low, high, driven⟩ := bootMode_line false script
      exact ⟨low, high, driven⟩

/-- The end of a session: the image is closed where it is open (R271, R272). -/
theorem closing_leads {s : State} (st : s.st = .modeExited) (pos : s.pos = .closing) :
    ∃ t, Leads s t ∧ t.st = .done ∧ SameLines s t
      ∧ t.imageBooks = { s.imageBooks with
          opened := false, closes := s.imageBooks.closes + s.imageBooks.opened.toNat } := by
  have first := seqStep_closing st pos
  cases opened : s.imgOpen with
  | false =>
    have ended : s.cleanupImage = s.endSession := if_neg (by simp [opened])
    refine ⟨_, .head (first.trans ended) (.refl _), rfl, ⟨rfl, rfl, rfl, rfl⟩, ?_⟩
    show s.imageBooks = _
    simp only [State.imageBooks, opened, Bool.toNat_false, Nat.add_zero]
  | true =>
    have closes : s.cleanupImage = { s.tell (World.stoClose s.cap) with imgOpen := false } := if_pos opened
    have ended := seqStep_closing (s := { s.tell (World.stoClose s.cap) with imgOpen := false }) st pos
    refine ⟨_, .head (first.trans closes) (.head ended (.refl _)), rfl, ⟨rfl, rfl, rfl, rfl⟩, ?_⟩
    show (⟨false, s.modeEntered, s.imageBooks.opens, s.imageBooks.closes + 1⟩ : ImageBooks) = _
    simp only [State.imageBooks, opened, Bool.toNat_true]

/-- What a whole session leaves: the image was opened and closed, or neither; boot mode was not entered, or,
with all line configurations succeeding, the boot-mode line was raised and lowered and the target reset twice
beside the attempts of `DETECT`. -/
structure SessionEnds (s t : State) : Prop where
  done : t.st = .done
  image : ∃ opened : Bool, t.imageBooks
    = ⟨false, false, s.imageBooks.opens + opened.toNat, s.imageBooks.closes + opened.toNat⟩
  lines : ∀ answers, s.world.dirOk = true :: true :: true :: true :: answers → s.attempt = 0 →
    SameLines s t ∨ t.bootSel = false ∧ t.nrst = true
      ∧ t.lineBooks = (s.lineBooks.driven true (true :: true :: answers)).driven false answers

/-- A session up to the start of ModeExited. -/
theorem exit_leads {s : State} (st : s.st = .configValidated) (closed : s.imgOpen = false)
    (left : s.modeEntered = false) (wf : s.par.wf = true) :
    ∃ x opened entered, Leads s x ∧ x.atCleanup
      ∧ x.imageBooks = ⟨opened, entered, s.imageBooks.opens + opened.toNat, s.imageBooks.closes⟩
      ∧ (entered = false → SameLines s x)
      ∧ (entered = true → ∀ answers, s.world.dirOk = true :: true :: answers → s.attempt = 0 →
        x.lineBooks = s.lineBooks.driven true answers) := by
  obtain ⟨x, opened, entered, toExit, lines, image, next⟩ := prepare_leads st closed left
  rcases next with ⟨rfl, ends⟩ | ⟨rfl, xst, xpos⟩
  · exact ⟨x, opened, false, toExit, ends, image, fun _ => lines, by simp⟩
  · obtain ⟨y, run, same, ends, driven⟩ := entered_leads xst xpos (toExit.wf wf)
    rw [lines.book] at driven
    refine ⟨y, opened, true, toExit.trans run, ends, same.trans image, by simp,
      fun _ answers script none => ?_⟩
    have scripted : x.world.dirOk = _ := (congrArg LineBooks.answers lines.book).trans script
    exact driven answers scripted (lines.attempt.trans none)

/-- A session, from its start. -/
theorem session_leads {s : State} (st : s.st = .configValidated) (closed : s.imgOpen = false)
    (left : s.modeEntered = false) (wf : s.par.wf = true) : ∃ t, Leads s t ∧ SessionEnds s t := by
  obtain ⟨x, opened, entered, toCleanup, ends, image, apart, driven⟩ := exit_leads st closed left wf
  obtain ⟨y, toClosing, yst, ypos, undone, untouched, lowered⟩ := cleanup_leads ends
  obtain ⟨t, toDone, done, idle, closedAll⟩ := closing_leads yst ypos
  have mode : x.modeEntered = entered := congrArg ImageBooks.entered image
  rw [mode] at untouched lowered
  rw [undone, image] at closedAll
  refine ⟨t, (toCleanup.trans toClosing).trans toDone, done, ⟨opened, closedAll⟩,
    fun answers script none => ?_⟩
  cases entered with
  | false => exact .inl (((apart rfl).trans (untouched rfl)).trans idle)
  | true =>
    have raised := driven rfl _ script none
    have scripted : x.world.dirOk = true :: true :: answers := congrArg LineBooks.answers raised
    obtain ⟨low, high, book⟩ := lowered rfl answers scripted
    rw [raised] at book
    exact .inr ⟨idle.boot.trans low, idle.reset.trans high, idle.book.trans book⟩

end Sys2Proof.Machine
end

section
/-!
PROOFS. What `FLASH` leaves (spec/60_exceptions.md R315): the books of its session, read off the events that
are new in the trace (spec/20_memory.md R76).
-/
namespace Sys2Proof.Machine

/-! ### What the new events tell -/

theorem imageOpens_append (newer older : List Event) :
    imageOpens (newer ++ older) = imageOpens newer + imageOpens older := by
  induction newer with
  | nil => exact (Nat.zero_add _).symm
  | cons e newer ih =>
    cases e with
    | stoOpen name ok =>
      cases ok
      · exact ih
      · rw [List.cons_append, imageOpens, ih, imageOpens]; omega
    | _ => exact ih

theorem imageCloses_append (newer older : List Event) :
    imageCloses (newer ++ older) = imageCloses newer + imageCloses older := by
  induction newer with
  | nil => exact (Nat.zero_add _).symm
  | cons e newer ih =>
    cases e with
    | stoClose => rw [List.cons_append, imageCloses, ih, imageCloses]; omega
    | _ => exact ih

theorem bootDrives_append (level : Bool) (newer older : List Event) :
    bootDrives level (newer ++ older) = bootDrives level newer + bootDrives level older := by
  induction newer with
  | nil => exact (Nat.zero_add _).symm
  | cons e newer ih =>
    cases e with
    | setLevel line id v =>
      cases line
      · exact ih
      · rw [List.cons_append, bootDrives, ih, bootDrives]; omega
    | _ => exact ih

theorem pulses_append (newer older : List Event) :
    pulses (newer ++ older) = pulses newer + pulses older := by
  induction newer with
  | nil => exact (Nat.zero_add _).symm
  | cons e newer ih =>
    cases e with
    | setLevel line id v =>
      cases line
      · cases v
        · rw [List.cons_append, pulses, ih, pulses]; omega
        · exact ih
      · exact ih
    | _ => exact ih

/-- What the sequence does is recorded before the trace of before (R73). -/
theorem Leads.trace {s t : State} (run : Leads s t) : ∃ new, t.world.trace = new ++ s.world.trace := by
  obtain ⟨k, rfl⟩ := run
  obtain ⟨new, recorded⟩ := (runSequence_worldRel k s (worldRel_recorded s.cap)).2
  rw [← runSequence_eq]
  exact ⟨new, recorded.trace⟩

/-- `FLASH` answers the end of the session it starts. -/
theorem flash_ends {s : State} (c : Cfg) (nm : Name) (idle : s.st = .idle ∨ s.st = .done)
    (wf : s.par.wf = true) :
    ∃ t new, exec (.flash c nm) s = .next (t.setRet (.result t.result)) ∧ t.cfg = c
      ∧ t.world.trace = new ++ s.world.trace ∧ SessionEnds (s.startSession c nm) t := by
  obtain ⟨t, run, ends⟩ := session_leads (s := s.startSession c nm) rfl rfl rfl wf
  obtain ⟨new, trace⟩ := run.trace
  obtain ⟨cfg, -⟩ := run.untouched
  exact ⟨t, new, flash_of_leads idle wf run ends.done, cfg, trace, ends⟩

/-- Settles O51: at the end of a session both flags are clear. -/
theorem flashAlwaysReachesDone : Obligations.FlashAlwaysReachesDone := by
  intro s c nm idle wf
  obtain ⟨t, new, flash, cfg, -, done, ⟨opened, image⟩, -⟩ := flash_ends c nm idle wf
  exact ⟨_, flash, done, congrArg ImageBooks.opened image, congrArg ImageBooks.entered image, cfg, rfl⟩

/-- Settles O52: the opens and the closes a session adds to the trace are none, or one each. -/
theorem flashClosesTheImageExactlyWhenOpened : Obligations.FlashClosesTheImageExactlyWhenOpened := by
  intro s c nm idle wf
  obtain ⟨t, new, flash, -, trace, -, ⟨opened, image⟩, -⟩ := flash_ends c nm idle wf
  have opens : imageOpens t.world.trace = imageOpens s.world.trace + opened.toNat :=
    congrArg ImageBooks.opens image
  have closes : imageCloses t.world.trace = imageCloses s.world.trace + opened.toNat :=
    congrArg ImageBooks.closes image
  have most := opened.toNat_le
  rw [trace, imageOpens_append] at opens
  rw [trace, imageCloses_append] at closes
  exact ⟨_, new, flash, trace, by omega, by omega⟩

/-- What the line book gained is in the new events. -/
theorem lineBooks_new {s t : State} {new : List Event} (trace : t.world.trace = new ++ s.world.trace) :
    t.lineBooks.raises = s.lineBooks.raises + bootDrives true new
      ∧ t.lineBooks.lowers = s.lineBooks.lowers + bootDrives false new
      ∧ t.lineBooks.excess + t.attempt.toNat = s.lineBooks.excess + s.attempt.toNat + pulses new := by
  simp only [State.lineBooks, trace, bootDrives_append, pulses_append]
  omega

/-- Settles O53: the lines were never touched, or raised and lowered again; the reset pulses are those of
`ENTER_BL`, of `EXIT_BL` and of the attempts. -/
theorem flashRestoresTheLines : Obligations.FlashRestoresTheLines := by
  intro s c nm answers idle wf boot reset script
  obtain ⟨t, new, flash, -, trace, ends⟩ := flash_ends c nm idle wf
  obtain ⟨raises, lowers, excess⟩ := lineBooks_new (s := s.startSession c nm) trace
  have none : (s.startSession c nm).attempt.toNat = 0 := rfl
  refine ⟨_, new, flash, trace, ?_⟩
  show t.bootSel = false ∧ t.nrst = true
    ∧ bootDrives true new = bootDrives false new ∧ bootDrives true new ≤ 1
    ∧ (bootDrives true new = 0 → pulses new = 0)
    ∧ (bootDrives true new = 1 → pulses new = t.attempt.toNat + 2)
  rcases ends.lines answers script rfl with apart | ⟨low, high, book⟩
  · have same : t.attempt.toNat = 0 := congrArg BitVec.toNat apart.attempt
    rw [apart.book] at raises lowers excess
    exact ⟨apart.boot.trans boot, apart.reset.trans reset, by omega, by omega, by omega, by omega⟩
  · simp only [book, LineBooks.driven, Bool.toNat_true, Bool.toNat_false, Bool.not_true, Bool.not_false]
      at raises lowers excess
    exact ⟨low, high, by omega, by omega, by omega, by omega⟩

end Sys2Proof.Machine
end

section
/-!
PROOFS. The hardware reset (spec/70_reset_and_hazards.md R340, R341, spec/93_implementation_defined.md U2).
-/
namespace Sys2Proof.Machine

/-- Sampling ports that present nothing leaves the state as it is. -/
theorem popInput_of_no_inputs {s : State} (none : s.inputs = []) : s.popInput = s := by
  unfold State.popInput
  rw [none, List.tail_nil, ← none]

/-- In Idle and Done, with nothing placed and nothing presented, a step changes nothing (R40, R272). -/
theorem step_of_rest {s : State} (rest : s.st = .idle ∨ s.st = .done) (slot : s.slot = none)
    (none : s.inputs = []) : step s = .next s := by
  have silent : s.input = .none := by simp [State.input, none]
  obtain ⟨quiet, -⟩ := sessionBeginsOnlyWithAStart s rest slot
  exact (quiet silent).trans (congrArg Host.Outcome.next (popInput_of_no_inputs none))

/-- Settles O2: the step is the hardware reset, which keeps the environment and the parameters, and leaves
Idle with an empty slot, where a step without an input changes nothing. -/
theorem hardwareResetRestoresRegistersOnly : Obligations.HardwareResetRestoresRegistersOnly := by
  intro s rest presented
  have reset : s.input = .rst := by simp [State.input, presented]
  refine ⟨s.popInput.hwReset, step_reset s reset,
    rfl, rfl, rfl, rfl, rfl, rfl, rfl, rfl, rfl, rfl, rfl, rfl, rfl, rfl, rfl, rfl, fun last => ?_⟩
  have drained : s.popInput.hwReset.inputs = [] := (congrArg List.tail presented).trans last
  exact step_of_rest (.inl rfl) rfl drained

end Sys2Proof.Machine
end
